-- ==== Sys2Proof/Word.lean ====
section
/-! DEFINITION. The word and byte types of the V2MP block (R9, R16). -/

namespace Sys2Proof

/-- "Word: the CPU's natural 16-bit data unit" (R7, R16). -/
abbrev Word := BitVec 16

/-- A byte of the memory store or of a mailbox (R50). -/
abbrev Byte := BitVec 8

end Sys2Proof
end

