-- ==== Sys2Proof/Syntax.lean ====
section
/-! DEFINITION. The instruction set as data: one constructor per row of spec/opcode_table.json (R84). -/

namespace Sys2Proof

/-- The four index-addressable registers, in index order (R21). -/
inductive Reg where
  | r0 | r1 | lr | pc
  deriving DecidableEq, Repr

/-- The two general registers, the only destinations of `MUL` and `DIV` (R22, R86). -/
inductive GenReg where
  | r0 | r1
  deriving DecidableEq, Repr

/-- One constructor per row of spec/opcode_table.json.
Fields carry every bit the row leaves free, the reserved ones too: a word with a reserved bit set still belongs
to its row and raises `RES` (R97). Field names follow the table: `a` source, `b` destination, `l` literal, `v`
reserved bits, `u` bits not examined. In a literal or mask form the `A` field equals the `B` field and is not
repeated. -/
inductive Instr where
  /-- `ADD Rd, Rs` (R111). -/
  | addR (a b : Reg) (v : BitVec 8)
  /-- `ADD Rd, #n` (R111). -/
  | addL (b : Reg) (l : BitVec 8)
  /-- `SUB Rd, Rs` (R112). -/
  | subR (a b : Reg) (v : BitVec 8)
  /-- `SUB Rd, #n` (R112). -/
  | subL (b : Reg) (l : BitVec 8)
  /-- `ASGN Rd, Rs` (R131). -/
  | asgnR (a b : Reg) (v : BitVec 8)
  /-- `ASGN Rd, #n` (R131). -/
  | asgnL (b : Reg) (l : BitVec 8)
  /-- `MUL Rd` (R114); `v` is bits 9:0. -/
  | mulR (d : GenReg) (v : BitVec 10)
  /-- `MUL Rd, #n` (R114); `v` is bits 9:8. -/
  | mulL (d : GenReg) (v : BitVec 2) (l : BitVec 8)
  /-- `DIV Rd` (R116); `v` is bits 9:0. -/
  | divR (d : GenReg) (v : BitVec 10)
  /-- `DIV Rd, #n` (R116); `v` is bits 9:8. -/
  | divL (d : GenReg) (v : BitVec 2) (l : BitVec 8)
  /-- `SHFT Rd, Rs` (R134); `v` is bits 7:0. -/
  | shftR (a b : Reg) (v : BitVec 8)
  /-- `SHFT Rd, #m` (R134); `v` is bits 7:5. -/
  | shftL (b : Reg) (v : BitVec 3) (m : BitVec 5)
  /-- `AND Rd, Rs` (R138); `v` is bits 5:0. -/
  | andR (a b : Reg) (v : BitVec 6)
  /-- `AND Rd, bit s` or `AND Rd, ~bit s` (R138); `f` inverts the mask, `v` is bit 4. -/
  | andM (b : Reg) (f v : Bool) (s : BitVec 4)
  /-- `OR Rd, Rs` (R138). -/
  | orR (a b : Reg) (v : BitVec 6)
  /-- `OR Rd, bit s` or `OR Rd, ~bit s` (R138). -/
  | orM (b : Reg) (f v : Bool) (s : BitVec 4)
  /-- `XOR Rd, Rs` (R138). -/
  | xorR (a b : Reg) (v : BitVec 6)
  /-- `XOR Rd, bit s` or `XOR Rd, ~bit s` (R138). -/
  | xorM (b : Reg) (f v : Bool) (s : BitVec 4)
  /-- `NOT Rd` (R138); the `A` field is ignored (R88) and kept here so that no bit of the word is lost. -/
  | not (a b : Reg) (v : BitVec 6)
  /-- `CBX cc, LR` (R151); `z`, `c` select the conditions, `v` is bits 8:0. -/
  | cbxLr (z c : Bool) (v : BitVec 9)
  /-- `CBX cc, #f` (R151); `v` is bit 8. -/
  | cbxRel (z c v : Bool) (f : BitVec 8)
  /-- `LD Rd` (R161); `v` is bits 8:0. -/
  | ld (r : Reg) (v : BitVec 9)
  /-- `ST Rs` (R161); `v` is bits 8:0. -/
  | st (r : Reg) (v : BitVec 9)
  /-- `DPQ #q` (R181); `v` is bits 11:3. -/
  | dpq (v : BitVec 9) (q : BitVec 3)
  /-- `DPO RELQ` (R184); `i` is bit 11 and must be 0, `v` is bits 10:2. -/
  | dpoRelq (i : Bool) (v : BitVec 9)
  /-- `DPO RD` (R184); `v` is bits 10:2. -/
  | dpoRd (v : BitVec 9)
  /-- `DPO WR` (R184). -/
  | dpoWr (v : BitVec 9)
  /-- `DPO RD.I` (R184). -/
  | dpoRdI (v : BitVec 9)
  /-- `DPO WR.I` (R184). -/
  | dpoWrI (v : BitVec 9)
  /-- `POP` of a register set (R166); `v` is bits 10:4, bit `i` of `m` is register `i`. -/
  | pop (v : BitVec 7) (m : BitVec 4)
  /-- `PUSH` of a register set (R166). -/
  | push (v : BitVec 7) (m : BitVec 4)
  /-- `SIG` (R188); `v` is bits 11:0. -/
  | sig (v : BitVec 12)
  /-- Opcode `0xD`, no handler (R193); the operand bits are not examined. -/
  | ini0D (u : BitVec 12)
  /-- Opcode `0xE`, no handler (R193). -/
  | ini0E (u : BitVec 12)
  /-- `HCF #x` (R191). -/
  | hcf (x : BitVec 12)
  deriving DecidableEq, Repr

end Sys2Proof
end

