-- ==== Sys2Proof/WellFormed.lean ====
section
/-! DEFINITION. Which instruction terms are words of their row, and which of those a program may use (R97, R98). -/

namespace Sys2Proof

/-- The row's constraint: a register form needs two different registers, since `A = B` selects the literal or
mask form (R85, R87, R88). Exactly the terms that have a word of their own. -/
def Instr.inRow : Instr → Bool
  | .addR a b _ => a != b
  | .subR a b _ => a != b
  | .asgnR a b _ => a != b
  | .shftR a b _ => a != b
  | .andR a b _ => a != b
  | .orR a b _ => a != b
  | .xorR a b _ => a != b
  | .addL _ _ | .subL _ _ | .asgnL _ _ | .mulR _ _ | .mulL _ _ _ | .divR _ _ | .divL _ _ _ | .shftL _ _ _ => true
  | .andM _ _ _ _ | .orM _ _ _ _ | .xorM _ _ _ _ | .not _ _ _ | .cbxLr _ _ _ | .cbxRel _ _ _ _ => true
  | .ld _ _ | .st _ _ | .dpq _ _ | .dpoRelq _ _ | .dpoRd _ | .dpoWr _ | .dpoRdI _ | .dpoWrI _ => true
  | .pop _ _ | .push _ _ | .sig _ | .ini0D _ | .ini0E _ | .hcf _ => true

/-- Some reserved bit position of the form is set (the table of R97). -/
def Instr.reservedBitSet : Instr → Bool
  | .addR _ _ v => v != 0
  | .subR _ _ v => v != 0
  | .asgnR _ _ v => v != 0
  | .mulR _ v => v != 0
  | .mulL _ v _ => v != 0
  | .divR _ v => v != 0
  | .divL _ v _ => v != 0
  | .shftR _ _ v => v != 0
  | .shftL _ v _ => v != 0
  | .andR _ _ v => v != 0
  | .orR _ _ v => v != 0
  | .xorR _ _ v => v != 0
  | .andM _ _ v _ => v
  | .orM _ _ v _ => v
  | .xorM _ _ v _ => v
  | .not _ _ v => v != 0
  | .cbxLr _ _ v => v != 0
  | .cbxRel _ _ v _ => v
  | .ld _ v => v != 0
  | .st _ v => v != 0
  | .dpq v _ => v != 0
  | .dpoRelq _ v => v != 0
  | .dpoRd v => v != 0
  | .dpoWr v => v != 0
  | .dpoRdI v => v != 0
  | .dpoWrI v => v != 0
  | .pop v _ => v != 0
  | .push v _ => v != 0
  | .sig v => v != 0
  | .addL _ _ | .subL _ _ | .asgnL _ _ | .ini0D _ | .ini0E _ | .hcf _ => false

/-- A field holds a reserved value (R98): a literal assigned to `PC`, query kinds 6 and 7, an indirect relinquish,
an empty register mask. -/
def Instr.reservedValueUsed : Instr → Bool
  | .asgnL b _ => b == .pc
  | .dpq _ q => decide (6 ≤ q.toNat)
  | .dpoRelq i _ => i
  | .pop _ m => m == 0
  | .push _ m => m == 0
  | .addR _ _ _ | .addL _ _ | .subR _ _ _ | .subL _ _ | .asgnR _ _ _ | .mulR _ _ | .mulL _ _ _ | .divR _ _ => false
  | .divL _ _ _ | .shftR _ _ _ | .shftL _ _ _ | .andR _ _ _ | .andM _ _ _ _ | .orR _ _ _ | .orM _ _ _ _ => false
  | .xorR _ _ _ | .xorM _ _ _ _ | .not _ _ _ | .cbxLr _ _ _ | .cbxRel _ _ _ _ | .ld _ _ | .st _ _ => false
  | .dpoRd _ | .dpoWr _ | .dpoRdI _ | .dpoWrI _ | .sig _ | .ini0D _ | .ini0E _ | .hcf _ => false

/-- The encodings for which the instruction raises `RES` (R97, R98). -/
def Instr.reserved (i : Instr) : Bool :=
  i.reservedBitSet || i.reservedValueUsed

/-- An instruction a program may use: it has a word of its own, and the word sets no reserved bit and uses no
reserved value (R325). -/
def WellFormed (i : Instr) : Bool :=
  i.inRow && !i.reserved

end Sys2Proof
end

