-- ==== Sys2Proof/Decode.lean ====
section
/-! DEFINITION. The decoder (R80 to R99), total on any bytes, and the encoder, both from the formats of
30_encoding.md. -/

namespace Sys2Proof

/-- Register index: `00 = R0`, `01 = R1`, `10 = LR`, `11 = PC` (R82). -/
def Reg.bits : Reg → BitVec 2
  | .r0 => 0b00#2
  | .r1 => 0b01#2
  | .lr => 0b10#2
  | .pc => 0b11#2

/-- The register a 2-bit field names (R82). -/
def Reg.ofBits (n : BitVec 2) : Reg :=
  match n.getLsbD 1, n.getLsbD 0 with
  | false, false => .r0
  | false, true => .r1
  | true, false => .lr
  | true, true => .pc

/-- The 1-bit destination field of `MUL` and `DIV`: `0 = R0`, `1 = R1` (R82). -/
def GenReg.bit : GenReg → BitVec 1
  | .r0 => 0#1
  | .r1 => 1#1

/-- The destination a 1-bit field names (R82). -/
def GenReg.ofBit (n : Bool) : GenReg :=
  match n with
  | false => .r0
  | true => .r1

/-- Bits `hi` down to `lo` of a word, given the low position and the width (R9). -/
def field (w : Word) (lo width : Nat) : BitVec width :=
  w.extractLsb' lo width

/-- Bit `i` of a word (R9). -/
def bit (w : Word) (i : Nat) : Bool :=
  w.getLsbD i

/-- Why the decoder gives no instruction. -/
inductive DecodeError where
  /-- A `DPO` word with type field 0: it matches no row of the opcode table (R84, R98). The engine raises `RES`. -/
  | noDpoOperation
  /-- Fewer bytes than one instruction word (R80). Only `decode` on a byte list answers it. -/
  | truncated
  deriving DecidableEq, Repr

/-- `op` 0x6, by the operation field and the form (R88). -/
def decodeBitw (w : Word) : Instr :=
  let a := Reg.ofBits (field w 10 2)
  let b := Reg.ofBits (field w 8 2)
  let f := bit w 5
  let v := bit w 4
  let s := field w 0 4
  match bit w 7, bit w 6 with
  | false, false => if a = b then .andM b f v s else .andR a b (field w 0 6)
  | false, true => if a = b then .orM b f v s else .orR a b (field w 0 6)
  | true, false => if a = b then .xorM b f v s else .xorR a b (field w 0 6)
  | true, true => .not a b (field w 0 6)

/-- `op` 0xA, by the operation and indirect fields (R92). -/
def decodeDpo (w : Word) : Except DecodeError Instr :=
  let v := field w 2 9
  match bit w 1, bit w 0, bit w 11 with
  | false, false, _ => .error .noDpoOperation
  | false, true, i => .ok (.dpoRelq i v)
  | true, false, false => .ok (.dpoRd v)
  | true, false, true => .ok (.dpoRdI v)
  | true, true, false => .ok (.dpoWr v)
  | true, true, true => .ok (.dpoWrI v)

/-- The row and the operands of an instruction word: the opcode of R83, the form-selecting fields of R85 to R95.
Reserved bits are kept, not checked: the instruction's meaning raises `RES` (R81 step 4). -/
def decodeWord (w : Word) : Except DecodeError Instr :=
  let a := Reg.ofBits (field w 10 2)
  let b := Reg.ofBits (field w 8 2)
  let l := field w 0 8
  let d := GenReg.ofBit (bit w 11)
  match bit w 15, bit w 14, bit w 13, bit w 12 with
  | false, false, false, false => .ok (if a = b then .addL b l else .addR a b l)
  | false, false, false, true => .ok (if a = b then .subL b l else .subR a b l)
  | false, false, true, false => .ok (if bit w 10 then .mulL d (field w 8 2) l else .mulR d (field w 0 10))
  | false, false, true, true => .ok (if bit w 10 then .divL d (field w 8 2) l else .divR d (field w 0 10))
  | false, true, false, false => .ok (if a = b then .asgnL b l else .asgnR a b l)
  | false, true, false, true => .ok (if a = b then .shftL b (field w 5 3) (field w 0 5) else .shftR a b l)
  | false, true, true, false => .ok (decodeBitw w)
  | false, true, true, true =>
    .ok (if bit w 11 then .cbxRel (bit w 10) (bit w 9) (bit w 8) l
      else .cbxLr (bit w 10) (bit w 9) (field w 0 9))
  | true, false, false, false =>
    .ok (if bit w 11 then .st (Reg.ofBits (field w 9 2)) (field w 0 9)
      else .ld (Reg.ofBits (field w 9 2)) (field w 0 9))
  | true, false, false, true => .ok (.dpq (field w 3 9) (field w 0 3))
  | true, false, true, false => decodeDpo w
  | true, false, true, true =>
    .ok (if bit w 11 then .push (field w 4 7) (field w 0 4) else .pop (field w 4 7) (field w 0 4))
  | true, true, false, false => .ok (.sig (field w 0 12))
  | true, true, false, true => .ok (.ini0D (field w 0 12))
  | true, true, true, false => .ok (.ini0E (field w 0 12))
  | true, true, true, true => .ok (.hcf (field w 0 12))

/-- The instruction at the head of a byte list, and the bytes after it: one little-endian word (R54, R80). -/
def decode : List Byte → Except DecodeError (Instr × List Byte)
  | lo :: hi :: rest =>
    match decodeWord (hi ++ lo) with
    | .ok i => .ok (i, rest)
    | .error e => .error e
  | _ => .error .truncated

/-- A field's value placed in a word, its lowest bit at position `lo` (R9). -/
def put (lo : Nat) {n : Nat} (x : BitVec n) : Word :=
  x.setWidth 16 <<< lo

/-- A 1-bit field's value placed in a word. -/
def putBit (lo : Nat) (x : Bool) : Word :=
  put lo (BitVec.ofBool x)

/-- The opcode and the two register fields of formats RRL, SH and BW (R85, R87, R88). -/
def putRegs (op : BitVec 4) (a b : Reg) : Word :=
  put 12 op ||| put 10 a.bits ||| put 8 b.bits

/-- Format MD: opcode, destination and operand select (R86). -/
def putMulDiv (op : BitVec 4) (d : GenReg) (s : Bool) : Word :=
  put 12 op ||| put 11 d.bit ||| putBit 10 s

/-- The operation, invert, reserved and shift fields of a mask form of `BITW` (R88). -/
def putMask (o : BitVec 2) (f v : Bool) (s : BitVec 4) : Word :=
  put 6 o ||| putBit 5 f ||| putBit 4 v ||| put 0 s

/-- Format DO: opcode, indirect bit, reserved bits and operation (R92). -/
def putDpo (i : Bool) (v : BitVec 9) (t : BitVec 2) : Word :=
  put 12 0xA#4 ||| putBit 11 i ||| put 2 v ||| put 0 t

/-- The instruction's word, field by field from the patterns of R85 to R95. -/
def encode : Instr → Word
  | .addR a b v => putRegs 0x0 a b ||| put 0 v
  | .addL b l => putRegs 0x0 b b ||| put 0 l
  | .subR a b v => putRegs 0x1 a b ||| put 0 v
  | .subL b l => putRegs 0x1 b b ||| put 0 l
  | .mulR d v => putMulDiv 0x2 d false ||| put 0 v
  | .mulL d v l => putMulDiv 0x2 d true ||| put 8 v ||| put 0 l
  | .divR d v => putMulDiv 0x3 d false ||| put 0 v
  | .divL d v l => putMulDiv 0x3 d true ||| put 8 v ||| put 0 l
  | .asgnR a b v => putRegs 0x4 a b ||| put 0 v
  | .asgnL b l => putRegs 0x4 b b ||| put 0 l
  | .shftR a b v => putRegs 0x5 a b ||| put 0 v
  | .shftL b v m => putRegs 0x5 b b ||| put 5 v ||| put 0 m
  | .andR a b v => putRegs 0x6 a b ||| put 6 0b00#2 ||| put 0 v
  | .andM b f v s => putRegs 0x6 b b ||| putMask 0b00 f v s
  | .orR a b v => putRegs 0x6 a b ||| put 6 0b01#2 ||| put 0 v
  | .orM b f v s => putRegs 0x6 b b ||| putMask 0b01 f v s
  | .xorR a b v => putRegs 0x6 a b ||| put 6 0b10#2 ||| put 0 v
  | .xorM b f v s => putRegs 0x6 b b ||| putMask 0b10 f v s
  | .not a b v => putRegs 0x6 a b ||| put 6 0b11#2 ||| put 0 v
  | .cbxLr z c v => put 12 0x7#4 ||| putBit 10 z ||| putBit 9 c ||| put 0 v
  | .cbxRel z c v f => put 12 0x7#4 ||| putBit 11 true ||| putBit 10 z ||| putBit 9 c ||| putBit 8 v ||| put 0 f
  | .ld r v => put 12 0x8#4 ||| put 9 r.bits ||| put 0 v
  | .st r v => put 12 0x8#4 ||| putBit 11 true ||| put 9 r.bits ||| put 0 v
  | .dpq v q => put 12 0x9#4 ||| put 3 v ||| put 0 q
  | .dpoRelq i v => putDpo i v 0b01
  | .dpoRd v => putDpo false v 0b10
  | .dpoWr v => putDpo false v 0b11
  | .dpoRdI v => putDpo true v 0b10
  | .dpoWrI v => putDpo true v 0b11
  | .pop v m => put 12 0xB#4 ||| put 4 v ||| put 0 m
  | .push v m => put 12 0xB#4 ||| putBit 11 true ||| put 4 v ||| put 0 m
  | .sig v => put 12 0xC#4 ||| put 0 v
  | .ini0D u => put 12 0xD#4 ||| put 0 u
  | .ini0E u => put 12 0xE#4 ||| put 0 u
  | .hcf x => put 12 0xF#4 ||| put 0 x

/-- The bytes of a word in the order they lie in the code segment: low byte first (R54). -/
def wordBytes (w : Word) : List Byte :=
  [w.extractLsb' 0 8, w.extractLsb' 8 8]

/-- The instruction the decoder reads from the bits `w` of an opcode-table row; bits from `nbits` up are zero. -/
def decodeTableWord (nbits w : Nat) : Option Instr :=
  match decode (wordBytes (BitVec.ofNat 16 (w % 2 ^ nbits))) with
  | .ok (i, _) => some i
  | .error _ => none

end Sys2Proof
end

