-- ==== Sys2Proof/Config.lean ====
section
/-! DEFINITION. What an implementation fixes: the parameters of R8 as plain data, with the defaults of R8. -/

namespace Sys2Proof

/-- The supervisor-interface request channels (R34; `dpo` is added by 90_conflicts.md C2). -/
inductive Channel where
  | load | store | dpq | dpo | push | pop | signal
  deriving DecidableEq, Repr

/-- The straps `CB_PRESENT[k]` (R34): whether request channel `k` is connected. -/
structure Channels where
  load   : Bool
  store  : Bool
  dpq    : Bool
  dpo    : Bool
  push   : Bool
  pop    : Bool
  signal : Bool
  deriving DecidableEq, Repr

/-- The parameters of R8 that are constant while the block runs.
`ACTION_FAILS`, `SIGNAL_EFFECT`, `PORTS` and the segment table are fields of the machine's state. -/
structure Config where
  /-- `MEM_SIZE`: bytes in the memory store (R50). -/
  memSize     : Nat
  /-- `CB_PRESENT[k]` (R34). -/
  cbPresent   : Channels
  /-- `DECODE_TABLE[op]` is bit `op` (R34, R83); the two opcodes with no handler stay so whatever their bit. -/
  decodeTable : BitVec 16
  /-- `HALT_ON_FAULT` (R211). -/
  haltOnFault : Bool
  /-- `SIGNAL_VALID(w)` holds of exactly the words listed (R187). -/
  signalValid : List Word
  /-- `NEW_Q_DEPTH`: capacity of the "new" queue (R204; entry 11). -/
  newQDepth   : Nat
  /-- `ONGOING_Q_DEPTH`: capacity of the "ongoing" queue; none is the default, the number of ports (R214;
  entry 11). -/
  ongoingQDepth : Option Nat
  deriving DecidableEq, Repr

/-- The defaults of R8. `MEM_SIZE` is open there: DESIGN CHOICE, unsafe (entry 2). -/
def Config.default : Config where
  memSize     := 196608
  cbPresent   := ⟨true, true, true, true, true, true, true⟩
  decodeTable := 0x9FFF
  haltOnFault := true
  signalValid := []
  newQDepth   := 1
  ongoingQDepth := none

/-- A segment of the memory store: base offset and length in bytes (R33). -/
structure Segment where
  base : Nat
  len  : Nat
  deriving DecidableEq, Repr

/-- The segment table `CS`, `DS`, `SS` (R33). -/
structure SegTable where
  cs : Segment
  ds : Segment
  ss : Segment
  deriving DecidableEq, Repr

/-- The segment table of the machine at reset: three full 16-bit spaces one after the other.
The spec leaves it open (R8): DESIGN CHOICE, unsafe (entry 2). -/
def SegTable.default : SegTable where
  cs := ⟨0, 65536⟩
  ds := ⟨65536, 65536⟩
  ss := ⟨131072, 65536⟩

end Sys2Proof
end

