-- ==== Sys2Proof/Machine/State.lean ====
section
/-! DEFINITION. The machine's state as plain data (10_state.md, 45_action_scheduler.md, 46_device_port.md), its
value after reset, and the reasons a step can stop. -/

namespace Sys2Proof.Machine

/-- The fault kinds of R271, each written into `FAULT` by `SetFault`; none of them stops the model. -/
inductive FaultKind where
  | hcf | res | algn | seg | ido | ini | spv | div | sof | suf | sig
  deriving DecidableEq, Repr

/-- The six properties of a port that `DPQ` asks for, in the order of R183. -/
inductive QueryKind where
  | connected | readable | writeable | exhausted | busy | controlledByProgram
  deriving DecidableEq, Repr

/-- Direction of a mailbox transfer: `read` is mailbox to program (R92). -/
inductive Direction where
  | read | write
  deriving DecidableEq, Repr

/-- The fields of a `Transfer` action (R200). `addr` is the next data-segment address, `remaining` the bytes still
to move once `started`. -/
structure Transfer where
  port      : Word
  dir       : Direction
  indirect  : Bool
  word      : Word
  addr      : Word
  len       : Word
  started   : Bool
  remaining : Nat
  deriving DecidableEq, Repr

/-- The four arguments of a raised signal (R186, R188). -/
structure SignalCall where
  arg0 : Word
  arg1 : Word
  arg2 : Word
  arg3 : Word
  deriving DecidableEq, Repr

/-- An Action (R200). -/
inductive Action where
  | load (addr : Word) (reg : Reg)
  | store (addr word : Word)
  | push (mask : BitVec 4)
  | pop (mask : BitVec 4)
  | query (port : Word) (kind : QueryKind)
  | relinquish (port : Word)
  | transfer (t : Transfer)
  | signal (call : SignalCall)
  deriving DecidableEq, Repr

/-- A mailbox: a byte FIFO of fixed capacity, oldest byte first (R231). -/
structure Mailbox where
  cap   : Nat
  bytes : List Byte
  deriving DecidableEq, Repr

/-- Who controls a mailbox (R230). -/
inductive Controller where
  | device | program
  deriving DecidableEq, Repr

/-- A connected device, opaque but for its transfer speed in bytes per cycle, 0 meaning unlimited (R232). -/
structure Device where
  speed : Nat
  deriving DecidableEq, Repr

/-- A device port (R230). -/
structure Port where
  addr            : Word
  mailbox         : Option Mailbox
  controller      : Controller
  busy            : Bool
  handoffReadable : Bool
  device          : Option Device
  deriving DecidableEq, Repr

/-- What a device may attempt on its own port (R240). -/
inductive DeviceMove where
  /-- `DeviceAllocate(size)` (R241). -/
  | allocate (size : Nat)
  /-- `DeviceDeallocate()` (R242). -/
  | deallocate
  /-- `DeviceRelinquish()` (R243). -/
  | relinquish
  /-- Append a byte to the ring buffer (R244). -/
  | push (byte : Byte)
  /-- Take the oldest byte of the ring buffer (R244). -/
  | pop
  deriving DecidableEq, Repr

/-- What `SIGNAL_EFFECT` may do to platform state: never to the block's registers, memory segments or queues (R187;
entry 5). -/
inductive PlatformMove where
  /-- The device on a port attempts an operation. -/
  | device (port : Word) (move : DeviceMove)
  /-- The platform writes a byte of the store that lies in no segment. -/
  | storeByte (addr : Nat) (byte : Byte)
  deriving DecidableEq, Repr

/-- A move of the environment in the gap between two cycles: a device on its port (R240), or the host (R279, R310 to
R312; entries 6 and 16). -/
inductive EnvMove where
  /-- The device on a port attempts an operation (R240). -/
  | device (port : Word) (move : DeviceMove)
  /-- The host clears `FAULT` (R279). -/
  | hostClearFault
  /-- The host rewrites `PC` (R279). -/
  | hostWritePc (value : Word)
  /-- The host resets the block (R310); with `ports` it re-initialises every port too (R311). -/
  | hostReset (ports : Bool)
  /-- The host loads a segment table and a memory image while it holds reset, then releases it (R312, R310). -/
  | hostLoad (segs : SegTable) (image : List Host.Cell)
  deriving DecidableEq, Repr

/-- The four index-addressable registers (R21). -/
structure Regs where
  r0 : Word
  r1 : Word
  lr : Word
  pc : Word
  deriving DecidableEq, Repr

/-- Everything the spec gives the machine (R20), the parameters of R8, and five fields of the model's own. -/
structure State where
  /-- `R0`, `R1`, `LR`, `PC` (R21 to R24). -/
  regs            : Regs
  /-- Status register: bit 0 Zero, bit 1 Carry (R25). -/
  sr              : Word
  /-- Instruction register (R27). -/
  ir              : Word
  /-- Stack pointer, a byte offset into the stack segment (R28). -/
  sp              : Word
  /-- Fault register: kind in bits 15:12, argument in bits 11:0 (R29). -/
  fault           : Word
  /-- The per-cycle write latch of `FAULT` (R30). -/
  faultWritten    : Bool
  /-- The "new" queue, head first (R31). -/
  newQ            : List Action
  /-- The "ongoing" queue, head first (R32). -/
  ongoing         : List Action
  /-- The segment table (R33). -/
  segs            : SegTable
  /-- The memory store: the bytes that are not zero, addresses strictly rising (R50; entry 1). -/
  mem             : List Host.Cell
  /-- `PORTS`, one entry for each port address (R230). -/
  ports           : List Port
  /-- The parameters of R8. No step writes them. -/
  cfg             : Config
  /-- Model's own: the signals handed to the platform, oldest first (R189; entry 5). -/
  signals         : List SignalCall
  /-- Model's own: what `SIGNAL_EFFECT` does, one list of moves for each coming accepted signal; empty means nothing
  (R187; entry 5). -/
  signalEffects   : List (List PlatformMove)
  /-- Model's own: the ports whose device was told that an operation it attempted failed, oldest first (R240;
  entry 21). -/
  deviceFailures  : List Word
  /-- Model's own: pending answers of `ACTION_FAILS`, one for each coming resolution; empty means never (R207;
  entry 4). -/
  resolverAnswers : List Bool
  /-- Model's own: the environment's pending moves, one list for each coming gap between cycles (R240; entry 6). -/
  env             : List (List EnvMove)
  deriving DecidableEq, Repr

/-- The machine stops. The only reason is one the rules leave no room for. -/
inductive Fault where
  /-- Raised by the fetch sequencer when the memory store answers failure for the word at `CS.base + PC` (R50), for
  which the spec gives no effect. Safe. `step` never answers it: a segment table that R53 admits lies inside the
  store, and `step` refuses any other. -/
  | storeFailure (addr : Nat)
  deriving DecidableEq, Repr

/-- The model gives no meaning. -/
inductive Refusal where
  /-- An instruction without a meaning in `exec`; no arm answers it. Safe. -/
  | notModelled (mnemonic : String)
  /-- The execute phase returned `attempted = false`: the request channel `k` is not connected. "A model treats
  `attempted = false` as a refusal" (R208). Raised by the meanings of `LD`, `ST`, `PUSH`, `POP`, `DPQ`, `DPO` and
  `SIG`. Safe. -/
  | notAttempted (k : Channel)
  /-- The segment table breaks a constraint of R53, "a model refuses to run it". Raised by the cycle sequencer.
  Safe. -/
  | illFormedSegments
  deriving DecidableEq, Repr

/-- The outcome of an execute phase or of a step. -/
abbrev Result := Host.Outcome State Fault Refusal

/-- `init(cfg)` of R314: everything zero and empty, over a configuration, a loaded segment table and memory, and
the ports. -/
def State.init (cfg : Config) (segs : SegTable) (mem : List Host.Cell) (ports : List Port) : State where
  regs            := ⟨0, 0, 0, 0⟩
  sr              := 0
  ir              := 0
  sp              := 0
  fault           := 0
  faultWritten    := false
  newQ            := []
  ongoing         := []
  segs            := segs
  mem             := mem
  ports           := ports
  cfg             := cfg
  signals         := []
  signalEffects   := []
  deviceFailures  := []
  resolverAnswers := []
  env             := []

/-- The machine right after reset (R39, R310), over the default parameters of R8, an empty memory list and no
port. -/
def State.reset : State :=
  State.init Config.default SegTable.default [] []

end Sys2Proof.Machine
end

