-- ==== Sys2Proof/Machine/Ops.lean ====
section
/-! DEFINITION. The named operations over memory, registers, the fault register and the queues. -/

namespace Sys2Proof.Machine

/-! ### The memory store (R50, R51) -/

/-- What a byte that memory does not list reads as. The spec leaves the contents of memory at reset to the host
(R312): DESIGN CHOICE, unsafe (entry 1). -/
def unlistedByte : Byte := 0

/-- The byte at an absolute address. -/
def Memory.read : List Host.Cell → Nat → Byte
  | [], _ => unlistedByte
  | c :: rest, a => if c.1 = a then c.2 else Memory.read rest a

/-- A new entry at its place among rising addresses. -/
def Memory.insert (a : Nat) (v : Byte) : List Host.Cell → List Host.Cell
  | [] => [(a, v)]
  | c :: rest => if a < c.1 then (a, v) :: c :: rest else c :: Memory.insert a v rest

/-- Write one byte; a value that an unlisted address reads as leaves no entry. -/
def Memory.write (m : List Host.Cell) (a : Nat) (v : Byte) : List Host.Cell :=
  let others := m.filter (fun c => c.1 != a)
  if v = unlistedByte then others else Memory.insert a v others

/-- The canonical form: addresses strictly rising, no entry equal to what an unlisted address reads as. -/
abbrev Memory.wf (m : List Host.Cell) : Prop :=
  m.Pairwise (fun c d => c.1 < d.1) ∧ ∀ c ∈ m, c.2 ≠ unlistedByte

/-- `MemRead(a, 2)`: little-endian (R51, R54). -/
def Memory.readWord (m : List Host.Cell) (a : Nat) : Word :=
  Memory.read m (a + 1) ++ Memory.read m a

/-- `MemWrite(a, 2, v)`: little-endian (R51, R54). -/
def Memory.writeWord (m : List Host.Cell) (a : Nat) (v : Word) : List Host.Cell :=
  Memory.write (Memory.write m a (v.extractLsb' 0 8)) (a + 1) (v.extractLsb' 8 8)

/-- The bytes at `n` consecutive addresses, lowest first. -/
def Memory.readBytes (m : List Host.Cell) (a : Nat) : Nat → List Byte
  | 0 => []
  | n + 1 => Memory.read m a :: Memory.readBytes m (a + 1) n

/-- Write bytes at consecutive addresses, lowest first. -/
def Memory.writeBytes (m : List Host.Cell) (a : Nat) : List Byte → List Host.Cell
  | [] => m
  | v :: rest => Memory.writeBytes (Memory.write m a v) (a + 1) rest

/-- The byte at an absolute address of the store. -/
def State.readByte (s : State) (a : Nat) : Byte :=
  Memory.read s.mem a

/-- The word at an absolute address of the store. -/
def State.readWord (s : State) (a : Nat) : Word :=
  Memory.readWord s.mem a

/-- Store a word at an absolute address. -/
def State.writeWord (s : State) (a : Nat) (v : Word) : State :=
  { s with mem := Memory.writeWord s.mem a v }

/-- Store bytes at consecutive absolute addresses. -/
def State.writeBytes (s : State) (a : Nat) (vs : List Byte) : State :=
  { s with mem := Memory.writeBytes s.mem a vs }

/-- The store answers success for each of the `n` bytes at `a` (R50); where there is none, no access is made and none
fails. -/
def State.inStore (s : State) (a n : Nat) : Bool :=
  decide (n = 0 ∨ a + n ≤ s.cfg.memSize)

/-- The bounds check of R56: `addr + n <= S.len` on mathematical integers. -/
def inSegment (seg : Segment) (addr n : Nat) : Bool :=
  decide (addr + n ≤ seg.len)

/-- A word address with its low bit set (R55). -/
def isOdd (a : Word) : Bool :=
  a.getLsbD 0

/-! ### The segment table (R53) -/

/-- One segment: even base and length, at most 65536 bytes, inside the store. -/
def segmentOk (memSize : Nat) (g : Segment) : Bool :=
  decide (g.base % 2 = 0) && decide (g.len % 2 = 0) && decide (g.len ≤ 65536) && decide (g.base + g.len ≤ memSize)

/-- The ranges `[base, base + len)` of two segments have no address in common. -/
def segmentsDisjoint (g h : Segment) : Bool :=
  decide (g.len = 0) || decide (h.len = 0) || decide (g.base + g.len ≤ h.base) || decide (h.base + h.len ≤ g.base)

/-- The constraints of R53 on a segment table. -/
def segTableOk (memSize : Nat) (t : SegTable) : Bool :=
  segmentOk memSize t.cs && segmentOk memSize t.ds && segmentOk memSize t.ss &&
    segmentsDisjoint t.cs t.ds && segmentsDisjoint t.cs t.ss && segmentsDisjoint t.ds t.ss

/-- The machine's segment table meets R53. -/
def State.segsOk (s : State) : Bool :=
  segTableOk s.cfg.memSize s.segs

/-- The range `[base, base + len)` of a segment. -/
def inRange (g : Segment) (a : Nat) : Bool :=
  decide (g.base ≤ a) && decide (a < g.base + g.len)

/-- An absolute address inside one of the three segments. -/
def State.inSegments (s : State) (a : Nat) : Bool :=
  inRange s.segs.cs a || inRange s.segs.ds a || inRange s.segs.ss a

/-! ### Registers (R11, R21) -/

/-- The register with an index. -/
def Regs.get (r : Regs) : Reg → Word
  | .r0 => r.r0
  | .r1 => r.r1
  | .lr => r.lr
  | .pc => r.pc

/-- Write the register with an index; none of the four is hard-wired (R21). -/
def Regs.set (r : Regs) (i : Reg) (v : Word) : Regs :=
  match i with
  | .r0 => { r with r0 := v }
  | .r1 => { r with r1 := v }
  | .lr => { r with lr := v }
  | .pc => { r with pc := v }

/-- `x[i]` (R11). -/
def State.x (s : State) (i : Reg) : Word :=
  s.regs.get i

/-- `x[i] <- v` (R11). -/
def State.setX (s : State) (i : Reg) (v : Word) : State :=
  { s with regs := s.regs.set i v }

/-- `IR <- w` (R27). -/
def State.setIr (s : State) (w : Word) : State :=
  { s with ir := w }

/-- The general register a `MUL` or `DIV` destination field names (R86). -/
def generalReg : GenReg → Reg
  | .r0 => .r0
  | .r1 => .r1

/-- The other general register, the second operand of `MUL` and `DIV` in register form (R86). -/
def otherGeneralReg : GenReg → Reg
  | .r0 => .r1
  | .r1 => .r0

/-! ### Taking a fault, and clearing it (R274, R279) -/

/-- The kind codes of R271. -/
def FaultKind.code : FaultKind → BitVec 4
  | .hcf => 1
  | .res => 2
  | .algn => 3
  | .seg => 4
  | .ido => 5
  | .ini => 6
  | .spv => 7
  | .div => 8
  | .sof => 9
  | .suf => 10
  | .sig => 11

/-- A fault word: kind in bits 15:12, argument in bits 11:0 (R29). -/
def faultWord (k : FaultKind) (arg : BitVec 12) : Word :=
  k.code ++ arg

/-- `SetFault(K, arg)`: the first fault of a cycle stands, later ones have no effect (R274). Nothing but `FAULT` and
its latch changes (R277). -/
def State.setFault (s : State) (k : FaultKind) (arg : BitVec 12) : State :=
  { s with
    fault := if s.faultWritten then s.fault else faultWord k arg
    faultWritten := true }

/-- `raise K(arg)` in an instruction rule: set the fault and end the execute phase (R13, R275). -/
def State.raise (s : State) (k : FaultKind) (arg : BitVec 12) : Result :=
  .next (s.setFault k arg)

/-- The host's clear operation, the only way back from a fault but reset (R278, R279). -/
def State.clearFault (s : State) : State :=
  { s with fault := 0, faultWritten := false }

/-- `FAULT.kind = FAULT[15:12]` (R29). -/
def State.faultKind (s : State) : BitVec 4 :=
  s.fault.extractLsb' 12 4

/-- `FAULT.arg = FAULT[11:0]` (R29). -/
def State.faultArg (s : State) : BitVec 12 :=
  s.fault.extractLsb' 0 12

/-- The start of a cycle: `fault_written <- 0` (R210 step 1). -/
def State.openFaultLatch (s : State) : State :=
  { s with faultWritten := false }

/-! ### Request channels and the new queue (R14, R203, R208) -/

/-- `CB_PRESENT[k]` (R34). -/
def connected (c : Channels) : Channel → Bool
  | .load => c.load
  | .store => c.store
  | .dpq => c.dpq
  | .dpo => c.dpo
  | .push => c.push
  | .pop => c.pop
  | .signal => c.signal

/-- `CB_PRESENT[k]` of the machine's configuration. -/
def State.channelPresent (s : State) (k : Channel) : Bool :=
  connected s.cfg.cbPresent k

/-- `enqueue a`: append to the tail of the new queue (R203). -/
def State.enqueue (s : State) (a : Action) : State :=
  { s with newQ := s.newQ ++ [a] }

/-- `require CB_PRESENT[k]`: without the channel the execution is not attempted (R14, R208). -/
def require (k : Channel) (s : State) (body : Result) : Result :=
  if s.channelPresent k then body else .refused (.notAttempted k)

/-- The reserved-encoding check: `RES(0)` and nothing else, or the instruction (R81 steps 4 and 5, R97). -/
def guardReserved (reserved : Bool) (s : State) (body : Result) : Result :=
  if reserved then s.raise .res 0 else body

/-- The execute phase of an instruction that delegates: channel, reserved encodings, then `enqueue a` (R81, R203). -/
def request (k : Channel) (reserved : Bool) (a : Action) (s : State) : Result :=
  require k s (guardReserved reserved s (.next (s.enqueue a)))

/-! ### Ports (R230) -/

/-- `PORTS.lookup(port)` (R182). -/
def State.lookupPort (s : State) (addr : Word) : Option Port :=
  s.ports.find? (fun p => p.addr == addr)

/-- Change the port with an address. -/
def State.updatePort (s : State) (addr : Word) (f : Port → Port) : State :=
  { s with ports := s.ports.map (fun p => if p.addr == addr then f p else p) }

/-- Bytes a mailbox holds (R231). -/
def Mailbox.used (m : Mailbox) : Nat :=
  m.bytes.length

/-- Room left in a mailbox (R231). -/
def Mailbox.free (m : Mailbox) : Nat :=
  m.cap - m.bytes.length

end Sys2Proof.Machine
end

