-- ==== Sys2Proof/Machine/Flags.lean ====
section
/-! DEFINITION. The status register: its two flags and every flag computation of R26. -/

namespace Sys2Proof.Machine

/-- `flags(z, c)`: the whole register, bits 15:2 zero (R11, R25). -/
def flagsWord (z c : Bool) : Word :=
  (if c then 2 else 0) ||| (if z then 1 else 0)

/-- `SR <- flags(z, c)` (R11). -/
def State.setFlags (s : State) (z c : Bool) : State :=
  { s with sr := flagsWord z c }

/-- `SR.Z` (R25). -/
def State.flagZ (s : State) : Bool :=
  s.sr.getLsbD 0

/-- `SR.C` (R25). -/
def State.flagC (s : State) : Bool :=
  s.sr.getLsbD 1

/-- `Z` of a result word: the word is 0. -/
def isZero (v : Word) : Bool :=
  v == 0

/-- Carry of `ADD`: the destination after is below the destination before (R111). -/
def addCarry (old new : Word) : Bool :=
  decide (new.toNat < old.toNat)

/-- Carry (borrow) of `SUB`: the destination after is above the destination before (R112). -/
def subBorrow (old new : Word) : Bool :=
  decide (old.toNat < new.toNat)

/-- The flags of `MUL`: `Z` iff the whole product is 0, `C` iff it does not fit 16 bits (R114). -/
def State.setMulFlags (s : State) (product : Nat) : State :=
  s.setFlags (product == 0) (decide (65536 ≤ product))

/-- The flags of `DIV`: `Z` iff the quotient is 0, `C` iff the remainder is not (R116). -/
def State.setDivFlags (s : State) (quotient remainder : Nat) : State :=
  s.setFlags (quotient == 0) (remainder != 0)

/-- The flags of a value moved or computed without a carry: `ASGN`, `BITW`, Load, Store (R131, R138, R163, R164). -/
def State.setValueFlags (s : State) (v : Word) : State :=
  s.setFlags (isZero v) false

/-- Both flags clear: Push, Pop, Relinquish, accepted Signal (R168, R169, R249, R189). -/
def State.clearFlags (s : State) : State :=
  s.setFlags false false

/-- The flags of `CBX`: `Z` iff the branch was not taken, `C` clear (R151). -/
def State.setBranchFlags (s : State) (taken : Bool) : State :=
  s.setFlags (!taken) false

/-- The flags of a query: the answer in `Z`, inverted (R182). -/
def State.setQueryFlags (s : State) (answer : Bool) : State :=
  s.setFlags (!answer) false

/-- The flags of a direct transfer from the amount left afterwards: bytes for a read, room for a write (R250,
R251). -/
def State.setDirectFlags (s : State) (left : Nat) : State :=
  s.setFlags (left == 0) (decide (0 < left))

/-- The first-cycle flags of an indirect transfer (R254). -/
def State.setIndirectFlags (s : State) (total avail : Nat) : State :=
  s.setFlags (total == avail) (decide (total < avail))

end Sys2Proof.Machine
end

