-- ==== Sys2Proof/Machine/Operands.lean ====
section
/-! DEFINITION. Every operand form: literals, the PC scaling, shift amounts, the one-bit mask, register masks, and
the ALU functions over them. -/

namespace Sys2Proof.Machine

/-- An unsigned 8-bit literal (R85, R86). -/
def zext16 (l : BitVec 8) : Word :=
  l.zeroExtend 16

/-- A sign-extended 8-bit literal (R10, R131). -/
def sext16 (l : BitVec 8) : Word :=
  l.signExtend 16

/-- The operand of `ADD` and `SUB` counts words when the destination is `PC`: doubled, reduced mod 65536 (R111). -/
def scaleForPc (b : Reg) (opnd : Word) : Word :=
  match b with
  | .pc => opnd + opnd
  | .r0 | .r1 | .lr => opnd

/-- The relative target of `CBX`: `PC + 2 * signed(F, 8)` mod 65536 (R151). -/
def relativeTarget (pc : Word) (f : BitVec 8) : Word :=
  pc + (sext16 f + sext16 f)

/-- The amount of a register-form shift: the low five bits of the source, the others ignored (R87). -/
def shiftField (v : Word) : BitVec 5 :=
  v.extractLsb' 0 5

/-- `shl(v, k)` (R132). -/
def shl (v : Word) (k : Nat) : Word :=
  BitVec.ofNat 16 (v.toNat * 2 ^ k)

/-- `out_l(v, k)`: the bits that left through bit 15 (R132). -/
def outLeft (v : Word) (k : Nat) : Nat :=
  v.toNat / 2 ^ (16 - k)

/-- `shr(v, k)`, logical; `k` up to 16 (R132). -/
def shr (v : Word) (k : Nat) : Word :=
  BitVec.ofNat 16 (v.toNat / 2 ^ k)

/-- `out_r(v, k)`: the bits that left through bit 0 (R132). -/
def outRight (v : Word) (k : Nat) : Nat :=
  v.toNat % 2 ^ k

/-- `SHFT` on a value: the amount is `signed(m, 5)`, positive left, negative right; the result and the carry
(R134). -/
def shiftWord (v : Word) (m : BitVec 5) : Word × Bool :=
  if 0 < m.toInt then (shl v m.toInt.toNat, outLeft v m.toInt.toNat != 0)
  else if m.toInt < 0 then (shr v (-m.toInt).toNat, outRight v (-m.toInt).toNat != 0)
  else (v, false)

/-- The one-bit mask of `BITW`, inverted if `f` (R136). -/
def bitMask (f : Bool) (k : BitVec 4) : Word :=
  if f then ~~~(1#16 <<< k.toNat) else 1#16 <<< k.toNat

/-- The registers a 4-bit mask names, in ascending index order (R82, R167). -/
def maskRegs (m : BitVec 4) : List Reg :=
  (if m.getLsbD 0 then [Reg.r0] else []) ++ (if m.getLsbD 1 then [Reg.r1] else []) ++
    (if m.getLsbD 2 then [Reg.lr] else []) ++ (if m.getLsbD 3 then [Reg.pc] else [])

/-- The query a `DPQ` kind field names; 6 and 7 are reserved values (R91, R98). -/
def queryKind (q : BitVec 3) : Option QueryKind :=
  match q.getLsbD 2, q.getLsbD 1, q.getLsbD 0 with
  | false, false, false => some .connected
  | false, false, true => some .readable
  | false, true, false => some .writeable
  | false, true, true => some .exhausted
  | true, false, false => some .busy
  | true, false, true => some .controlledByProgram
  | true, true, _ => none

end Sys2Proof.Machine
end

