-- ==== Sys2Proof/Machine/Arith.lean ====
section
/-! DEFINITION. `ADD`, `SUB`, `MUL`, `DIV` (40_arithmetic.md). -/

namespace Sys2Proof.Machine

/-- `ADD` once its operand is known (R111). -/
def addTo (b : Reg) (opnd : Word) (s : State) : State :=
  let old := s.x b
  let new := old + scaleForPc b opnd
  (s.setX b new).setFlags (isZero new) (addCarry old new)

/-- `SUB` once its operand is known (R112). -/
def subFrom (b : Reg) (opnd : Word) (s : State) : State :=
  let old := s.x b
  let new := old - scaleForPc b opnd
  (s.setX b new).setFlags (isZero new) (subBorrow old new)

/-- `MUL` once its multiplier is known: low word to the destination, high word to `LR` (R114). -/
def mulBy (dest : Reg) (m : Word) (s : State) : State :=
  let p := (s.x dest).toNat * m.toNat
  ((s.setX dest (BitVec.ofNat 16 (p % 65536))).setX .lr (BitVec.ofNat 16 (p / 65536))).setMulFlags p

/-- `DIV` once its divisor is known: `DIV(0)` for a zero divisor, else quotient to the destination and remainder to
`LR` (R116). -/
def divBy (dest : Reg) (d : Word) (s : State) : Result :=
  if d = 0 then s.raise .div 0
  else
    let q := (s.x dest).toNat / d.toNat
    let r := (s.x dest).toNat % d.toNat
    .next (((s.setX dest (BitVec.ofNat 16 q)).setX .lr (BitVec.ofNat 16 r)).setDivFlags q r)

/-- `ADD Rd, Rs` (R111). -/
def execAddR (a b : Reg) (v : BitVec 8) (s : State) : Result :=
  guardReserved (v != 0) s (.next (addTo b (s.x a) s))

/-- `ADD Rd, #n` (R111). -/
def execAddL (b : Reg) (l : BitVec 8) (s : State) : Result :=
  .next (addTo b (zext16 l) s)

/-- `SUB Rd, Rs` (R112). -/
def execSubR (a b : Reg) (v : BitVec 8) (s : State) : Result :=
  guardReserved (v != 0) s (.next (subFrom b (s.x a) s))

/-- `SUB Rd, #n` (R112). -/
def execSubL (b : Reg) (l : BitVec 8) (s : State) : Result :=
  .next (subFrom b (zext16 l) s)

/-- `MUL Rd` (R114). -/
def execMulR (d : GenReg) (v : BitVec 10) (s : State) : Result :=
  guardReserved (v != 0) s (.next (mulBy (generalReg d) (s.x (otherGeneralReg d)) s))

/-- `MUL Rd, #n` (R114). -/
def execMulL (d : GenReg) (v : BitVec 2) (l : BitVec 8) (s : State) : Result :=
  guardReserved (v != 0) s (.next (mulBy (generalReg d) (zext16 l) s))

/-- `DIV Rd` (R116). -/
def execDivR (d : GenReg) (v : BitVec 10) (s : State) : Result :=
  guardReserved (v != 0) s (divBy (generalReg d) (s.x (otherGeneralReg d)) s)

/-- `DIV Rd, #n` (R116). -/
def execDivL (d : GenReg) (v : BitVec 2) (l : BitVec 8) (s : State) : Result :=
  guardReserved (v != 0) s (divBy (generalReg d) (zext16 l) s)

end Sys2Proof.Machine
end

