-- ==== Sys2Proof/Machine/Assign.lean ====
section
/-! DEFINITION. `ASGN`, `SHFT`, `BITW` (41_assign_shift_bitwise.md). -/

namespace Sys2Proof.Machine

/-- A value written to the destination with `Z` from the value and `C` clear: `ASGN` and `BITW` (R131, R138). -/
def writeValue (b : Reg) (v : Word) (s : State) : State :=
  (s.setX b v).setValueFlags v

/-- `SHFT` once its amount is known (R134). -/
def shiftBy (b : Reg) (m : BitVec 5) (s : State) : State :=
  let r := shiftWord (s.x b) m
  (s.setX b r.1).setFlags (isZero r.1) r.2

/-- `ASGN Rd, Rs` (R131). -/
def execAsgnR (a b : Reg) (v : BitVec 8) (s : State) : Result :=
  guardReserved (v != 0) s (.next (writeValue b (s.x a) s))

/-- `ASGN Rd, #n`; a literal to `PC` is reserved (R131). -/
def execAsgnL (b : Reg) (l : BitVec 8) (s : State) : Result :=
  guardReserved (b == .pc) s (.next (writeValue b (sext16 l) s))

/-- `SHFT Rd, Rs` (R134). -/
def execShftR (a b : Reg) (v : BitVec 8) (s : State) : Result :=
  guardReserved (v != 0) s (.next (shiftBy b (shiftField (s.x a)) s))

/-- `SHFT Rd, #m` (R134). -/
def execShftL (b : Reg) (v : BitVec 3) (m : BitVec 5) (s : State) : Result :=
  guardReserved (v != 0) s (.next (shiftBy b m s))

/-- `AND Rd, Rs` (R138). -/
def execAndR (a b : Reg) (v : BitVec 6) (s : State) : Result :=
  guardReserved (v != 0) s (.next (writeValue b (s.x b &&& s.x a) s))

/-- `AND Rd, bit k` or its inverted mask (R138). -/
def execAndM (b : Reg) (f v : Bool) (k : BitVec 4) (s : State) : Result :=
  guardReserved v s (.next (writeValue b (s.x b &&& bitMask f k) s))

/-- `OR Rd, Rs` (R138). -/
def execOrR (a b : Reg) (v : BitVec 6) (s : State) : Result :=
  guardReserved (v != 0) s (.next (writeValue b (s.x b ||| s.x a) s))

/-- `OR Rd, bit k` or its inverted mask (R138). -/
def execOrM (b : Reg) (f v : Bool) (k : BitVec 4) (s : State) : Result :=
  guardReserved v s (.next (writeValue b (s.x b ||| bitMask f k) s))

/-- `XOR Rd, Rs` (R138). -/
def execXorR (a b : Reg) (v : BitVec 6) (s : State) : Result :=
  guardReserved (v != 0) s (.next (writeValue b (s.x b ^^^ s.x a) s))

/-- `XOR Rd, bit k` or its inverted mask (R138). -/
def execXorM (b : Reg) (f v : Bool) (k : BitVec 4) (s : State) : Result :=
  guardReserved v s (.next (writeValue b (s.x b ^^^ bitMask f k) s))

/-- `NOT Rd`; the `A` field is not used (R138). -/
def execNot (b : Reg) (v : BitVec 6) (s : State) : Result :=
  guardReserved (v != 0) s (.next (writeValue b (~~~(s.x b)) s))

end Sys2Proof.Machine
end

