-- ==== Sys2Proof/Machine/Branch.lean ====
section
/-! DEFINITION. `CBX` (42_branch.md). -/

namespace Sys2Proof.Machine

/-- The branch condition: the OR of the selected flags as they are at entry (R151, R152). -/
def branchTaken (z c : Bool) (s : State) : Bool :=
  (z && s.flagZ) || (c && s.flagC)

/-- `PC` to the target if the condition holds, and the flags of a branch either way (R151). -/
def branchTo (z c : Bool) (target : Word) (s : State) : State :=
  (if branchTaken z c s then s.setX .pc target else s).setBranchFlags (branchTaken z c s)

/-- `CBX cc, LR` (R151). -/
def execCbxLr (z c : Bool) (v : BitVec 9) (s : State) : Result :=
  guardReserved (v != 0) s (.next (branchTo z c (s.x .lr) s))

/-- `CBX cc, #f` (R151). -/
def execCbxRel (z c v : Bool) (f : BitVec 8) (s : State) : Result :=
  guardReserved v s (.next (branchTo z c (relativeTarget (s.x .pc) f) s))

end Sys2Proof.Machine
end

