-- ==== Sys2Proof/Machine/MemStack.lean ====
section
/-! DEFINITION. `LDST` and `STK`: their execute phases and their action handlers (43_memory_stack.md). -/

namespace Sys2Proof.Machine

/-- A handler's result (R201): finished, kept with its own fields updated, or not processable. -/
inductive Resolution where
  | complete
  | ongoing (a : Action)
  | failed
  deriving DecidableEq, Repr

/-- `raise K(arg)` in a handler: set the fault and end with result *complete* (R13, R206). -/
def State.raiseInHandler (s : State) (k : FaultKind) (arg : BitVec 12) : State × Resolution :=
  (s.setFault k arg, .complete)

/-- `LD Rd`, execute phase: the address is `LR` (R160, R161). -/
def execLd (r : Reg) (v : BitVec 9) (s : State) : Result :=
  request .load (v != 0) (.load (s.x .lr) r) s

/-- `ST Rs`, execute phase: address and word are captured here (R161). -/
def execSt (r : Reg) (v : BitVec 9) (s : State) : Result :=
  request .store (v != 0) (.store (s.x .lr) (s.x r)) s

/-- `POP`, execute phase (R166). -/
def execPop (v : BitVec 7) (m : BitVec 4) (s : State) : Result :=
  request .pop (v != 0 || m == 0) (.pop m) s

/-- `PUSH`, execute phase (R166). -/
def execPush (v : BitVec 7) (m : BitVec 4) (s : State) : Result :=
  request .push (v != 0 || m == 0) (.push m) s

/-- The absolute address of a data-segment address (R58). -/
def State.dataAddr (s : State) (addr : Word) : Nat :=
  s.segs.ds.base + addr.toNat

/-- The absolute address of a stack-segment offset (R58). -/
def State.stackAddr (s : State) (off : Nat) : Nat :=
  s.segs.ss.base + off

/-- The absolute address of a code-segment offset (R58). -/
def State.codeAddr (s : State) (off : Word) : Nat :=
  s.segs.cs.base + off.toNat

/-- Load handler (R163). A store that answers failure for an address the bounds check admitted makes the action
*failed* (R51, R207; entry 13). -/
def handleLoad (addr : Word) (r : Reg) (s : State) : State × Resolution :=
  if isOdd addr then s.raiseInHandler .algn 0
  else if !inSegment s.segs.ds addr.toNat 2 then s.raiseInHandler .seg 0
  else if !s.inStore (s.dataAddr addr) 2 then (s, .failed)
  else
    let w := s.readWord (s.dataAddr addr)
    ((s.setX r w).setValueFlags w, .complete)

/-- Store handler (R164). -/
def handleStore (addr word : Word) (s : State) : State × Resolution :=
  if isOdd addr then s.raiseInHandler .algn 0
  else if !inSegment s.segs.ds addr.toNat 2 then s.raiseInHandler .seg 0
  else if !s.inStore (s.dataAddr addr) 2 then (s, .failed)
  else ((s.writeWord (s.dataAddr addr) word).setValueFlags word, .complete)

/-- Registers written to consecutive stack words, in the order given (R167, R168). -/
def pushWords : List Reg → Nat → State → State
  | [], _, s => s
  | r :: rest, off, s => pushWords rest (off + 2) (s.writeWord (s.stackAddr off) (s.x r))

/-- Consecutive stack words read into registers, in the order given (R167, R169). -/
def popWords : List Reg → Nat → State → State
  | [], _, s => s
  | r :: rest, off, s => popWords rest (off + 2) (s.setX r (s.readWord (s.stackAddr off)))

/-- `SP <- v`, reduced mod 65536 (R10, R28; entry 12). -/
def State.setSp (s : State) (v : Nat) : State :=
  { s with sp := BitVec.ofNat 16 v }

/-- The bytes a register mask moves: two for each register (R59, R167). -/
def maskBytes (m : BitVec 4) : Nat :=
  2 * (maskRegs m).length

/-- Push handler: all words or none (R168). -/
def handlePush (m : BitVec 4) (s : State) : State × Resolution :=
  if !inSegment s.segs.ss s.sp.toNat (maskBytes m) then s.raiseInHandler .sof 0
  else if !s.inStore (s.stackAddr s.sp.toNat) (maskBytes m) then (s, .failed)
  else (((pushWords (maskRegs m) s.sp.toNat s).setSp (s.sp.toNat + maskBytes m)).clearFlags, .complete)

/-- Pop handler: all words or none (R169). -/
def handlePop (m : BitVec 4) (s : State) : State × Resolution :=
  if s.sp.toNat < maskBytes m then s.raiseInHandler .suf 0
  else if !s.inStore (s.stackAddr (s.sp.toNat - maskBytes m)) (maskBytes m) then (s, .failed)
  else
    let off := s.sp.toNat - maskBytes m
    ((popWords (maskRegs m) off (s.setSp off)).clearFlags, .complete)

end Sys2Proof.Machine
end

