-- ==== Sys2Proof/Machine/DevicePort.lean ====
section
/-! DEFINITION. `DPQ` and `DPO`: their execute phases, the mailbox state, the action handlers, and what a device does on
its own port (44_device_signal_halt.md, 46_device_port.md). -/

namespace Sys2Proof.Machine

/-! ### Execute phases -/

/-- `DPQ #q`, execute phase (R181). -/
def execDpq (v : BitVec 9) (q : BitVec 3) (s : State) : Result :=
  require .dpq s
    (guardReserved (v != 0) s
      (match queryKind q with
        | some k => .next (s.enqueue (.query (s.x .r0) k))
        | none => s.raise .res 0))

/-- The `Transfer` action of a `DPO` form: registers captured in the execute phase (R184). -/
def transferOf (dir : Direction) (indirect : Bool) (s : State) : Transfer where
  port      := s.x .r0
  dir       := dir
  indirect  := indirect
  word      := s.x .lr
  addr      := s.x .lr
  len       := s.x .r1
  started   := false
  remaining := 0

/-- `DPO RELQ`, execute phase; it has no indirect form (R184). -/
def execDpoRelq (i : Bool) (v : BitVec 9) (s : State) : Result :=
  request .dpo (v != 0 || i) (.relinquish (s.x .r0)) s

/-- `DPO RD`, execute phase (R184). -/
def execDpoRd (v : BitVec 9) (s : State) : Result :=
  request .dpo (v != 0) (.transfer (transferOf .read false s)) s

/-- `DPO WR`, execute phase (R184). -/
def execDpoWr (v : BitVec 9) (s : State) : Result :=
  request .dpo (v != 0) (.transfer (transferOf .write false s)) s

/-- `DPO RD.I`, execute phase (R184). -/
def execDpoRdI (v : BitVec 9) (s : State) : Result :=
  request .dpo (v != 0) (.transfer (transferOf .read true s)) s

/-- `DPO WR.I`, execute phase (R184). -/
def execDpoWrI (v : BitVec 9) (s : State) : Result :=
  request .dpo (v != 0) (.transfer (transferOf .write true s)) s

/-- A `DPO` word with type 0: no row of the table, so the channel check and then `RES(0)` (R81, R98). -/
def rejectDpoType0 (s : State) : Result :=
  require .dpo s (s.raise .res 0)

/-! ### The mailbox state and the predicates -/

/-- The derived state of a port's mailbox (R233). -/
inductive MailboxState where
  | unavailable | readable | writeable | exhausted
  deriving DecidableEq, Repr

/-- `state(p)` (R233). -/
def mailboxState (p : Port) : MailboxState :=
  match p.mailbox, p.controller with
  | none, _ => .unavailable
  | some _, .device => .unavailable
  | some m, .program =>
    if p.handoffReadable then (if 0 < m.used then .readable else .exhausted)
    else (if 0 < m.free then .writeable else .exhausted)

/-- The predicate of a query on the port found, if any; without a port every predicate is false (R183). -/
def queryAnswer (k : QueryKind) : Option Port → Bool
  | none => false
  | some p =>
    match k with
    | .connected => p.device.isSome
    | .readable => mailboxState p == .readable && !p.busy
    | .writeable => mailboxState p == .writeable && !p.busy
    | .exhausted => mailboxState p == .exhausted
    | .busy => p.busy
    | .controlledByProgram => p.controller == .program

/-- Query handler: no fault, nothing but `SR` changes, whatever the busy flag (R182). -/
def handleQuery (port : Word) (k : QueryKind) (s : State) : State × Resolution :=
  (s.setQueryFlags (queryAnswer k (s.lookupPort port)), .complete)

/-! ### Program-side mailbox operations -/

/-- A port with its mailbox's bytes replaced. -/
def Port.withBytes (p : Port) (bytes : List Byte) : Port :=
  { p with mailbox := p.mailbox.map (fun m => { m with bytes := bytes }) }

/-- A port with its busy flag set or cleared (R254, R256). -/
def Port.withBusy (p : Port) (b : Bool) : Port :=
  { p with busy := b }

/-- `ProgramRelinquish()`: unread bytes of a Readable hand-off are dropped, control goes to the device (R247). -/
def programRelinquish (p : Port) : Port :=
  { (if p.handoffReadable then p.withBytes [] else p) with handoffReadable := false, controller := .device }

/-- Relinquish handler (R249). -/
def handleRelinquish (port : Word) (s : State) : State × Resolution :=
  match s.lookupPort port with
  | none => s.raiseInHandler .ido 0
  | some p =>
    if p.busy then s.raiseInHandler .ido 0
    else if p.controller != .program then s.raiseInHandler .ido 0
    else ((s.updatePort port programRelinquish).clearFlags, .complete)

/-- The mailbox state a transfer direction needs (R252). -/
def neededState : Direction → MailboxState
  | .read => .readable
  | .write => .writeable

/-- Admission of a transfer: the port and its mailbox, or none where R252 raises `IDO`. -/
def admission (s : State) (port : Word) (dir : Direction) : Option (Port × Mailbox) :=
  match s.lookupPort port with
  | none => none
  | some p =>
    match p.mailbox with
    | none => none
    | some m => if !p.busy && mailboxState p == neededState dir then some (p, m) else none

/-- The two bytes of a direct write, low byte first, as far as there is room (R251). -/
def directBytes (m : Mailbox) (w : Word) : List Byte :=
  ([w.extractLsb' 0 8, w.extractLsb' 8 8] : List Byte).take (min 2 m.free)

/-- Direct read handler: up to one word through `LR`, a missing second byte reads as 0 (R250). -/
def directRead (port : Word) (s : State) : State × Resolution :=
  match admission s port .read with
  | none => s.raiseInHandler .ido 0
  | some (_, m) =>
    let left := m.bytes.drop 2
    let w : Word := m.bytes.getD 1 0 ++ m.bytes.getD 0 0
    (((s.updatePort port (fun p => p.withBytes left)).setX .lr w).setDirectFlags left.length, .complete)

/-- Direct write handler: up to one word, `LR` unchanged (R251). -/
def directWrite (port word : Word) (s : State) : State × Resolution :=
  match admission s port .write with
  | none => s.raiseInHandler .ido 0
  | some (_, m) =>
    let bytes := m.bytes ++ directBytes m word
    ((s.updatePort port (fun p => p.withBytes bytes)).setDirectFlags (m.cap - bytes.length), .complete)

/-! ### The indirect transfer -/

/-- What a mailbox offers a transfer: bytes for a read, room for a write (R254, R255). -/
def available (dir : Direction) (m : Mailbox) : Nat :=
  match dir with
  | .read => m.used
  | .write => m.free

/-- The bytes of `[addr, addr + len)` inside the data segment: the clamp of R254. -/
def validLength (s : State) (addr : Word) : Nat :=
  s.segs.ds.len - addr.toNat

/-- The transfer speed of the device on a port, 0 (unlimited) without a device (R232, R255). -/
def deviceSpeed (p : Port) : Nat :=
  match p.device with
  | some d => d.speed
  | none => 0

/-- The bytes one resolution moves: throttled by the device's speed (0 unlimited), never more than the mailbox
offers (R255). -/
def chunkSize (p : Port) (m : Mailbox) (t : Transfer) : Nat :=
  min (if deviceSpeed p = 0 then t.remaining else min (deviceSpeed p) t.remaining) (available t.dir m)

/-- The mailbox's bytes after `n` bytes have moved (R255). -/
def bytesAfter (s : State) (m : Mailbox) (t : Transfer) (n : Nat) : List Byte :=
  match t.dir with
  | .read => m.bytes.drop n
  | .write => m.bytes ++ Memory.readBytes s.mem (s.dataAddr t.addr) n

/-- Memory after `n` bytes have moved, ascending addresses, mailbox order (R255). -/
def memAfter (s : State) (m : Mailbox) (t : Transfer) (n : Nat) : State :=
  match t.dir with
  | .read => s.writeBytes (s.dataAddr t.addr) (m.bytes.take n)
  | .write => s

/-- The action's own fields after `n` bytes have moved (R255). -/
def Transfer.advance (t : Transfer) (n : Nat) : Transfer :=
  { t with addr := t.addr + BitVec.ofNat 16 n, remaining := t.remaining - n }

/-- One chunk of a started indirect transfer, and its end (R255, R256); a chunk of no bytes accesses no memory. An
action whose port or mailbox is gone, or with a byte to move that the store does not hold, cannot be processed:
*failed* (R206; entry 13). -/
def moveChunk (t : Transfer) (s : State) : State × Resolution :=
  match s.lookupPort t.port with
  | none => (s, .failed)
  | some p =>
    match p.mailbox with
    | none => (s, .failed)
    | some m =>
      let n := chunkSize p m t
      if !s.inStore (s.dataAddr t.addr) n then (s, .failed)
      else
        let bytes := bytesAfter s m t n
        let t' := t.advance n
        let s' := (memAfter s m t n).updatePort t.port (fun q => q.withBytes bytes)
        if t'.remaining = 0 ∨ available t.dir { m with bytes := bytes } = 0 then
          (s'.updatePort t.port (fun q => q.withBusy false), .complete)
        else (s', .ongoing (.transfer t'))

/-- The bytes an indirect transfer will move in all: the request, clamped to the data segment and to what the
mailbox offers (R254). -/
def transferTotal (s : State) (t : Transfer) (m : Mailbox) : Nat :=
  min (min t.len.toNat (validLength s t.addr)) (available t.dir m)

/-- First resolution of an indirect transfer: admission, alignment, clamp with `SEG`, the register and flag writes,
the busy flag, then the first chunk (R252 to R255). -/
def startIndirect (t : Transfer) (s : State) : State × Resolution :=
  match admission s t.port t.dir with
  | none => s.raiseInHandler .ido 0
  | some (_, m) =>
    if isOdd t.addr then s.raiseInHandler .algn 0
    else
      let total := transferTotal s t m
      let s1 := if validLength s t.addr < t.len.toNat then s.setFault .seg 0 else s
      let s2 := (s1.setX .r1 (BitVec.ofNat 16 total)).setIndirectFlags total (available t.dir m)
      moveChunk { t with started := true, remaining := total }
        (s2.updatePort t.port (fun p => p.withBusy true))

/-- Handler of a `Transfer` (R200): the direct forms, the first resolution of an indirect one, or a later chunk. -/
def handleTransfer (t : Transfer) (s : State) : State × Resolution :=
  if t.indirect then (if t.started then moveChunk t s else startIndirect t s)
  else
    match t.dir with
    | .read => directRead t.port s
    | .write => directWrite t.port t.word s

/-! ### Device-side operations (R240 to R244) -/

/-- Bytes held by a port's mailbox, none without one (R231). -/
def Port.used (p : Port) : Nat :=
  match p.mailbox with
  | none => 0
  | some m => m.used

/-- Room in a port's mailbox, none without one (R231). -/
def Port.free (p : Port) : Nat :=
  match p.mailbox with
  | none => 0
  | some m => m.free

/-- The operations a device may perform in the state it finds: only while it controls the mailbox (R240 to R244). -/
def DeviceMove.legal (m : DeviceMove) (p : Port) : Bool :=
  p.controller == .device &&
    match m with
    | .allocate _ | .deallocate => true
    | .relinquish => p.mailbox.isSome
    | .push _ => decide (0 < p.free)
    | .pop => decide (0 < p.used)

/-- What a legal operation makes of the port: a new empty ring buffer, no ring buffer, the hand-off with its record of
whether the buffer was non-empty, one more byte, the oldest byte less (R241 to R244). -/
def DeviceMove.effect (m : DeviceMove) (p : Port) : Port :=
  match m with
  | .allocate size => { p with mailbox := some ⟨size, []⟩ }
  | .deallocate => { p with mailbox := none }
  | .relinquish => { p with handoffReadable := decide (0 < p.used), controller := .program }
  | .push b => { p with mailbox := p.mailbox.map (fun q => { q with bytes := q.bytes ++ [b] }) }
  | .pop => { p with mailbox := p.mailbox.map (fun q => { q with bytes := q.bytes.drop 1 }) }

/-- The device on a port is told that its operation failed (R240; entry 21). -/
def State.reportFailure (s : State) (port : Word) : State :=
  { s with deviceFailures := s.deviceFailures ++ [port] }

/-- The device on a port attempts an operation: its effect if it is legal, otherwise no effect and a report of failure.
Where no port has the address, or no device is connected to it, there is no device to act (R18, R240). -/
def State.deviceMove (s : State) (port : Word) (m : DeviceMove) : State :=
  match s.lookupPort port with
  | none => s
  | some p =>
    if p.device.isNone then s
    else if m.legal p then s.updatePort port m.effect
    else s.reportFailure port

end Sys2Proof.Machine
end

