-- ==== Sys2Proof/Machine/Signal.lean ====
section
/-! DEFINITION. `SIG`, `HCF` and the unassigned opcodes (44_device_signal_halt.md). -/

namespace Sys2Proof.Machine

/-- The four arguments of a signal: the index-addressable registers in index order (R188). -/
def signalOf (s : State) : SignalCall where
  arg0 := s.x .r0
  arg1 := s.x .r1
  arg2 := s.x .lr
  arg3 := s.x .pc

/-- `SIG`, execute phase (R188). -/
def execSig (v : BitVec 12) (s : State) : Result :=
  request .signal (v != 0) (.signal (signalOf s)) s

/-- `SIGNAL_VALID(w)` (R187). -/
def State.signalValid (s : State) (w : Word) : Bool :=
  s.cfg.signalValid.contains w

/-- The platform writes a byte of the store; a byte of a segment is not its to write (R187). -/
def State.storePlatformByte (s : State) (a : Nat) (v : Byte) : State :=
  if !s.inSegments a && s.inStore a 1 then s.writeBytes a [v] else s

/-- One move of `SIGNAL_EFFECT` on platform state (R187; entry 5). -/
def applyPlatformMove (m : PlatformMove) (s : State) : State :=
  match m with
  | .device port d => s.deviceMove port d
  | .storeByte a v => s.storePlatformByte a v

/-- Moves of `SIGNAL_EFFECT`, first to last. -/
def applyPlatformMoves (moves : List PlatformMove) (s : State) : State :=
  moves.foldl (fun t m => applyPlatformMove m t) s

/-- The platform receives a call, and the moves pending for it are used up. -/
def State.recordSignal (s : State) (c : SignalCall) : State :=
  { s with signals := s.signals ++ [c], signalEffects := s.signalEffects.tail }

/-- `SIGNAL_EFFECT(arg0, arg1, arg2, arg3)`: the platform receives the call and makes the moves pending for it, none if
none are pending (the default of R8); nothing of the block changes (R187; entry 5). -/
def State.signalPlatform (s : State) (c : SignalCall) : State :=
  applyPlatformMoves (s.signalEffects.headD []) (s.recordSignal c)

/-- Signal handler (R189). -/
def handleSignal (c : SignalCall) (s : State) : State × Resolution :=
  if !s.signalValid c.arg0 then s.raiseInHandler .sig (c.arg0.extractLsb' 0 12)
  else ((s.signalPlatform c).clearFlags, .complete)

/-- `raise INI(op)`: an opcode with no handler (R193). -/
def raiseUnassigned (op : BitVec 4) (s : State) : Result :=
  s.raise .ini (op.zeroExtend 12)

/-- Opcode `0xD` (R193). -/
def execIni0D (s : State) : Result :=
  raiseUnassigned 0xD s

/-- Opcode `0xE` (R193). -/
def execIni0E (s : State) : Result :=
  raiseUnassigned 0xE s

/-- `HCF #x`: the argument is `IR[11:0]`, the operand field of the word executing (R191, R272). -/
def execHcf (x : BitVec 12) (s : State) : Result :=
  s.raise .hcf x

end Sys2Proof.Machine
end

