-- ==== Sys2Proof/Machine/Dispatch.lean ====
section
/-! DEFINITION. The execute phase of a decoded instruction: one arm per row of the opcode table, each one call of
the instruction's meaning (R81 steps 3 to 6). -/

namespace Sys2Proof.Machine

/-- The instruction rule of the decoded row (R210 step 2). -/
def exec (i : Instr) (s : State) : Host.Outcome State Fault Refusal :=
  match i with
  | .addR a b v => Sys2Proof.Machine.execAddR a b v s
  | .addL b l => Sys2Proof.Machine.execAddL b l s
  | .subR a b v => Sys2Proof.Machine.execSubR a b v s
  | .subL b l => Sys2Proof.Machine.execSubL b l s
  | .asgnR a b v => Sys2Proof.Machine.execAsgnR a b v s
  | .asgnL b l => Sys2Proof.Machine.execAsgnL b l s
  | .mulR d v => Sys2Proof.Machine.execMulR d v s
  | .mulL d v l => Sys2Proof.Machine.execMulL d v l s
  | .divR d v => Sys2Proof.Machine.execDivR d v s
  | .divL d v l => Sys2Proof.Machine.execDivL d v l s
  | .shftR a b v => Sys2Proof.Machine.execShftR a b v s
  | .shftL b v m => Sys2Proof.Machine.execShftL b v m s
  | .andR a b v => Sys2Proof.Machine.execAndR a b v s
  | .andM b f v k => Sys2Proof.Machine.execAndM b f v k s
  | .orR a b v => Sys2Proof.Machine.execOrR a b v s
  | .orM b f v k => Sys2Proof.Machine.execOrM b f v k s
  | .xorR a b v => Sys2Proof.Machine.execXorR a b v s
  | .xorM b f v k => Sys2Proof.Machine.execXorM b f v k s
  | .not _ b v => Sys2Proof.Machine.execNot b v s
  | .cbxLr z c v => Sys2Proof.Machine.execCbxLr z c v s
  | .cbxRel z c v f => Sys2Proof.Machine.execCbxRel z c v f s
  | .ld r v => Sys2Proof.Machine.execLd r v s
  | .st r v => Sys2Proof.Machine.execSt r v s
  | .dpq v q => Sys2Proof.Machine.execDpq v q s
  | .dpoRelq j v => Sys2Proof.Machine.execDpoRelq j v s
  | .dpoRd v => Sys2Proof.Machine.execDpoRd v s
  | .dpoWr v => Sys2Proof.Machine.execDpoWr v s
  | .dpoRdI v => Sys2Proof.Machine.execDpoRdI v s
  | .dpoWrI v => Sys2Proof.Machine.execDpoWrI v s
  | .pop v m => Sys2Proof.Machine.execPop v m s
  | .push v m => Sys2Proof.Machine.execPush v m s
  | .sig v => Sys2Proof.Machine.execSig v s
  | .ini0D _ => Sys2Proof.Machine.execIni0D s
  | .ini0E _ => Sys2Proof.Machine.execIni0E s
  | .hcf x => Sys2Proof.Machine.execHcf x s

end Sys2Proof.Machine
end

