-- ==== Sys2Proof/Machine/Environment.lean ====
section
/-! DEFINITION. What devices and the host do in the gap between two cycles (R18, R240 to R244, R279, R310 to
R312; entries 6 and 16). -/

namespace Sys2Proof.Machine

/-- A port before its device first acts (R230). -/
def Port.initial (p : Port) : Port :=
  { p with mailbox := none, controller := .device, busy := false, handoffReadable := false }

/-- Reset of the block: exactly the list of R39; memory, segment table, ports and parameters stay (R310). -/
def State.resetBlock (s : State) : State :=
  { s with
    regs := ⟨0, 0, 0, 0⟩, sr := 0, ir := 0, sp := 0, fault := 0, faultWritten := false, newQ := [], ongoing := [] }

/-- Every port in its initial state (R311). -/
def State.resetPorts (s : State) : State :=
  { s with ports := s.ports.map Port.initial }

/-- The memory that holds exactly an image; bytes outside the store are not written (R50, R312). -/
def imageMemory (memSize : Nat) (image : List Host.Cell) : List Host.Cell :=
  image.foldl (fun m c => if c.1 < memSize then Memory.write m c.1 c.2 else m) []

/-- The host's program load: segment table and memory contents (R312). -/
def State.loadProgram (s : State) (segs : SegTable) (image : List Host.Cell) : State :=
  { s with segs := segs, mem := imageMemory s.cfg.memSize image }

/-- One move of the environment. -/
def applyMove (m : EnvMove) (s : State) : State :=
  match m with
  | .device port d => s.deviceMove port d
  | .hostClearFault => s.clearFault
  | .hostWritePc v => s.setX .pc v
  | .hostReset ports => if ports then s.resetBlock.resetPorts else s.resetBlock
  | .hostLoad segs image => (s.loadProgram segs image).resetBlock

/-- A sequence of moves, first to last. -/
def applyMoves (moves : List EnvMove) (s : State) : State :=
  moves.foldl (fun t m => applyMove m t) s

/-- The moves of the coming gap are used up. -/
def State.dropGap (s : State) : State :=
  { s with env := s.env.tail }

/-- The gap before a cycle: the pending moves of the environment, none if there are none (R240). -/
def applyGap (s : State) : State :=
  applyMoves (s.env.headD []) s.dropGap

end Sys2Proof.Machine
end

