-- ==== Sys2Proof/Machine/Scheduler.lean ====
section
/-! DEFINITION. The arbiter: resolving one action, and the resolution pass over the two queues
(45_action_scheduler.md). -/

namespace Sys2Proof.Machine

/-- The handler of an action's kind (R200). -/
def handle (a : Action) (s : State) : State × Resolution :=
  match a with
  | .load addr r => handleLoad addr r s
  | .store addr w => handleStore addr w s
  | .push m => handlePush m s
  | .pop m => handlePop m s
  | .query port k => handleQuery port k s
  | .relinquish port => handleRelinquish port s
  | .transfer t => handleTransfer t s
  | .signal c => handleSignal c s

/-- `ACTION_FAILS` for the next resolution; with no pending answer it is false (R207; entry 4). -/
def State.nextActionFails (s : State) : Bool :=
  s.resolverAnswers.headD false

/-- The pending answer is used up. -/
def State.dropAnswer (s : State) : State :=
  { s with resolverAnswers := s.resolverAnswers.tail }

/-- `Resolve(a)`: *failed* and nothing else if `ACTION_FAILS`, otherwise what the handler returns (R206). -/
def resolve (a : Action) (s : State) : State × Resolution :=
  if s.nextActionFails then (s.dropAnswer, .failed) else handle a s.dropAnswer

/-- `ONGOING_Q_DEPTH`, by default the number of ports (R8, R214). -/
def State.ongoingCapacity (s : State) : Nat :=
  s.cfg.ongoingQDepth.getD s.ports.length

/-- Step (a) and (b) of the pass over the new queue: the state, the block of actions that became ongoing in
creation order, and whether a *failed* result stopped the pass (R205). `places` counts the entries the new queue still
has a place for, `room` the places left in the ongoing queue. An action without its place is one the resolver cannot
process: *failed* and nothing else happens (R206, R207; entry 11). -/
def resolveNew : List Action → Nat → Nat → State → State × List Action × Bool
  | [], _, _, s => (s, [], false)
  | _ :: _, 0, _, s => (s.setFault .spv 0, [], true)
  | a :: rest, places + 1, room, s =>
    match resolve a s with
    | (s1, .complete) => resolveNew rest places room s1
    | (s1, .ongoing a') =>
      match room with
      | 0 => (s.dropAnswer.setFault .spv 0, [], true)
      | room + 1 =>
        let r := resolveNew rest places room s1
        (r.1, a' :: r.2.1, r.2.2)
    | (s1, .failed) => (s1.setFault .spv 0, [], true)

/-- Step (c) and (d) over the carried-over actions: the state and the actions that stay queued. A *failed* action
leaves the queue and ends the pass, the unreached ones stay (R205, R209). -/
def resolveOngoing : List Action → State → State × List Action
  | [], s => (s, [])
  | a :: rest, s =>
    match resolve a s with
    | (s1, .complete) => resolveOngoing rest s1
    | (s1, .ongoing a') =>
      let r := resolveOngoing rest s1
      (r.1, a' :: r.2)
    | (s1, .failed) => (s1.setFault .spv 0, rest)

/-- Both queues replaced. -/
def State.withQueues (s : State) (newQ ongoing : List Action) : State :=
  { s with newQ := newQ, ongoing := ongoing }

/-- `ResolveCycle()`: the new queue, then the actions carried over from earlier cycles, with the newly ongoing block
at the head of the ongoing queue; the new queue ends empty (R205, R209, R213). No handler reads the queues. -/
def resolveCycle (s : State) : State :=
  let r := resolveNew s.newQ s.cfg.newQDepth (s.ongoingCapacity - s.ongoing.length) s
  if r.2.2 then r.1.withQueues [] (r.2.1 ++ s.ongoing)
  else
    let c := resolveOngoing s.ongoing r.1
    c.1.withQueues [] (r.2.1 ++ c.2)

end Sys2Proof.Machine
end

