-- ==== Sys2Proof/Machine/Cycle.lean ====
section
/-! DEFINITION. The engine's execute phase for a word, the fetch sequencer, the cycle and the cycle sequencer (R81,
R210 to R212). -/

namespace Sys2Proof.Machine

/-- An assigned opcode whose `DECODE_TABLE` strap is false (R83, R193). The unassigned opcodes `0xD` and `0xE` have
no handler whatever their strap: their rows raise `INI` themselves. -/
def State.handlerRemoved (s : State) (op : BitVec 4) : Bool :=
  !s.cfg.decodeTable.getLsbD op.toNat && op != 0xD && op != 0xE

/-- A word of no row: `RES(0)`, after the channel check of its opcode (R81, R98). `decodeWord` never answers
*truncated*. -/
def rejectWord (e : DecodeError) (s : State) : Result :=
  match e with
  | .noDpoOperation => rejectDpoType0 s
  | .truncated => s.raise .res 0

/-- `Execute(w)`: `IR <- w`, the decode-table check, then the instruction (R81, R210 step 2). -/
def execute (w : Word) (s : State) : Result :=
  let s1 := s.setIr w
  if s1.handlerRemoved (field w 12 4) then raiseUnassigned (field w 12 4) s1
  else
    match decodeWord w with
    | .ok i => exec i s1
    | .error e => rejectWord e s1

/-- The fetch sequencer and the execute phase: `ALGN` for an odd `PC`, `SEG` outside the code segment, else the word
at `CS.base + PC` with `PC` advanced before it executes (R212). -/
def fetchExecute (s : State) : Result :=
  if isOdd (s.x .pc) then .next (s.setFault .algn 0)
  else if !inSegment s.segs.cs (s.x .pc).toNat 2 then .next (s.setFault .seg 0)
  else if !s.inStore (s.codeAddr (s.x .pc)) 2 then .fault (.storeFailure (s.codeAddr (s.x .pc)))
  else execute (s.readWord (s.codeAddr (s.x .pc))) (s.setX .pc (s.x .pc + 2))

/-- The resolve phase after an execute phase, whatever that phase recorded (R210). -/
def thenResolve : Result → Result
  | .next t => .next (resolveCycle t)
  | .fault r => .fault r
  | .refused r => .refused r

/-- A cycle for a word supplied from outside, with no fetch and no `PC` advance (R210, R212 last sentence). -/
def cycleWithWord (w : Word) (s : State) : Result :=
  thenResolve (execute w s.openFaultLatch)

/-- A cycle: clear the fault latch, fetch and execute one instruction, resolve (R210, R212). -/
def cycle (s : State) : Result :=
  thenResolve (fetchExecute s.openFaultLatch)

/-- The block is halted: `HALT_ON_FAULT` and a recorded fault (R211). -/
def State.halted (s : State) : Bool :=
  s.cfg.haltOnFault && s.faultKind != 0

/-- The cycle sequencer: it refuses a segment table that R53 rules out, starts no cycle while halted (entry 7), and
otherwise runs one cycle (R211). -/
def runSequencer (s : State) : Result :=
  if !s.segsOk then .refused .illFormedSegments
  else if s.halted then .next s
  else cycle s

/-- A word placed where the next fetch reads it. -/
def placeWord (s : State) (w : Word) : State :=
  s.writeWord (s.codeAddr (s.x .pc)) w

end Sys2Proof.Machine
end

