-- ==== Sys2Proof/Machine/Step.lean ====
section
/-! DEFINITION. The step of the whole machine. -/

namespace Sys2Proof.Machine

/-- One step: the environment's moves of the gap, then what the cycle sequencer does (R18, R210, R211, R240). -/
def step (s : State) : Host.Outcome State Fault Refusal :=
  runSequencer (applyGap s)

/-- The state with an instruction's bits in the code segment at `PC`, bits from `nbits` up zero (entry 9). -/
def State.withFetchWord (s : State) (nbits w : Nat) : State :=
  placeWord s (BitVec.ofNat 16 (w % 2 ^ nbits))

end Sys2Proof.Machine
end

