-- ==== Sys2Proof/Safety.lean ====
section
/-! DEFINITION. The terms in which claims speak of a run: how it ends, and the invariants of the machine. -/

namespace Sys2Proof.Machine

/-! ### The end of a run (R216) -/

/-- A run ends with the first cycle that leaves a fault recorded (R216). -/
def State.runEnded (s : State) : Prop :=
  s.faultKind ≠ 0

/-- A normal end: the program stopped itself with `HCF` (R190, R216). -/
def State.normalEnd (s : State) : Prop :=
  s.faultKind = FaultKind.hcf.code

/-- The exit code of a program that ended normally (R190). -/
def State.exitCode (s : State) : BitVec 12 :=
  s.faultArg

/-! ### Invariants -/

/-- Memory is in its canonical form and lists no address outside the store (R50). -/
def MemoryInv (s : State) : Prop :=
  Memory.wf s.mem ∧ ∀ c ∈ s.mem, c.1 < s.cfg.memSize

/-- "Status-register bits outside the two defined flags are always zero" (R25). -/
def StatusInv (s : State) : Prop :=
  s.sr.extractLsb' 2 14 = 0

/-- `SP` is even and never past the stack segment (R28, R169). -/
def StackInv (s : State) : Prop :=
  s.sp.toNat % 2 = 0 ∧ s.sp.toNat ≤ s.segs.ss.len

/-- `FAULT` never holds a kind code above 11 (R271). -/
def FaultInv (s : State) : Prop :=
  s.faultKind.toNat ≤ 11

/-- A port is as R231 and R234 (c), (d) require: no more bytes than capacity, a mailbox whenever the program
controls it, program control whenever it is busy. -/
def PortOk (p : Port) : Prop :=
  (∀ m, p.mailbox = some m → m.used ≤ m.cap) ∧
    (p.controller = .program → p.mailbox.isSome) ∧ (p.busy = true → p.controller = .program)

/-- Port addresses are unique and every port is as required (R230, R234). -/
def PortsInv (s : State) : Prop :=
  (s.ports.map Port.addr).Nodup ∧ ∀ p ∈ s.ports, PortOk p

/-- R234 (b): a port is busy only while a transfer for it is in the ongoing queue. -/
def BusyInv (s : State) : Prop :=
  ∀ p ∈ s.ports, p.busy = true → ∃ t, .transfer t ∈ s.ongoing ∧ t.port = p.addr

/-- A host move that empties the ongoing queue and leaves the ports as they are (R311). -/
def resetsBlockAlone : EnvMove → Bool
  | .hostReset ports => !ports
  | .hostLoad _ _ => true
  | .device _ _ | .hostClearFault | .hostWritePc _ => false

/-- An action that may stand in the ongoing queue: a started indirect transfer with bytes still to move, inside the
data segment, on a busy port (R32, R200, R234, R255). -/
def InFlight (s : State) (t : Transfer) : Prop :=
  t.indirect = true ∧ t.started = true ∧ 0 < t.remaining ∧ t.addr.toNat + t.remaining ≤ s.segs.ds.len ∧
    ∃ p, s.lookupPort t.port = some p ∧ p.busy = true ∧ p.controller = .program ∧ p.mailbox.isSome

/-- The port an action is for, if it is a transfer. -/
def transferPort : Action → Option Word
  | .transfer t => some t.port
  | .load _ _ | .store _ _ | .push _ | .pop _ | .query _ _ | .relinquish _ | .signal _ => none

/-- Between cycles the new queue is empty (R31), and the ongoing queue holds transfers in flight, at most one for a
port (R32, R214). -/
def QueueInv (s : State) : Prop :=
  s.newQ = [] ∧ (∀ a ∈ s.ongoing, ∃ t, a = .transfer t ∧ InFlight s t) ∧ (s.ongoing.map transferPort).Nodup

/-- Ports and queues together: neither is kept without the other. -/
def DeviceInv (s : State) : Prop :=
  PortsInv s ∧ QueueInv s

/-! ### Classes of instructions and of actions -/

/-- The request channel an instruction needs (R83). -/
def channelOf : Instr → Option Channel
  | .ld _ _ => some .load
  | .st _ _ => some .store
  | .dpq _ _ => some .dpq
  | .dpoRelq _ _ | .dpoRd _ | .dpoWr _ | .dpoRdI _ | .dpoWrI _ => some .dpo
  | .pop _ _ => some .pop
  | .push _ _ => some .push
  | .sig _ => some .signal
  | .addR _ _ _ | .addL _ _ | .subR _ _ _ | .subL _ _ | .asgnR _ _ _ | .asgnL _ _ | .mulR _ _ | .mulL _ _ _ => none
  | .divR _ _ | .divL _ _ _ | .shftR _ _ _ | .shftL _ _ _ | .andR _ _ _ | .andM _ _ _ _ | .orR _ _ _ => none
  | .orM _ _ _ _ | .xorR _ _ _ | .xorM _ _ _ _ | .not _ _ _ | .cbxLr _ _ _ | .cbxRel _ _ _ _ => none
  | .ini0D _ | .ini0E _ | .hcf _ => none

/-- The channel an instruction needs, if any, is connected. -/
def attempted (i : Instr) (s : State) : Prop :=
  ∀ k, channelOf i = some k → s.channelPresent k = true

/-- `CBX`, the only reader of `SR` (R150). -/
def isBranch : Instr → Bool
  | .cbxLr _ _ _ | .cbxRel _ _ _ _ => true
  | .ld _ _ | .st _ _ | .dpq _ _ | .dpoRelq _ _ | .dpoRd _ | .dpoWr _ | .dpoRdI _ | .dpoWrI _ => false
  | .pop _ _ | .push _ _ | .sig _ | .ini0D _ | .ini0E _ | .hcf _ => false
  | .addR _ _ _ | .addL _ _ | .subR _ _ _ | .subL _ _ | .asgnR _ _ _ | .asgnL _ _ | .mulR _ _ | .mulL _ _ _ => false
  | .divR _ _ | .divL _ _ _ | .shftR _ _ _ | .shftL _ _ _ | .andR _ _ _ | .andM _ _ _ _ | .orR _ _ _ => false
  | .orM _ _ _ _ | .xorR _ _ _ | .xorM _ _ _ _ | .not _ _ _ => false

/-- An indirect transfer, the one action that may change state and record a fault, or answer *ongoing* (R205, R276). -/
def isIndirect : Action → Bool
  | .transfer t => t.indirect
  | .load _ _ | .store _ _ | .push _ | .pop _ | .query _ _ | .relinquish _ | .signal _ => false

/-- A state with its status register replaced, to compare runs that differ there only. -/
def State.withSr (s : State) (v : Word) : State :=
  { s with sr := v }

/-- An address of the code segment. -/
def State.inCode (s : State) (a : Nat) : Prop :=
  s.segs.cs.base ≤ a ∧ a < s.segs.cs.base + s.segs.cs.len

/-- The registers an instruction's execute phase may write (R38). -/
def writtenRegs : Instr → List Reg
  | .addR _ b _ => [b]
  | .addL b _ => [b]
  | .subR _ b _ => [b]
  | .subL b _ => [b]
  | .asgnR _ b _ => [b]
  | .asgnL b _ => [b]
  | .mulR d _ => [generalReg d, .lr]
  | .mulL d _ _ => [generalReg d, .lr]
  | .divR d _ => [generalReg d, .lr]
  | .divL d _ _ => [generalReg d, .lr]
  | .shftR _ b _ => [b]
  | .shftL b _ _ => [b]
  | .andR _ b _ => [b]
  | .andM b _ _ _ => [b]
  | .orR _ b _ => [b]
  | .orM b _ _ _ => [b]
  | .xorR _ b _ => [b]
  | .xorM b _ _ _ => [b]
  | .not _ b _ => [b]
  | .cbxLr _ _ _ => [.pc]
  | .cbxRel _ _ _ _ => [.pc]
  | .ld _ _ | .st _ _ | .dpq _ _ | .dpoRelq _ _ | .dpoRd _ | .dpoWr _ | .dpoRdI _ | .dpoWrI _ => []
  | .pop _ _ | .push _ _ | .sig _ | .ini0D _ | .ini0E _ | .hcf _ => []

/-- The reserved mask of a row, column `reserved_mask` of spec/opcode_table.json (R97). -/
def reservedMask : Instr → Word
  | .addR _ _ _ | .subR _ _ _ | .asgnR _ _ _ => 0x00FF
  | .addL _ _ | .subL _ _ | .asgnL _ _ => 0x0000
  | .mulR _ _ | .divR _ _ => 0x03FF
  | .mulL _ _ _ | .divL _ _ _ => 0x0300
  | .shftR _ _ _ => 0x00FF
  | .shftL _ _ _ => 0x00E0
  | .andR _ _ _ | .orR _ _ _ | .xorR _ _ _ => 0x003F
  | .andM _ _ _ _ | .orM _ _ _ _ | .xorM _ _ _ _ => 0x0010
  | .not _ _ _ => 0x003F
  | .cbxLr _ _ _ => 0x01FF
  | .cbxRel _ _ _ _ => 0x0100
  | .ld _ _ | .st _ _ => 0x01FF
  | .dpq _ _ => 0x0FF8
  | .dpoRelq _ _ | .dpoRd _ | .dpoWr _ | .dpoRdI _ | .dpoWrI _ => 0x07FC
  | .pop _ _ | .push _ _ => 0x07F0
  | .sig _ => 0x0FFF
  | .ini0D _ | .ini0E _ | .hcf _ => 0x0000

/-! ### Register masks of `STK` (R167) -/

/-- `popcount(mask)` (R10). -/
def popcount (m : BitVec 4) : Nat :=
  ((List.range 4).filter (fun i => m.getLsbD i)).length

/-- The place of a masked register among the words of a push or pop: how many masked registers have a lower index. -/
def slotOf (m : BitVec 4) (r : Reg) : Nat :=
  ((List.range r.bits.toNat).filter (fun i => m.getLsbD i)).length

/-- A 4-bit mask names a register (R82). -/
def inMask (m : BitVec 4) (r : Reg) : Bool :=
  m.getLsbD r.bits.toNat

/-! ### The resolution pass as R205 writes it, with an index into the ongoing queue -/

/-- Step (a) and (b): `ins` is the size of the block inserted at the head this pass, `k` the number of entries already
taken from the new queue; the flag is `stop`. `NEW_Q_DEPTH` and `ONGOING_Q_DEPTH` (R8) bound the two queues: an entry
the new queue has no place for, and an action that would be inserted into a full ongoing queue, fail (entry 11). -/
def passNew : List Action → Nat → Nat → State → State × Nat × Bool
  | [], _, ins, s => (s, ins, false)
  | a :: rest, k, ins, s =>
    if s.cfg.newQDepth ≤ k then (s.setFault .spv 0, ins, true)
    else
      match resolve a s with
      | (t, .complete) => passNew rest (k + 1) ins t
      | (t, .ongoing a') =>
        if t.ongoing.length < t.ongoingCapacity then
          passNew rest (k + 1) (ins + 1) { t with ongoing := t.ongoing.insertIdx ins a' }
        else (s.dropAnswer.setFault .spv 0, ins, true)
      | (t, .failed) => (t.setFault .spv 0, ins, true)

/-- Step (c) and (d) from index `i`; the first argument bounds the number of entries looked at. -/
def passOngoing : Nat → Nat → State → State
  | 0, _, s => s
  | n + 1, i, s =>
    match s.ongoing[i]? with
    | none => s
    | some a =>
      match resolve a s with
      | (t, .ongoing a') => passOngoing n (i + 1) { t with ongoing := t.ongoing.set i a' }
      | (t, .complete) => passOngoing n i { t with ongoing := t.ongoing.eraseIdx i }
      | (t, .failed) => State.setFault { t with ongoing := t.ongoing.eraseIdx i } .spv 0

/-- `ResolveCycle()`, statement by statement as R205 has it, with the queue depths of R8 (entry 11). -/
def passByIndex (s : State) : State :=
  let r := passNew s.newQ 0 0 s
  let u := { r.1 with newQ := [] }
  if r.2.2 then u else passOngoing u.ongoing.length r.2.1 u

/-- How many resolutions a started indirect transfer takes to complete, if it does so within the bound (R255, R330). -/
def resolutionsToEnd : Nat → Transfer → State → Option Nat
  | 0, _, _ => none
  | n + 1, t, s =>
    match moveChunk t s with
    | (_, .complete) => some 1
    | (s', .ongoing (.transfer t')) => (resolutionsToEnd n t' s').map (fun k => k + 1)
    | (_, .ongoing _) => none
    | (_, .failed) => none

/-- Nothing is queued and no answer of `ACTION_FAILS` is pending: the next action resolved is the one queued next. -/
def State.quiet (s : State) : Prop :=
  s.newQ = [] ∧ s.ongoing = [] ∧ s.resolverAnswers = []

/-! ### What a transfer finds (R233, R252) -/

/-- `port` has port `p` with mailbox `m`, not busy, controlled by the program, handed over with data, and data is
left: the state Readable and not busy. -/
def readableAt (s : State) (port : Word) (p : Port) (m : Mailbox) : Prop :=
  s.lookupPort port = some p ∧ p.mailbox = some m ∧ p.busy = false ∧ p.controller = .program ∧
    p.handoffReadable = true ∧ m.bytes ≠ []

/-- The same for the state Writeable: handed over drained, and room is left. -/
def writeableAt (s : State) (port : Word) (p : Port) (m : Mailbox) : Prop :=
  s.lookupPort port = some p ∧ p.mailbox = some m ∧ p.busy = false ∧ p.controller = .program ∧
    p.handoffReadable = false ∧ m.bytes.length < m.cap

/-- The mailbox condition a transfer direction needs (R252). -/
def admittedAt (dir : Direction) (s : State) (port : Word) (p : Port) (m : Mailbox) : Prop :=
  match dir with
  | .read => readableAt s port p m
  | .write => writeableAt s port p m

/-- Between `s` and `t` the port at one address has become `q`; every other address looks up as before. -/
def portsChangedAt (s t : State) (port : Word) (q : Port) : Prop :=
  t.lookupPort port = some q ∧ (∀ a, a ≠ port → t.lookupPort a = s.lookupPort a) ∧
    t.ports.map Port.addr = s.ports.map Port.addr

end Sys2Proof.Machine
end

