-- ==== Sys2Proof/Certificates/Slice0/Obligations.lean ====
section
/-! DEFINITION. The statements for the provers. Each docstring names the rules of spec/ it formalises; a clause that
rests on a choice of the model says so and names the log entry. -/

section Statements

open Sys2Proof Sys2Proof.Machine

/-! ### Decoding and encoding -/

/-- Every instruction of every row, with every operand and every reserved bit at every value, is read back from the
word written for it (R80, R84 to R95). -/
def Obligations.DecodeInvertsEncode : Prop :=
  ∀ (i : Instr) (rest : List Byte), i.inRow = true →
    decodeWord (encode i) = .ok i ∧ decode (wordBytes (encode i) ++ rest) = .ok (i, rest)

/-- Every word the decoder reads is the word written for what it read, and the words of no row are exactly the `DPO`
words with type field 0 (R84, R99). -/
def Obligations.EncodeInvertsDecode : Prop :=
  ∀ w : Word,
    (∀ i, decodeWord w = .ok i → i.inRow = true ∧ encode i = w) ∧
      ((∃ e, decodeWord w = .error e) ↔ field w 12 4 = 0xA ∧ field w 0 2 = 0)

/-- The example words of the instruction rules decode to the instructions they stand for (R111 to R191). -/
def Obligations.ExampleWordsDecode : Prop :=
  decodeWord 0x0400 = .ok (.addR .r1 .r0 0) ∧ decodeWord 0x1501 = .ok (.subL .r1 1) ∧
    decodeWord 0x2000 = .ok (.mulR .r0 0) ∧ decodeWord 0x3C00 = .ok (.divL .r1 0 0) ∧
    decodeWord 0x40FF = .ok (.asgnL .r0 0xFF) ∧ decodeWord 0x501C = .ok (.shftL .r0 0 0x1C) ∧
    decodeWord 0x6023 = .ok (.andM .r0 true false 3) ∧ decodeWord 0x7CFD = .ok (.cbxRel true false false 0xFD) ∧
    decodeWord 0x8200 = .ok (.ld .r1 0) ∧ decodeWord 0x9001 = .ok (.dpq 0 1) ∧
    decodeWord 0xA802 = .ok (.dpoRdI 0) ∧ decodeWord 0xB805 = .ok (.push 0 0b0101) ∧
    decodeWord 0xC000 = .ok (.sig 0) ∧ decodeWord 0xD123 = .ok (.ini0D 0x123) ∧
    decodeWord 0xF02A = .ok (.hcf 42)

/-! ### Reset, the step, the sequencers -/

/-- Reset by the host is exactly the list of R39 and R310, and the first word fetched after it is the little-endian
word at `CS.base` (R313). That a reset lies in a gap of the environment script is the model's choice (entries 6
and 16). -/
def Obligations.HostResetThenFirstFetch : Prop :=
  ∀ s : State, s.segsOk = true → 2 ≤ s.segs.cs.len →
    let w : Word := BitVec.ofNat 16
      ((s.readByte s.segs.cs.base).toNat + 256 * (s.readByte (s.segs.cs.base + 1)).toNat)
    let r : State := { s with
      regs := ⟨0, 0, 0, 0⟩, sr := 0, ir := 0, sp := 0, fault := 0, faultWritten := false, newQ := [], ongoing := [] }
    applyMove (.hostReset false) s = r ∧ fetchExecute r = execute w { r with regs := ⟨0, 0, 0, 2⟩ }

/-- The fetch sequencer: alignment, then bounds, then the word at `CS.base + PC` with `PC` advanced before it
executes; on a fetch fault no instruction executes and the resolve phase still runs (R212). The premise is R53's
constraint on the loaded table. -/
def Obligations.FetchSequencerRule : Prop :=
  ∀ s : State, s.segsOk = true →
    let pc := (s.x .pc).toNat
    let start := s.segs.cs.base + pc
    let opened : State := { s with faultWritten := false }
    (pc % 2 = 1 →
        fetchExecute s = .next (s.setFault .algn 0) ∧
          cycle s = .next (resolveCycle (opened.setFault .algn 0))) ∧
      (pc % 2 = 0 → s.segs.cs.len < pc + 2 →
        fetchExecute s = .next (s.setFault .seg 0) ∧
          cycle s = .next (resolveCycle (opened.setFault .seg 0))) ∧
      (pc % 2 = 0 → pc + 2 ≤ s.segs.cs.len →
        fetchExecute s =
          execute (BitVec.ofNat 16 ((s.readByte start).toNat + 256 * (s.readByte (start + 1)).toNat))
            (s.setX .pc (BitVec.ofNat 16 ((pc + 2) % 65536))))

/-- A step runs the decoded instruction: once the gap's moves are made, and with the block not halted, `PC` even and
inside the code segment and the word's opcode not strapped out, the step is `exec` of the instruction the word at `PC`
decodes to, on the state with the fault latch clear, `PC` past the word and `IR` the word, then the resolve phase
(R81, R210, R212). -/
def Obligations.StepRunsDecodedInstruction : Prop :=
  ∀ (s : State) (i : Instr),
    let g := applyGap s
    let pc := (g.x .pc).toNat
    let w := g.readWord (g.segs.cs.base + pc)
    g.segsOk = true → g.halted = false → pc % 2 = 0 → pc + 2 ≤ g.segs.cs.len →
      decodeWord w = .ok i → g.handlerRemoved (field w 12 4) = false →
        step s =
          thenResolve (exec i { g with faultWritten := false, regs := g.regs.set .pc (g.x .pc + 2), ir := w })

/-- With `HALT_ON_FAULT` a cycle starts only while `FAULT.kind = 0`; without it, always (R211). That a step of a halted
block makes the environment's moves and nothing else is the model's choice (entry 7). -/
def Obligations.SequencerStartsCycles : Prop :=
  ∀ s : State, (applyGap s).segsOk = true →
    ((applyGap s).cfg.haltOnFault = true → (applyGap s).fault.toNat / 4096 ≠ 0 → step s = .next (applyGap s)) ∧
      ((applyGap s).cfg.haltOnFault = false ∨ (applyGap s).fault.toNat / 4096 = 0 → step s = cycle (applyGap s))

/-- A halted block starts cycles again once the host has cleared `FAULT`, from the `PC` it held and with nothing but
`FAULT` and its latch changed (R279). The clear is a move of the environment script (entry 6). -/
def Obligations.ClearedBlockRunsOn : Prop :=
  ∀ (s : State) (later : List (List EnvMove)), s.segsOk = true → s.halted = true →
    step { s with env := [.hostClearFault] :: later } =
      cycle { s with fault := 0, faultWritten := false, env := later }

/-- A step never stops with a fault, and it is refused only for a segment table that R53 rules out or for an execute
phase not attempted (R208, R291). -/
def Obligations.StepStopsOnlyByRefusal : Prop :=
  ∀ s : State,
    (∃ t, step s = .next t) ∨
      (step s = .refused .illFormedSegments ∧ (applyGap s).segsOk = false) ∨
        ∃ k, step s = .refused (.notAttempted k) ∧ (applyGap s).channelPresent k = false

/-! ### Faults -/

/-- The first fault of a cycle stands, later ones have no effect, nothing but `FAULT` and its latch changes; a cycle
starts with the latch clear; a cycle that records no fault leaves `FAULT` alone (R274). The fault words are those of
R271 and R273, kind by kind. -/
def Obligations.SetFaultRule : Prop :=
  let code (k : FaultKind) : Nat := match k with
    | .hcf => 1
    | .res => 2
    | .algn => 3
    | .seg => 4
    | .ido => 5
    | .ini => 6
    | .spv => 7
    | .div => 8
    | .sof => 9
    | .suf => 10
    | .sig => 11
  (∀ (s : State) (k : FaultKind) (arg : BitVec 12),
      (s.faultWritten = false →
          s.setFault k arg =
            { s with fault := BitVec.ofNat 16 (code k * 4096 + arg.toNat), faultWritten := true }) ∧
        (s.faultWritten = true → s.setFault k arg = s)) ∧
    (∀ s : State, cycle s = cycle { s with faultWritten := false }) ∧
    (∀ s t : State, cycle s = .next t → t.faultWritten = false → t.fault = s.fault)

/-- A word with a reserved bit of its form set raises `RES(0)`; nothing else changes but `IR`, and no action is queued
(R97). The premises are the two checks that R81 puts before this one. -/
def Obligations.ReservedBitRaisesRes : Prop :=
  (∀ (w : Word) (i : Instr) (s : State), decodeWord w = .ok i → w &&& reservedMask i ≠ 0 →
      s.handlerRemoved (field w 12 4) = false → attempted i s →
        execute w s = .next (State.setFault { s with ir := w } .res 0)) ∧
    (∀ (w : Word) (s : State), field w 12 4 = 0xA → w &&& 0x07FC ≠ 0 →
      s.handlerRemoved (field w 12 4) = false → s.channelPresent .dpo = true →
        execute w s = .next (State.setFault { s with ir := w } .res 0))

/-- A word with a reserved field value raises `RES(0)`; nothing else changes but `IR`, and no action is queued
(R98). -/
def Obligations.ReservedValueRaisesRes : Prop :=
  ∀ (w : Word) (s : State), s.handlerRemoved (field w 12 4) = false →
    ((0x4F00 ≤ w.toNat ∧ w.toNat ≤ 0x4FFF) ∨
      (field w 12 4 = 0x9 ∧ 6 ≤ (field w 0 3).toNat ∧ s.channelPresent .dpq = true) ∨
      (field w 12 4 = 0xA ∧ field w 0 2 = 0 ∧ s.channelPresent .dpo = true) ∨
      (field w 12 4 = 0xA ∧ field w 0 2 = 1 ∧ bit w 11 = true ∧ s.channelPresent .dpo = true) ∨
      (field w 12 4 = 0xB ∧ field w 0 4 = 0 ∧
        s.channelPresent (if bit w 11 then .push else .pop) = true)) →
    execute w s = .next (State.setFault { s with ir := w } .res 0)

/-- An opcode with no handler raises `INI` with the opcode as argument, whatever the operand bits; nothing else changes
but `IR` (R193). -/
def Obligations.OpcodeWithoutHandlerRaisesIni : Prop :=
  (∀ (w : Word) (s : State),
      (field w 12 4 = 0xD ∨ field w 12 4 = 0xE ∨ s.cfg.decodeTable.getLsbD (w.toNat / 4096) = false) →
        execute w s = .next (State.setFault { s with ir := w } .ini (BitVec.ofNat 12 (w.toNat / 4096)))) ∧
    (∀ (u : BitVec 12) (s : State), exec (.ini0D u) s = .next
      { s with fault := if s.faultWritten then s.fault else 0x600D, faultWritten := true }) ∧
    (∀ (u : BitVec 12) (s : State), exec (.ini0E u) s = .next
      { s with fault := if s.faultWritten then s.fault else 0x600E, faultWritten := true })

/-- `HCF` records its operand field as the fault argument and changes nothing else; the resolve phase of its cycle
still runs (R191). -/
def Obligations.HaltRule : Prop :=
  (∀ w : Word, field w 12 4 = 0xF → decodeWord w = .ok (.hcf (field w 0 12))) ∧
    (∀ (x : BitVec 12) (s : State), exec (.hcf x) s = .next
      { s with fault := if s.faultWritten then s.fault else 0x1000 ||| x.setWidth 16, faultWritten := true }) ∧
    (∀ (x : BitVec 12) (s : State), s.faultWritten = false →
      thenResolve (exec (.hcf x) s) = .next (resolveCycle
        { s with fault := BitVec.ofNat 16 (4096 + x.toNat), faultWritten := true }))

/-- A recorded fault means that nothing else changed, in every execute phase and in every handler but an indirect
transfer's, which changes more only for the clamp's `SEG` (R276). -/
def Obligations.FaultMeansNothingElseChanged : Prop :=
  (∀ (i : Instr) (s t : State), s.faultWritten = false → exec i s = .next t → t.faultWritten = true →
      t = { s with fault := t.fault, faultWritten := true }) ∧
    (∀ (a : Action) (s : State), s.faultWritten = false → (handle a s).1.faultWritten = true →
      (isIndirect a = false ∨ (handle a s).1.faultKind ≠ FaultKind.seg.code) →
        (handle a s).1 = { s with fault := (handle a s).1.fault, faultWritten := true })

/-- An instruction whose request channel is not connected is not attempted, which the model refuses, and every other
execute phase has a next state (R208). -/
def Obligations.NotAttemptedExactlyWithoutChannel : Prop :=
  ∀ (i : Instr) (s : State),
    (∀ k, channelOf i = some k → s.channelPresent k = false → exec i s = .refused (.notAttempted k)) ∧
      (attempted i s → ∃ t, exec i s = .next t)

/-! ### Arithmetic, assignment, shift, bitwise, branch -/

/-- `ADD` (R111), with `SR` as a number: 2 for the carry, 1 for a zero result. -/
def Obligations.AddRule : Prop :=
  let sum (b : Reg) (n : Nat) (s : State) : State :=
    let opnd := if b = .pc then n * 2 % 65536 else n
    let old := (s.x b).toNat
    { s with
      regs := s.regs.set b (BitVec.ofNat 16 (old + opnd))
      sr := BitVec.ofNat 16 ((if 65536 ≤ old + opnd then 2 else 0) + (if (old + opnd) % 65536 = 0 then 1 else 0)) }
  (∀ w : Word, field w 12 4 = 0x0 →
      decodeWord w = .ok
        (if field w 10 2 = field w 8 2 then .addL (Reg.ofBits (field w 8 2)) (field w 0 8)
          else .addR (Reg.ofBits (field w 10 2)) (Reg.ofBits (field w 8 2)) (field w 0 8))) ∧
    (∀ (a b : Reg) (v : BitVec 8) (s : State), v ≠ 0 → exec (.addR a b v) s = .next (s.setFault .res 0)) ∧
    (∀ (a b : Reg) (s : State), a ≠ b → exec (.addR a b 0) s = .next (sum b (s.x a).toNat s)) ∧
    (∀ (b : Reg) (l : BitVec 8) (s : State), exec (.addL b l) s = .next (sum b l.toNat s))

/-- `SUB` (R112). -/
def Obligations.SubRule : Prop :=
  let diff (b : Reg) (n : Nat) (s : State) : State :=
    let opnd := if b = .pc then n * 2 % 65536 else n
    let old := (s.x b).toNat
    { s with
      regs := s.regs.set b (BitVec.ofNat 16 (if old < opnd then old + 65536 - opnd else old - opnd))
      sr := BitVec.ofNat 16 ((if old < opnd then 2 else 0) + (if old = opnd then 1 else 0)) }
  (∀ w : Word, field w 12 4 = 0x1 →
      decodeWord w = .ok
        (if field w 10 2 = field w 8 2 then .subL (Reg.ofBits (field w 8 2)) (field w 0 8)
          else .subR (Reg.ofBits (field w 10 2)) (Reg.ofBits (field w 8 2)) (field w 0 8))) ∧
    (∀ (a b : Reg) (v : BitVec 8) (s : State), v ≠ 0 → exec (.subR a b v) s = .next (s.setFault .res 0)) ∧
    (∀ (a b : Reg) (s : State), a ≠ b → exec (.subR a b 0) s = .next (diff b (s.x a).toNat s)) ∧
    (∀ (b : Reg) (l : BitVec 8) (s : State), exec (.subL b l) s = .next (diff b l.toNat s))

/-- `MUL` (R114). -/
def Obligations.MulRule : Prop :=
  let product (d : Reg) (m : Nat) (s : State) : State :=
    let n := (s.x d).toNat
    { s with
      regs := (s.regs.set d (BitVec.ofNat 16 (n * m))).set .lr (BitVec.ofNat 16 (n * m / 65536))
      sr := flagsWord (decide (n = 0 ∨ m = 0)) (decide (n * m / 65536 ≠ 0)) }
  (∀ w : Word, field w 12 4 = 0x2 →
      decodeWord w = .ok
        (if bit w 10 then .mulL (GenReg.ofBit (bit w 11)) (field w 8 2) (field w 0 8)
          else .mulR (GenReg.ofBit (bit w 11)) (field w 0 10))) ∧
    (∀ (d : GenReg) (v : BitVec 10) (s : State), v ≠ 0 → exec (.mulR d v) s = .next (s.setFault .res 0)) ∧
    (∀ (d : GenReg) (v : BitVec 2) (l : BitVec 8) (s : State), v ≠ 0 →
      exec (.mulL d v l) s = .next (s.setFault .res 0)) ∧
    (∀ s : State, exec (.mulR .r0 0) s = .next (product .r0 (s.x .r1).toNat s)) ∧
    (∀ s : State, exec (.mulR .r1 0) s = .next (product .r1 (s.x .r0).toNat s)) ∧
    (∀ (l : BitVec 8) (s : State), exec (.mulL .r0 0 l) s = .next (product .r0 l.toNat s)) ∧
    (∀ (l : BitVec 8) (s : State), exec (.mulL .r1 0 l) s = .next (product .r1 l.toNat s))

/-- `DIV` (R116): the quotient and remainder are the two numbers the division theorem names. -/
def Obligations.DivRule : Prop :=
  let quotient (d : Reg) (n : Nat) (s : State) (r : Result) : Prop :=
    (n = 0 → r = .next (s.setFault .div 0)) ∧
      (∀ q m : Nat, m < n → (s.x d).toNat = q * n + m →
        r = .next { s with
          regs := (s.regs.set d (BitVec.ofNat 16 q)).set .lr (BitVec.ofNat 16 m)
          sr := flagsWord (decide (q = 0)) (decide (m ≠ 0)) })
  (∀ w : Word, field w 12 4 = 0x3 →
      decodeWord w = .ok
        (if bit w 10 then .divL (GenReg.ofBit (bit w 11)) (field w 8 2) (field w 0 8)
          else .divR (GenReg.ofBit (bit w 11)) (field w 0 10))) ∧
    (∀ (d : GenReg) (v : BitVec 10) (s : State), v ≠ 0 → exec (.divR d v) s = .next (s.setFault .res 0)) ∧
    (∀ (d : GenReg) (v : BitVec 2) (l : BitVec 8) (s : State), v ≠ 0 →
      exec (.divL d v l) s = .next (s.setFault .res 0)) ∧
    (∀ s : State, quotient .r0 (s.x .r1).toNat s (exec (.divR .r0 0) s)) ∧
    (∀ s : State, quotient .r1 (s.x .r0).toNat s (exec (.divR .r1 0) s)) ∧
    (∀ (l : BitVec 8) (s : State), quotient .r0 l.toNat s (exec (.divL .r0 0 l) s)) ∧
    (∀ (l : BitVec 8) (s : State), quotient .r1 l.toNat s (exec (.divL .r1 0 l) s))

/-- `ASGN` (R131). -/
def Obligations.AsgnRule : Prop :=
  let assigned (b : Reg) (n : Nat) (s : State) : State :=
    { s with regs := s.regs.set b (BitVec.ofNat 16 n), sr := flagsWord (decide (n = 0)) false }
  (∀ w : Word, field w 12 4 = 0x4 →
      decodeWord w = .ok
        (if field w 10 2 = field w 8 2 then .asgnL (Reg.ofBits (field w 8 2)) (field w 0 8)
          else .asgnR (Reg.ofBits (field w 10 2)) (Reg.ofBits (field w 8 2)) (field w 0 8))) ∧
    (∀ (a b : Reg) (v : BitVec 8) (s : State), v ≠ 0 → exec (.asgnR a b v) s = .next (s.setFault .res 0)) ∧
    (∀ (l : BitVec 8) (s : State), exec (.asgnL .pc l) s = .next (s.setFault .res 0)) ∧
    (∀ (a b : Reg) (s : State), a ≠ b → exec (.asgnR a b 0) s = .next (assigned b (s.x a).toNat s)) ∧
    (∀ (b : Reg) (l : BitVec 8) (s : State), b ≠ .pc →
      exec (.asgnL b l) s = .next (assigned b (if l.toNat < 128 then l.toNat else l.toNat + 65280) s))

/-- `SHFT` (R132, R134): `m` is the 5-bit amount, below 16 a left shift by `m`, from 16 a right shift by `32 - m`. -/
def Obligations.ShiftRule : Prop :=
  let shifted (b : Reg) (m : Nat) (s : State) : State :=
    let v := (s.x b).toNat
    let n := if m < 16 then v * 2 ^ m % 65536 else v / 2 ^ (32 - m)
    let out := if m < 16 then v / 2 ^ (16 - m) else v % 2 ^ (32 - m)
    { s with regs := s.regs.set b (BitVec.ofNat 16 n), sr := flagsWord (decide (n = 0)) (decide (out ≠ 0)) }
  (∀ w : Word, field w 12 4 = 0x5 →
      decodeWord w = .ok
        (if field w 10 2 = field w 8 2 then .shftL (Reg.ofBits (field w 8 2)) (field w 5 3) (field w 0 5)
          else .shftR (Reg.ofBits (field w 10 2)) (Reg.ofBits (field w 8 2)) (field w 0 8))) ∧
    (∀ (a b : Reg) (v : BitVec 8) (s : State), v ≠ 0 → exec (.shftR a b v) s = .next (s.setFault .res 0)) ∧
    (∀ (b : Reg) (v : BitVec 3) (m : BitVec 5) (s : State), v ≠ 0 →
      exec (.shftL b v m) s = .next (s.setFault .res 0)) ∧
    (∀ (a b : Reg) (s : State), a ≠ b →
      exec (.shftR a b 0) s = .next (shifted b ((s.x a).toNat % 32) s)) ∧
    (∀ (b : Reg) (m : BitVec 5) (s : State), exec (.shftL b 0 m) s = .next (shifted b m.toNat s))

/-- `BITW` (R136, R138), bit by bit: bit `k` of a one-bit mask at place `n` is `k = n`, or its inverse. -/
def Obligations.BitwiseRule : Prop :=
  let writes (b : Reg) (f : Nat → Bool) (s : State) (r : Result) : Prop :=
    ∃ t, r = .next t ∧ (∀ k, k < 16 → bit (t.x b) k = f k) ∧
      t = { s with regs := s.regs.set b (t.x b), sr := flagsWord (decide ((t.x b).toNat = 0)) false }
  let mask (inv : Bool) (n : BitVec 4) (k : Nat) : Bool := decide (k = n.toNat) != inv
  (∀ w : Word, field w 12 4 = 0x6 →
      let a := Reg.ofBits (field w 10 2)
      let b := Reg.ofBits (field w 8 2)
      decodeWord w = .ok
        (if field w 6 2 = 3 then .not a b (field w 0 6)
          else if a = b then
            (if field w 6 2 = 0 then .andM b (bit w 5) (bit w 4) (field w 0 4)
              else if field w 6 2 = 1 then .orM b (bit w 5) (bit w 4) (field w 0 4)
              else .xorM b (bit w 5) (bit w 4) (field w 0 4))
          else
            (if field w 6 2 = 0 then .andR a b (field w 0 6)
              else if field w 6 2 = 1 then .orR a b (field w 0 6)
              else .xorR a b (field w 0 6)))) ∧
    (∀ (a b : Reg) (v : BitVec 6) (s : State), v ≠ 0 →
      exec (.andR a b v) s = .next (s.setFault .res 0) ∧ exec (.orR a b v) s = .next (s.setFault .res 0) ∧
        exec (.xorR a b v) s = .next (s.setFault .res 0) ∧ exec (.not a b v) s = .next (s.setFault .res 0)) ∧
    (∀ (b : Reg) (inv : Bool) (n : BitVec 4) (s : State),
      exec (.andM b inv true n) s = .next (s.setFault .res 0) ∧
        exec (.orM b inv true n) s = .next (s.setFault .res 0) ∧
        exec (.xorM b inv true n) s = .next (s.setFault .res 0)) ∧
    (∀ (a b : Reg) (s : State), a ≠ b →
      writes b (fun k => bit (s.x b) k && bit (s.x a) k) s (exec (.andR a b 0) s) ∧
        writes b (fun k => bit (s.x b) k || bit (s.x a) k) s (exec (.orR a b 0) s) ∧
        writes b (fun k => bit (s.x b) k != bit (s.x a) k) s (exec (.xorR a b 0) s)) ∧
    (∀ (b : Reg) (inv : Bool) (n : BitVec 4) (s : State),
      writes b (fun k => bit (s.x b) k && mask inv n k) s (exec (.andM b inv false n) s) ∧
        writes b (fun k => bit (s.x b) k || mask inv n k) s (exec (.orM b inv false n) s) ∧
        writes b (fun k => bit (s.x b) k != mask inv n k) s (exec (.xorM b inv false n) s)) ∧
    (∀ (a b : Reg) (s : State), writes b (fun k => !bit (s.x b) k) s (exec (.not a b 0) s))

/-- `CBX` (R151). -/
def Obligations.BranchRule : Prop :=
  let branched (z c : Bool) (target : Word) (s : State) : State :=
    let taken := (z && bit s.sr 0) || (c && bit s.sr 1)
    { s with
      regs := if taken then s.regs.set .pc target else s.regs
      sr := if taken then 0x0000 else 0x0001 }
  let offset (f : BitVec 8) : Int := if f.toNat < 128 then f.toNat else (f.toNat : Int) - 256
  (∀ w : Word, field w 12 4 = 0x7 →
      decodeWord w = .ok
        (if bit w 11 then .cbxRel (bit w 10) (bit w 9) (bit w 8) (field w 0 8)
          else .cbxLr (bit w 10) (bit w 9) (field w 0 9))) ∧
    (∀ (z c : Bool) (v : BitVec 9) (s : State), v ≠ 0 → exec (.cbxLr z c v) s = .next (s.setFault .res 0)) ∧
    (∀ (z c : Bool) (f : BitVec 8) (s : State), exec (.cbxRel z c true f) s = .next (s.setFault .res 0)) ∧
    (∀ (z c : Bool) (s : State), exec (.cbxLr z c 0) s = .next (branched z c (s.x .lr) s)) ∧
    (∀ (z c : Bool) (f : BitVec 8) (s : State),
      exec (.cbxRel z c false f) s =
        .next (branched z c (BitVec.ofInt 16 ((s.x .pc).toNat + 2 * offset f)) s))

/-! ### Load, store, stack -/

/-- `LDST`, execute phase: channel, reserved bits, then exactly one action with the values of this moment (R161). -/
def Obligations.LoadStoreQueueRule : Prop :=
  (∀ w : Word, field w 12 4 = 0x8 →
      decodeWord w = .ok
        (if bit w 11 then .st (Reg.ofBits (field w 9 2)) (field w 0 9)
          else .ld (Reg.ofBits (field w 9 2)) (field w 0 9))) ∧
    (∀ (r : Reg) (v : BitVec 9) (s : State),
      (s.channelPresent .load = false → exec (.ld r v) s = .refused (.notAttempted .load)) ∧
        (s.channelPresent .store = false → exec (.st r v) s = .refused (.notAttempted .store))) ∧
    (∀ (r : Reg) (v : BitVec 9) (s : State), v ≠ 0 →
      (s.channelPresent .load = true → exec (.ld r v) s = .next (s.setFault .res 0)) ∧
        (s.channelPresent .store = true → exec (.st r v) s = .next (s.setFault .res 0))) ∧
    (∀ (r : Reg) (s : State), s.channelPresent .load = true →
      exec (.ld r 0) s = .next { s with newQ := s.newQ ++ [.load s.regs.lr r] }) ∧
    (∀ (r : Reg) (s : State), s.channelPresent .store = true →
      exec (.st r 0) s = .next { s with newQ := s.newQ ++ [.store s.regs.lr (s.x r)] })

/-- The Load handler (R163). -/
def Obligations.LoadHandlerRule : Prop :=
  ∀ (addr : Word) (r : Reg) (s : State), s.segsOk = true →
    let at0 := s.segs.ds.base + addr.toNat
    let w := (s.readByte at0).toNat + 256 * (s.readByte (at0 + 1)).toNat
    (addr.toNat % 2 = 1 → handle (.load addr r) s = (s.setFault .algn 0, .complete)) ∧
      (addr.toNat % 2 = 0 → s.segs.ds.len < addr.toNat + 2 →
        handle (.load addr r) s = (s.setFault .seg 0, .complete)) ∧
      (addr.toNat % 2 = 0 → addr.toNat + 2 ≤ s.segs.ds.len →
        handle (.load addr r) s =
          ({ s with regs := s.regs.set r (BitVec.ofNat 16 w), sr := flagsWord (decide (w = 0)) false }, .complete))

/-- The Store handler (R164), with its frame: every byte but the two of the word reads as before. -/
def Obligations.StoreHandlerRule : Prop :=
  ∀ (addr word : Word) (s : State), s.segsOk = true →
    let at0 := s.segs.ds.base + addr.toNat
    (addr.toNat % 2 = 1 → handle (.store addr word) s = (s.setFault .algn 0, .complete)) ∧
      (addr.toNat % 2 = 0 → s.segs.ds.len < addr.toNat + 2 →
        handle (.store addr word) s = (s.setFault .seg 0, .complete)) ∧
      (addr.toNat % 2 = 0 → addr.toNat + 2 ≤ s.segs.ds.len →
        ∃ t, handle (.store addr word) s = (t, .complete) ∧
          t = { s with mem := t.mem, sr := flagsWord (decide (word.toNat = 0)) false } ∧
          (t.readByte at0).toNat = word.toNat % 256 ∧ (t.readByte (at0 + 1)).toNat = word.toNat / 256 ∧
          ∀ a, a ≠ at0 → a ≠ at0 + 1 → t.readByte a = s.readByte a)

/-- A load returns the word that an earlier store to the same address put there (R62 (c)), whatever the registers and
flags have become in between. -/
def Obligations.LoadAfterStoreReturnsWord : Prop :=
  ∀ (addr word sr : Word) (r : Reg) (regs : Regs) (s t : State), s.segsOk = true → addr.toNat % 2 = 0 →
    addr.toNat + 2 ≤ s.segs.ds.len → handle (.store addr word) s = (t, .complete) →
      ∃ u, handle (.load addr r) { t with regs := regs, sr := sr } = (u, .complete) ∧ u.x r = word ∧
        ∀ q, q ≠ r → u.x q = regs.get q

/-- `STK`, execute phase (R166). -/
def Obligations.StackQueueRule : Prop :=
  (∀ w : Word, field w 12 4 = 0xB →
      decodeWord w = .ok
        (if bit w 11 then .push (field w 4 7) (field w 0 4) else .pop (field w 4 7) (field w 0 4))) ∧
    (∀ (v : BitVec 7) (m : BitVec 4) (s : State),
      (s.channelPresent .push = false → exec (.push v m) s = .refused (.notAttempted .push)) ∧
        (s.channelPresent .pop = false → exec (.pop v m) s = .refused (.notAttempted .pop))) ∧
    (∀ (v : BitVec 7) (m : BitVec 4) (s : State), v ≠ 0 ∨ m = 0 →
      (s.channelPresent .push = true → exec (.push v m) s = .next (s.setFault .res 0)) ∧
        (s.channelPresent .pop = true → exec (.pop v m) s = .next (s.setFault .res 0))) ∧
    (∀ (m : BitVec 4) (s : State), m ≠ 0 → s.channelPresent .push = true →
      exec (.push 0 m) s = .next { s with newQ := s.newQ ++ [.push m] }) ∧
    (∀ (m : BitVec 4) (s : State), m ≠ 0 → s.channelPresent .pop = true →
      exec (.pop 0 m) s = .next { s with newQ := s.newQ ++ [.pop m] })

/-- The Push handler (R168), with its frame: all words or none, each masked register at its place, every byte outside
the pushed words as before. That a push which fills a stack segment of 65536 bytes leaves `SP` = 0 is the model's
reading of R10, not R168's words (entry 12). -/
def Obligations.PushHandlerRule : Prop :=
  ∀ (m : BitVec 4) (s : State), s.segsOk = true →
    let n := popcount m
    let at0 := s.segs.ss.base + s.sp.toNat
    (s.segs.ss.len < s.sp.toNat + 2 * n → handle (.push m) s = (s.setFault .sof 0, .complete)) ∧
      (s.sp.toNat + 2 * n ≤ s.segs.ss.len →
        ∃ t, handle (.push m) s = (t, .complete) ∧
          t = { s with mem := t.mem, sp := BitVec.ofNat 16 (s.sp.toNat + 2 * n), sr := 0x0000 } ∧
          (∀ r, inMask m r = true → t.readWord (at0 + 2 * slotOf m r) = s.x r) ∧
          ∀ a, a < at0 ∨ at0 + 2 * n ≤ a → t.readByte a = s.readByte a)

/-- The Pop handler (R169). The premise `SP <= SS.len` is the invariant R169 names. -/
def Obligations.PopHandlerRule : Prop :=
  ∀ (m : BitVec 4) (s : State), s.segsOk = true → s.sp.toNat ≤ s.segs.ss.len →
    let n := popcount m
    let off := s.sp.toNat - 2 * n
    (s.sp.toNat < 2 * n → handle (.pop m) s = (s.setFault .suf 0, .complete)) ∧
      (2 * n ≤ s.sp.toNat →
        ∃ t, handle (.pop m) s = (t, .complete) ∧
          t = { s with regs := t.regs, sp := BitVec.ofNat 16 off, sr := 0x0000 } ∧
          ∀ r, t.x r = if inMask m r then s.readWord (s.segs.ss.base + off + 2 * slotOf m r) else s.x r)

/-- A pop with the mask of the latest push restores exactly what that push saved, and `SP` (R167), whatever the
registers and flags have become in between. A stack of 65536 bytes that the push fills is left out: `SP` then
wraps (entry 12). -/
def Obligations.PopUndoesPush : Prop :=
  ∀ (m : BitVec 4) (s t : State) (regs : Regs) (sr : Word), s.segsOk = true →
    s.sp.toNat + 2 * popcount m ≤ s.segs.ss.len → s.sp.toNat + 2 * popcount m < 65536 →
      handle (.push m) s = (t, .complete) →
        ∃ u, handle (.pop m) { t with regs := regs, sr := sr } = (u, .complete) ∧ u.sp = s.sp ∧
          (∀ r, u.x r = if inMask m r then s.x r else regs.get r) ∧ ∀ a, u.readByte a = t.readByte a

/-! ### Device ports -/

/-- `DPQ`, execute phase (R181). -/
def Obligations.QueryQueueRule : Prop :=
  (∀ w : Word, field w 12 4 = 0x9 → decodeWord w = .ok (.dpq (field w 3 9) (field w 0 3))) ∧
    (∀ (v : BitVec 9) (q : BitVec 3) (s : State), s.channelPresent .dpq = false →
      exec (.dpq v q) s = .refused (.notAttempted .dpq)) ∧
    (∀ (v : BitVec 9) (q : BitVec 3) (s : State), v ≠ 0 ∨ 6 ≤ q.toNat → s.channelPresent .dpq = true →
      exec (.dpq v q) s = .next (s.setFault .res 0)) ∧
    (∀ s : State, s.channelPresent .dpq = true →
      let queued (k : QueryKind) : Result := .next { s with newQ := s.newQ ++ [.query s.regs.r0 k] }
      exec (.dpq 0 0) s = queued .connected ∧ exec (.dpq 0 1) s = queued .readable ∧
        exec (.dpq 0 2) s = queued .writeable ∧ exec (.dpq 0 3) s = queued .exhausted ∧
        exec (.dpq 0 4) s = queued .busy ∧ exec (.dpq 0 5) s = queued .controlledByProgram)

/-- The Query handler and the six predicates: the answer goes inverted into `Z`, nothing but `SR` changes, no fault,
and without a port every answer is false (R182, R183, R233). -/
def Obligations.QueryHandlerRule : Prop :=
  ∀ (port : Word) (k : QueryKind) (s : State),
    ∃ b : Bool, handle (.query port k) s = ({ s with sr := if b then 0x0000 else 0x0001 }, .complete) ∧
      (b = true ↔ ∃ p, s.lookupPort port = some p ∧
        match k with
        | .connected => p.device ≠ none
        | .readable => p.busy = false ∧ p.controller = .program ∧ p.handoffReadable = true ∧
            ∃ m, p.mailbox = some m ∧ 0 < m.bytes.length
        | .writeable => p.busy = false ∧ p.controller = .program ∧ p.handoffReadable = false ∧
            ∃ m, p.mailbox = some m ∧ m.bytes.length < m.cap
        | .exhausted => p.controller = .program ∧ ∃ m, p.mailbox = some m ∧
            if p.handoffReadable then m.bytes.length = 0 else m.cap ≤ m.bytes.length
        | .busy => p.busy = true
        | .controlledByProgram => p.controller = .program)

/-- `DPO`, execute phase: the registers are captured in the action (R184). -/
def Obligations.DeviceOpQueueRule : Prop :=
  let queued (dir : Direction) (ind : Bool) (s : State) : Result :=
    .next { s with newQ := s.newQ ++
      [.transfer ⟨s.regs.r0, dir, ind, s.regs.lr, s.regs.lr, s.regs.r1, false, 0⟩] }
  (∀ (v : BitVec 9) (j : Bool) (s : State), s.channelPresent .dpo = false →
      exec (.dpoRelq j v) s = .refused (.notAttempted .dpo) ∧ exec (.dpoRd v) s = .refused (.notAttempted .dpo) ∧
        exec (.dpoWr v) s = .refused (.notAttempted .dpo) ∧ exec (.dpoRdI v) s = .refused (.notAttempted .dpo) ∧
        exec (.dpoWrI v) s = .refused (.notAttempted .dpo)) ∧
    (∀ (v : BitVec 9) (j : Bool) (s : State), v ≠ 0 → s.channelPresent .dpo = true →
      exec (.dpoRelq j v) s = .next (s.setFault .res 0) ∧ exec (.dpoRd v) s = .next (s.setFault .res 0) ∧
        exec (.dpoWr v) s = .next (s.setFault .res 0) ∧ exec (.dpoRdI v) s = .next (s.setFault .res 0) ∧
        exec (.dpoWrI v) s = .next (s.setFault .res 0)) ∧
    (∀ (v : BitVec 9) (s : State), s.channelPresent .dpo = true →
      exec (.dpoRelq true v) s = .next (s.setFault .res 0)) ∧
    (∀ (w : Word) (s : State), field w 12 4 = 0xA → field w 0 2 = 0 → s.channelPresent .dpo = true →
      s.handlerRemoved 0xA = false → execute w s = .next (State.setFault { s with ir := w } .res 0)) ∧
    (∀ w : Word, field w 12 4 = 0xA → field w 0 2 ≠ 0 →
      decodeWord w = .ok
        (if field w 0 2 = 1 then .dpoRelq (bit w 11) (field w 2 9)
          else if field w 0 2 = 2 then (if bit w 11 then .dpoRdI (field w 2 9) else .dpoRd (field w 2 9))
          else (if bit w 11 then .dpoWrI (field w 2 9) else .dpoWr (field w 2 9)))) ∧
    (∀ s : State, s.channelPresent .dpo = true →
      exec (.dpoRelq false 0) s = .next { s with newQ := s.newQ ++ [.relinquish s.regs.r0] } ∧
        exec (.dpoRd 0) s = queued .read false s ∧ exec (.dpoWr 0) s = queued .write false s ∧
        exec (.dpoRdI 0) s = queued .read true s ∧ exec (.dpoWrI 0) s = queued .write true s)

/-- The Relinquish handler and the hand-off it makes (R247, R249). -/
def Obligations.RelinquishHandlerRule : Prop :=
  ∀ (port : Word) (s : State),
    ((∀ p, s.lookupPort port = some p → p.busy = true ∨ p.controller ≠ .program) →
        handle (.relinquish port) s = (s.setFault .ido 0, .complete)) ∧
      (∀ p, s.lookupPort port = some p → p.busy = false → p.controller = .program →
        ∃ t, handle (.relinquish port) s = (t, .complete) ∧ t = { s with ports := t.ports, sr := 0x0000 } ∧
          portsChangedAt s t port
            { p with
              mailbox := if p.handoffReadable then p.mailbox.map (fun m => ⟨m.cap, []⟩) else p.mailbox
              handoffReadable := false
              controller := .device })

/-- The direct read handler (R250, R252). -/
def Obligations.DirectReadRule : Prop :=
  ∀ (x : Transfer) (s : State), x.indirect = false → x.dir = .read →
    ((∀ p m, ¬readableAt s x.port p m) → handle (.transfer x) s = (s.setFault .ido 0, .complete)) ∧
      (∀ p m, readableAt s x.port p m →
        let b0 := (m.bytes.headD 0).toNat
        let b1 := if 2 ≤ m.bytes.length then (m.bytes.tail.headD 0).toNat else 0
        let left := m.bytes.length - min 2 m.bytes.length
        ∃ t, handle (.transfer x) s = (t, .complete) ∧
          t = { s with
            regs := s.regs.set .lr (BitVec.ofNat 16 (b0 + 256 * b1))
            ports := t.ports
            sr := flagsWord (decide (left = 0)) (decide (0 < left)) } ∧
          portsChangedAt s t x.port { p with mailbox := some ⟨m.cap, m.bytes.drop (min 2 m.bytes.length)⟩ })

/-- The direct write handler (R251, R252). -/
def Obligations.DirectWriteRule : Prop :=
  ∀ (x : Transfer) (s : State), x.indirect = false → x.dir = .write →
    ((∀ p m, ¬writeableAt s x.port p m) → handle (.transfer x) s = (s.setFault .ido 0, .complete)) ∧
      (∀ p m, writeableAt s x.port p m →
        let low : Byte := BitVec.ofNat 8 (x.word.toNat % 256)
        let high : Byte := BitVec.ofNat 8 (x.word.toNat / 256)
        let bytes := if m.bytes.length + 2 ≤ m.cap then m.bytes ++ [low, high] else m.bytes ++ [low]
        let left := m.cap - bytes.length
        ∃ t, handle (.transfer x) s = (t, .complete) ∧
          t = { s with ports := t.ports, sr := flagsWord (decide (left = 0)) (decide (0 < left)) } ∧
          portsChangedAt s t x.port { p with mailbox := some ⟨m.cap, bytes⟩ })

/-- The first resolution of an indirect transfer: admission, alignment, then the set-up (clamp with `SEG`, total to
`R1`, flags, busy), and the chunk of R255 in the same resolution (R252, R253, R254). -/
def Obligations.IndirectStartRule : Prop :=
  ∀ (x : Transfer) (s : State), x.indirect = true → x.started = false →
    ((∀ p m, ¬admittedAt x.dir s x.port p m) → handle (.transfer x) s = (s.setFault .ido 0, .complete)) ∧
      (∀ p m, admittedAt x.dir s x.port p m → x.addr.toNat % 2 = 1 →
        handle (.transfer x) s = (s.setFault .algn 0, .complete)) ∧
      (∀ p m, admittedAt x.dir s x.port p m → x.addr.toNat % 2 = 0 →
        let avail := match x.dir with
          | .read => m.bytes.length
          | .write => m.cap - m.bytes.length
        let valid := if s.segs.ds.len ≤ x.addr.toNat then 0 else s.segs.ds.len - x.addr.toNat
        let req := if valid < x.len.toNat then valid else x.len.toNat
        let total := if req ≤ avail then req else avail
        let clamped := if valid < x.len.toNat then s.setFault .seg 0 else s
        ∃ u, u = { clamped with
              regs := s.regs.set .r1 (BitVec.ofNat 16 total)
              sr := flagsWord (decide (total = avail)) (decide (total < avail))
              ports := u.ports } ∧
          portsChangedAt s u x.port { p with busy := true } ∧
          handle (.transfer x) s = handle (.transfer { x with started := true, remaining := total }) u)

/-- One chunk of a started indirect transfer and its end: the bytes, the memory frame, and whether the action is
*complete* or *ongoing* (R255, R256). The premises are what holds of an action in flight, and of a transfer just
started, of no bytes where the clamp of R254 leaves none. -/
def Obligations.IndirectChunkRule : Prop :=
  ∀ (x : Transfer) (p : Port) (m : Mailbox) (s : State), x.indirect = true → x.started = true →
    s.segsOk = true → s.lookupPort x.port = some p → p.mailbox = some m →
    (x.remaining = 0 ∨ x.addr.toNat + x.remaining ≤ s.segs.ds.len) →
      let speed := match p.device with
        | some d => d.speed
        | none => 0
      let avail := match x.dir with
        | .read => m.bytes.length
        | .write => m.cap - m.bytes.length
      let wanted := if speed = 0 then x.remaining else min speed x.remaining
      let n := min wanted avail
      let at0 := s.segs.ds.base + x.addr.toNat
      let bytes := match x.dir with
        | .read => m.bytes.drop n
        | .write => m.bytes ++ (List.range n).map (fun j => s.readByte (at0 + j))
      let done := decide (x.remaining = n) || decide (avail = n)
      ∃ t, (handle (.transfer x) s).1 = t ∧ t = { s with mem := t.mem, ports := t.ports } ∧
        (∀ a, t.readByte a =
          if x.dir = .read ∧ at0 ≤ a ∧ a < at0 + n then m.bytes.getD (a - at0) 0 else s.readByte a) ∧
        portsChangedAt s t x.port
          { p with mailbox := some ⟨m.cap, bytes⟩, busy := if done then false else p.busy } ∧
        (handle (.transfer x) s).2 =
          if done then .complete
          else .ongoing (.transfer
            { x with addr := BitVec.ofNat 16 (x.addr.toNat + n), remaining := x.remaining - n })

/-- An indirect transfer of `n` bytes with speed `v > 0` completes in resolution `ceil(n / v)` (R330, R286). -/
def Obligations.ThrottledTransferTakesCeilCycles : Prop :=
  ∀ (x : Transfer) (p : Port) (m : Mailbox) (v : Nat) (s : State), x.indirect = true → x.started = true →
    s.segsOk = true → s.lookupPort x.port = some p → p.mailbox = some m → p.device = some ⟨v⟩ → 0 < v →
    0 < x.remaining → x.addr.toNat + x.remaining ≤ s.segs.ds.len →
    (match x.dir with
      | .read => x.remaining ≤ m.bytes.length
      | .write => m.bytes.length + x.remaining ≤ m.cap) →
      resolutionsToEnd x.remaining x s = some ((x.remaining + v - 1) / v)

/-- The device-side operations: legal only while the device controls the mailbox, each with its effect on the port and no
other; an illegal one has no effect and reports failure to the device (R240 to R244). The report is a list of the
model's own (entry 21). Where no device is connected there is none to act (R18). -/
def Obligations.DeviceOperationRule : Prop :=
  (∀ (port : Word) (m : DeviceMove) (s : State), (∀ p, s.lookupPort port = some p → p.device = none) →
      applyMove (.device port m) s = s) ∧
    ∀ (port : Word) (p : Port) (d : Device) (n : Nat) (b : Byte) (s : State), s.lookupPort port = some p →
      p.device = some d →
        let attempt (m : DeviceMove) : State := applyMove (.device port m) s
        let refusedOnly (t : State) : Prop := t = { s with deviceFailures := s.deviceFailures ++ [port] }
        let becomes (t : State) (q : Port) : Prop := t = { s with ports := t.ports } ∧ portsChangedAt s t port q
        (p.controller = .program → ∀ m, refusedOnly (attempt m)) ∧
          (p.controller = .device →
            becomes (attempt (.allocate n)) { p with mailbox := some ⟨n, []⟩ } ∧
              becomes (attempt .deallocate) { p with mailbox := none } ∧
              (p.mailbox = none →
                refusedOnly (attempt .relinquish) ∧ refusedOnly (attempt (.push b)) ∧ refusedOnly (attempt .pop)) ∧
              (∀ m, p.mailbox = some m →
                becomes (attempt .relinquish)
                    { p with controller := .program, handoffReadable := decide (m.bytes ≠ []) } ∧
                  (m.cap ≤ m.bytes.length → refusedOnly (attempt (.push b))) ∧
                  (m.bytes.length < m.cap →
                    becomes (attempt (.push b)) { p with mailbox := some ⟨m.cap, m.bytes ++ [b]⟩ }) ∧
                  (m.bytes = [] → refusedOnly (attempt .pop)) ∧
                  (m.bytes ≠ [] → becomes (attempt .pop) { p with mailbox := some ⟨m.cap, m.bytes.tail⟩ })))

/-- Mailbox hand-off: a device that allocates a mailbox, writes bytes into it and relinquishes it leaves a port that
reports Readable with exactly these bytes, oldest first; one direct read then returns the first two of them (R257,
R243, R250). -/
def Obligations.MailboxHandoffDeliversBytes : Prop :=
  ∀ (port : Word) (p : Port) (cap : Nat) (b0 b1 : Byte) (rest : List Byte) (x : Transfer) (s : State),
    s.lookupPort port = some p → p.device ≠ none → p.controller = .device → p.busy = false → rest.length + 2 ≤ cap →
      x.port = port → x.indirect = false → x.dir = .read →
      let t := applyMoves
        (([DeviceMove.allocate cap] ++ (b0 :: b1 :: rest).map DeviceMove.push ++ [DeviceMove.relinquish]).map
          (EnvMove.device port)) s
      readableAt t port { p with
          mailbox := some ⟨cap, b0 :: b1 :: rest⟩, controller := .program, handoffReadable := true }
          ⟨cap, b0 :: b1 :: rest⟩ ∧
        ∃ u, handle (.transfer x) t = (u, .complete) ∧ u.x .lr = b1 ++ b0 ∧
          (rest ≠ [] ↔ ∃ q m, readableAt u port q m)

/-! ### Signals -/

/-- `SIG`, execute phase (R188). -/
def Obligations.SignalQueueRule : Prop :=
  (∀ w : Word, field w 12 4 = 0xC → decodeWord w = .ok (.sig (field w 0 12))) ∧
    (∀ (v : BitVec 12) (s : State), s.channelPresent .signal = false →
      exec (.sig v) s = .refused (.notAttempted .signal)) ∧
    (∀ (v : BitVec 12) (s : State), v ≠ 0 → s.channelPresent .signal = true →
      exec (.sig v) s = .next (s.setFault .res 0)) ∧
    (∀ s : State, s.channelPresent .signal = true →
      exec (.sig 0) s =
        .next { s with newQ := s.newQ ++ [.signal ⟨s.regs.r0, s.regs.r1, s.regs.lr, s.regs.pc⟩] })

/-- The Signal handler (R189), and what `SIGNAL_EFFECT` may not change: a register, `FAULT`, a queue, a byte of a
segment (R187); with no effect pending, the default, it changes nothing. That an accepted signal is recorded in
`signals`, that `SIGNAL_VALID` and `SIGNAL_EFFECT` are lists, and that a port the program controls is left alone, is
the model's choice (entry 5). -/
def Obligations.SignalHandlerRule : Prop :=
  ∀ (c : SignalCall) (s : State),
    (c.arg0 ∉ s.cfg.signalValid →
        handle (.signal c) s = (s.setFault .sig (BitVec.ofNat 12 (c.arg0.toNat % 4096)), .complete)) ∧
      (c.arg0 ∈ s.cfg.signalValid →
        ∃ t, handle (.signal c) s = (t, .complete) ∧
          t = { s with
            signals := s.signals ++ [c]
            signalEffects := s.signalEffects.tail
            sr := 0x0000
            ports := t.ports
            mem := t.mem
            deviceFailures := t.deviceFailures } ∧
          (∀ a, s.inSegments a = true → t.readByte a = s.readByte a) ∧
          (∀ port p, s.lookupPort port = some p → p.controller = .program → t.lookupPort port = some p) ∧
          (s.signalEffects = [] → t = { s with signals := s.signals ++ [c], sr := 0x0000 }))

/-! ### The resolution pass -/

/-- The model's pass over the two queues is `ResolveCycle()` as R205 writes it, with an index into the ongoing queue and
the queue depths of R8. What a full queue does is the model's choice (entry 11). -/
def Obligations.ResolutionPassFollowsPseudocode : Prop :=
  ∀ s : State, resolveCycle s = passByIndex s

/-- The one action an instruction queues is resolved in the same cycle, and alone decides the cycle's outcome when
nothing else is queued: *complete* is discarded, *ongoing* is kept, *failed* records `SPV` (R62, R205). The premises on
the depths of R8 hold of the defaults; a queue with no place at all is the model's choice (entry 11). -/
def Obligations.QueuedActionResolvesInItsCycle : Prop :=
  ∀ (i : Instr) (a : Action) (s : State), s.quiet → 0 < s.cfg.newQDepth → s.cfg.ongoingQDepth ≠ some 0 →
    exec i s = .next { s with newQ := [a] } →
      thenResolve (exec i s) = .next
        (match handle a s with
          | (t, .complete) => t
          | (t, .ongoing a') => { t with ongoing := [a'] }
          | (t, .failed) => t.setFault .spv 0)

/-- The ongoing queue needs at most one entry for each port (R214): it never holds more, and a transfer that becomes
*ongoing* in its first resolution finds a place left among as many as there are ports. -/
def Obligations.OngoingQueueFitsPorts : Prop :=
  ∀ s : State, DeviceInv s →
    s.ongoing.length ≤ s.ports.length ∧
      ∀ (x : Transfer) (a : Action) (t : State), x.started = false → handle (.transfer x) s = (t, .ongoing a) →
        s.ongoing.length < s.ports.length

/-! ### Frames and whole-machine rules -/

/-- What an execute phase can change: the instruction's destination registers, `SR`, the fault register and its latch,
and the tail of the new queue, by at most one action, which only a delegating instruction queues and which is then all
it changes. No byte of memory changes (R38, R204). -/
def Obligations.ExecutePhaseFrame : Prop :=
  ∀ (i : Instr) (s t : State), exec i s = .next t →
    t = { s with
      regs := t.regs, sr := t.sr, fault := t.fault, faultWritten := t.faultWritten, newQ := t.newQ } ∧
      (∀ r, r ∉ writtenRegs i → t.x r = s.x r) ∧
      (∀ a, t.readByte a = s.readByte a) ∧
      (t.newQ = s.newQ ∨ ∃ a, channelOf i ≠ none ∧ t = { s with newQ := s.newQ ++ [a] })

/-- Only `CBX` reads `SR`: for every other instruction, two runs that differ only in `SR` end alike, and differ, if at
all, only in an `SR` the instruction left alone (R150). -/
def Obligations.OnlyBranchReadsStatus : Prop :=
  ∀ (i : Instr) (v : Word) (s : State), isBranch i = false →
    (∀ r, exec i s = .refused r ↔ exec i (s.withSr v) = .refused r) ∧
      ∀ t, exec i s = .next t →
        exec i (s.withSr v) = .next t ∨ (t.sr = s.sr ∧ exec i (s.withSr v) = .next (t.withSr v))

/-- No cycle writes a byte of the code segment (R66); with no effect of a signal pending (entry 5) none writes a byte
outside the data and stack segments at all. The premise on the ongoing queue is the invariant `DeviceInv`. -/
def Obligations.CodeSegmentNeverWritten : Prop :=
  ∀ (s t : State) (a : Nat), s.segsOk = true → DeviceInv s → cycle s = .next t →
    (s.inCode a ∨
      (s.signalEffects = [] ∧ (a < s.segs.ds.base ∨ s.segs.ds.base + s.segs.ds.len ≤ a) ∧
        (a < s.segs.ss.base ∨ s.segs.ss.base + s.segs.ss.len ≤ a))) →
      t.readByte a = s.readByte a

/-- `SHFT` left by `k` and then right by `k` leaves the low `16 - k` bits and zeroes the others; the second shift
leaves `C` clear (R135). -/
def Obligations.ShiftRoundTrip : Prop :=
  ∀ (b : Reg) (k : BitVec 5) (s t : State), k.toNat < 16 → exec (.shftL b 0 k) s = .next t →
    ∃ u, exec (.shftL b 0 (-k)) t = .next u ∧ (u.x b).toNat = (s.x b).toNat % 2 ^ (16 - k.toNat) ∧
      bit u.sr 1 = false ∧ (bit t.sr 1 = true ↔ (s.x b).toNat / 2 ^ (16 - k.toNat) ≠ 0)

/-- `SUB` then `CBX` is a comparison: with condition `Z` the branch is taken on equal, with `C` on unsigned below, with
both on below or equal, with none never (R113, R152). -/
def Obligations.CompareThenBranch : Prop :=
  ∀ (a b : Reg) (z c : Bool) (f : BitVec 8) (s t : State), a ≠ b → b ≠ .pc → f ≠ 0 →
    exec (.subR a b 0) s = .next t →
      ∃ u, exec (.cbxRel z c false f) t = .next u ∧
        (u.x .pc ≠ s.x .pc ↔
          (z = true ∧ (s.x b).toNat = (s.x a).toNat) ∨ (c = true ∧ (s.x b).toNat < (s.x a).toNat))

/-! ### Invariants -/

/-- The invariants hold after reset (R39). The segment table of State.reset (entry 2) and its empty memory list, in the
canonical form that `MemoryInv` asks for (entry 1), are the model's choice. -/
def Obligations.ResetMeetsInvariants : Prop :=
  MemoryInv State.reset ∧ StatusInv State.reset ∧ StackInv State.reset ∧ FaultInv State.reset ∧
    DeviceInv State.reset ∧ State.reset.segsOk = true

/-- Every step keeps the memory list inside the store (R50) and in its canonical form: addresses rising, no byte equal
to what an unlisted address reads as. That form is the model's choice (entry 1), not R50's. -/
def Obligations.EveryStepKeepsMemoryInv : Prop :=
  ∀ s t : State, MemoryInv s → step s = .next t → MemoryInv t

/-- Every step keeps the bits of `SR` outside its two flags zero (R25). -/
def Obligations.EveryStepKeepsStatusInv : Prop :=
  ∀ s t : State, StatusInv s → step s = .next t → StatusInv t

/-- Every step keeps `SP` even and inside the stack segment (R28, R169). -/
def Obligations.EveryStepKeepsStackInv : Prop :=
  ∀ s t : State, StackInv s → step s = .next t → StackInv t

/-- No step produces a fault kind above 11 (R271). -/
def Obligations.EveryStepKeepsFaultInv : Prop :=
  ∀ s t : State, FaultInv s → step s = .next t → FaultInv t

/-- Every step keeps the ports and the ongoing queue as R234, R32 and R214 have them: no mailbox over-full, a mailbox
wherever the program is in control, program control wherever a port is busy, and only started indirect transfers
queued, each inside the data segment, each on its own busy port. -/
def Obligations.EveryStepKeepsDeviceInv : Prop :=
  ∀ s t : State, DeviceInv s → step s = .next t → DeviceInv t

/-- A port is busy only while a transfer for it is in the ongoing queue (R234 (b)): every step keeps this, but for the two
ways R209 (b) and R311 name of leaving a port busy, a failure the parameter `ACTION_FAILS` answers and a reset that
does not re-initialise the ports. -/
def Obligations.EveryStepKeepsBusyPortsQueued : Prop :=
  ∀ s t : State, DeviceInv s → BusyInv s → s.resolverAnswers = [] →
    (∀ m ∈ s.env.headD [], resetsBlockAlone m = false) → step s = .next t → BusyInv t

end Statements
end

