-- ==== Sys2Proof/Laws/Encoding.lean ====
section
/-! SUPPORT. The small lemmas of the encoder and the decoder: what a bit or a field of an assembled word is. -/

namespace Sys2Proof

theorem bit_or (x y : Word) (i : Nat) : bit (x ||| y) i = (bit x i || bit y i) := by
  simp [bit]

theorem bit_put {n : Nat} (lo i : Nat) (x : BitVec n) :
    bit (put lo x) i = (decide (i < 16) && decide (lo ≤ i) && x.getLsbD (i - lo)) := by
  unfold put bit
  rw [BitVec.getLsbD_shiftLeft, BitVec.getLsbD_setWidth]
  by_cases h : i < 16
  · have : i - lo < 16 := by omega
    by_cases h2 : lo ≤ i
    · simp [h, this, h2]
    · simp [h, h2]
  · simp [h]

theorem field_or (x y : Word) (lo n : Nat) : field (x ||| y) lo n = field x lo n ||| field y lo n := by
  apply BitVec.eq_of_getLsbD_eq
  intro i hi
  simp [field, Bool.and_or_distrib_left]

theorem getLsbD_field (w : Word) (lo n i : Nat) :
    (field w lo n).getLsbD i = (decide (i < n) && bit w (lo + i)) := by
  simp [field, bit]

/-- A bit of a word is a bit of any field that covers it. -/
theorem bit_eq_field (w : Word) (lo n i : Nat) (h : i < n) : bit w (lo + i) = (field w lo n).getLsbD i := by
  simp only [getLsbD_field, h, decide_true, Bool.true_and]

theorem field_put_same {n : Nat} (lo : Nat) (x : BitVec n) (h : lo + n ≤ 16) : field (put lo x) lo n = x := by
  apply BitVec.eq_of_getLsbD_eq
  intro i hi
  have : lo + i < 16 := by omega
  rw [getLsbD_field, bit_put]
  simp only [this, hi, decide_true, Bool.true_and, Nat.le_add_right, Nat.add_sub_cancel_left]

theorem field_put_apart {n : Nat} (lo' lo w : Nat) (x : BitVec n) (h : lo' + n ≤ lo ∨ lo + w ≤ lo') :
    field (put lo' x) lo w = 0 := by
  apply BitVec.eq_of_getLsbD_eq
  intro i hi
  rw [getLsbD_field, bit_put]
  rcases h with h | h
  · have : n ≤ lo + i - lo' := by omega
    simp [BitVec.getLsbD_of_ge _ _ this]
  · have : ¬lo' ≤ lo + i := by omega
    simp [this]

@[simp] theorem ofBits_bits (r : Reg) : Reg.ofBits r.bits = r := by
  cases r <;> rfl

@[simp] theorem bits_ofBits (n : BitVec 2) : (Reg.ofBits n).bits = n := by
  revert n
  decide

theorem bits_inj (a b : Reg) : a.bits = b.bits ↔ a = b := by
  cases a <;> cases b <;> decide

/-- The opcode of a word, bit by bit. -/
theorem opcode_bits (w : Word) (op : BitVec 4) (h : field w 12 4 = op) :
    bit w 15 = op.getLsbD 3 ∧ bit w 14 = op.getLsbD 2 ∧ bit w 13 = op.getLsbD 1 ∧ bit w 12 = op.getLsbD 0 := by
  subst h
  exact ⟨bit_eq_field w 12 4 3 (by omega), bit_eq_field w 12 4 2 (by omega), bit_eq_field w 12 4 1 (by omega),
    bit_eq_field w 12 4 0 (by omega)⟩

/-- Two words are equal if they agree on every bit. -/
theorem word_ext (x y : Word) (h : ∀ i, i < 16 → bit x i = bit y i) : x = y :=
  BitVec.eq_of_getLsbD_eq (fun i hi => h i hi)

end Sys2Proof
end

