-- ==== Sys2Proof/Laws/Memory.lean ====
section
/-! SUPPORT. The laws of the memory store: read after write, every other address left alone, the canonical form
kept, addresses kept inside the store. -/

namespace Sys2Proof.Machine.Memory

theorem read_insert (a x : Nat) (v : Byte) (m : List Host.Cell) (h : ∀ c ∈ m, c.1 ≠ a) :
    read (insert a v m) x = if a = x then v else read m x := by
  induction m with
  | nil => simp [insert, read]
  | cons c rest ih =>
    have hc : c.1 ≠ a := h c (by simp)
    have ih' := ih (fun d hd => h d (by simp [hd]))
    unfold insert
    split
    · simp [read]
    · by_cases hx : c.1 = x
      · have : a ≠ x := fun e => hc (by omega)
        simp [read, hx, this]
      · simp [read, hx, ih']

theorem read_filter_same (m : List Host.Cell) (a : Nat) :
    read (m.filter (fun c => c.1 != a)) a = unlistedByte := by
  induction m with
  | nil => rfl
  | cons c rest ih =>
    by_cases h : c.1 = a
    · rw [List.filter_cons_of_neg (by simp [h]), ih]
    · rw [List.filter_cons_of_pos (by simp [h]), read, if_neg h, ih]

theorem read_filter_ne (m : List Host.Cell) (a x : Nat) (hx : a ≠ x) :
    read (m.filter (fun c => c.1 != a)) x = read m x := by
  induction m with
  | nil => rfl
  | cons c rest ih =>
    by_cases h : c.1 = a
    · have : c.1 ≠ x := by omega
      rw [List.filter_cons_of_neg (by simp [h]), ih, read, if_neg this]
    · rw [List.filter_cons_of_pos (by simp [h]), read, read, ih]

/-- What a byte reads as after one byte is written. -/
theorem read_write (m : List Host.Cell) (a x : Nat) (v : Byte) :
    read (write m a v) x = if a = x then v else read m x := by
  unfold write
  split
  · rename_i hv
    by_cases hx : a = x
    · subst hx; simp [read_filter_same, hv]
    · simp [hx, read_filter_ne m a x hx]
  · rw [read_insert]
    · by_cases hx : a = x
      · simp [hx]
      · simp [hx, read_filter_ne m a x hx]
    · intro c hc
      simpa using (List.mem_filter.mp hc).2

@[simp] theorem read_write_same (m : List Host.Cell) (a : Nat) (v : Byte) : read (write m a v) a = v := by
  simp [read_write]

theorem read_write_ne (m : List Host.Cell) (a x : Nat) (v : Byte) (h : a ≠ x) :
    read (write m a v) x = read m x := by
  simp [read_write, h]

/-- What a byte reads as after a word is written. -/
theorem read_writeWord (m : List Host.Cell) (a x : Nat) (v : Word) :
    read (writeWord m a v) x =
      if x = a then v.extractLsb' 0 8 else if x = a + 1 then v.extractLsb' 8 8 else read m x := by
  unfold writeWord
  by_cases h1 : x = a
  · subst h1; rw [read_write_ne _ _ _ _ (by omega)]; simp
  · by_cases h2 : x = a + 1
    · subst h2; simp
    · simp [read_write, h1, h2, Ne.symm h1, Ne.symm h2]

theorem readWord_writeWord (m : List Host.Cell) (a : Nat) (v : Word) : readWord (writeWord m a v) a = v := by
  have h1 : read (writeWord m a v) (a + 1) = v.extractLsb' 8 8 := by simp [read_writeWord]
  have h0 : read (writeWord m a v) a = v.extractLsb' 0 8 := by simp [read_writeWord]
  rw [readWord, h1, h0]
  apply BitVec.eq_of_getLsbD_eq
  intro i hi
  rw [BitVec.getLsbD_append]
  by_cases h : i < 8
  · simp [h]
  · have h8 : i - 8 < 8 := by omega
    have : 8 + (i - 8) = i := by omega
    simp [h, h8, this]

/-- What a byte reads as after consecutive bytes are written. -/
theorem read_writeBytes (vs : List Byte) (m : List Host.Cell) (a x : Nat) :
    read (writeBytes m a vs) x = if a ≤ x ∧ x < a + vs.length then vs.getD (x - a) unlistedByte else read m x := by
  induction vs generalizing m a with
  | nil =>
    simp [writeBytes]
  | cons v rest ih =>
    rw [writeBytes, ih]
    by_cases h : a = x
    · subst h
      simp
    · by_cases h2 : a + 1 ≤ x ∧ x < a + 1 + rest.length
      · have h3 : a ≤ x ∧ x < a + (rest.length + 1) := by omega
        have h4 : x - a = (x - (a + 1)) + 1 := by omega
        simp [h2, h3, h4]
      · have h3 : ¬(a ≤ x ∧ x < a + (rest.length + 1)) := by omega
        rw [if_neg h2, List.length_cons, if_neg h3, read_write_ne _ _ _ _ h]

theorem length_readBytes (m : List Host.Cell) (a n : Nat) : (readBytes m a n).length = n := by
  induction n generalizing a with
  | zero => rfl
  | succ n ih => simp [readBytes, ih]

theorem mem_insert (a : Nat) (v : Byte) (m : List Host.Cell) (c : Host.Cell) :
    c ∈ insert a v m ↔ c = (a, v) ∨ c ∈ m := by
  induction m with
  | nil => simp [insert]
  | cons d rest ih =>
    unfold insert
    split
    · simp
    · simp only [List.mem_cons, ih]
      tauto

theorem pairwise_insert (a : Nat) (v : Byte) (m : List Host.Cell)
    (hm : m.Pairwise (fun c d => c.1 < d.1)) (h : ∀ c ∈ m, c.1 ≠ a) :
    (insert a v m).Pairwise (fun c d => c.1 < d.1) := by
  induction m with
  | nil => simp [insert]
  | cons c rest ih =>
    rw [List.pairwise_cons] at hm
    have hc : c.1 ≠ a := h c (by simp)
    unfold insert
    split
    · rename_i hlt
      rw [List.pairwise_cons, List.pairwise_cons]
      refine ⟨?_, hm⟩
      intro d hd
      rcases List.mem_cons.mp hd with rfl | hd
      · exact hlt
      · have := hm.1 d hd
        simp only
        omega
    · rw [List.pairwise_cons]
      refine ⟨?_, ih hm.2 (fun d hd => h d (by simp [hd]))⟩
      intro d hd
      rcases (mem_insert a v rest d).mp hd with rfl | hd
      · simp only
        omega
      · exact hm.1 d hd

/-- One byte written keeps the canonical form. -/
theorem wf_write (m : List Host.Cell) (a : Nat) (v : Byte) (h : wf m) : wf (write m a v) := by
  have hf : wf (m.filter (fun c => c.1 != a)) :=
    ⟨h.1.filter _, fun c hc => h.2 c (List.mem_filter.mp hc).1⟩
  unfold write
  split
  · exact hf
  · rename_i hv
    refine ⟨pairwise_insert a v _ hf.1 ?_, ?_⟩
    · intro c hc
      simpa using (List.mem_filter.mp hc).2
    · intro c hc
      rcases (mem_insert a v _ c).mp hc with rfl | hc
      · exact hv
      · exact hf.2 c hc

theorem wf_writeWord (m : List Host.Cell) (a : Nat) (v : Word) (h : wf m) : wf (writeWord m a v) :=
  wf_write _ _ _ (wf_write _ _ _ h)

theorem wf_writeBytes (vs : List Byte) (m : List Host.Cell) (a : Nat) (h : wf m) : wf (writeBytes m a vs) := by
  induction vs generalizing m a with
  | nil => exact h
  | cons v rest ih => exact ih _ _ (wf_write _ _ _ h)

/-- A write lists no address but those listed before and its own. -/
theorem mem_write (m : List Host.Cell) (a : Nat) (v : Byte) (c : Host.Cell) (h : c ∈ write m a v) :
    c.1 = a ∨ c ∈ m := by
  unfold write at h
  split at h
  · exact .inr (List.mem_filter.mp h).1
  · rcases (mem_insert a v _ c).mp h with rfl | h
    · exact .inl rfl
    · exact .inr (List.mem_filter.mp h).1

theorem mem_writeWord (m : List Host.Cell) (a : Nat) (v : Word) (c : Host.Cell) (h : c ∈ writeWord m a v) :
    c.1 = a ∨ c.1 = a + 1 ∨ c ∈ m := by
  rcases mem_write _ _ _ _ h with h | h
  · exact .inr (.inl h)
  · rcases mem_write _ _ _ _ h with h | h
    · exact .inl h
    · exact .inr (.inr h)

theorem mem_writeBytes (vs : List Byte) (m : List Host.Cell) (a : Nat) (c : Host.Cell)
    (h : c ∈ writeBytes m a vs) : (a ≤ c.1 ∧ c.1 < a + vs.length) ∨ c ∈ m := by
  induction vs generalizing m a with
  | nil => exact .inr h
  | cons v rest ih =>
    rcases ih _ _ h with h | h
    · left
      simp only [List.length_cons]
      omega
    · rcases mem_write _ _ _ _ h with h | h
      · left
        simp only [List.length_cons]
        omega
      · exact .inr h

/-- Right after reset memory is in its canonical form. -/
theorem reset_wf : wf State.reset.mem :=
  ⟨List.Pairwise.nil, fun _ h => nomatch h⟩

end Sys2Proof.Machine.Memory
end

