-- ==== Sys2Proof/Laws/State.lean ====
section
/-! SUPPORT. One lemma per field per update of State, each true by rfl: no later proof unfolds a record update. -/

namespace Sys2Proof.Machine.State

variable (s : State)

/-! ### setX -/

@[simp] theorem setX_regs (i : Reg) (v : Word) : (s.setX i v).regs = s.regs.set i v := rfl
@[simp] theorem setX_sr (i : Reg) (v : Word) : (s.setX i v).sr = s.sr := rfl
@[simp] theorem setX_ir (i : Reg) (v : Word) : (s.setX i v).ir = s.ir := rfl
@[simp] theorem setX_sp (i : Reg) (v : Word) : (s.setX i v).sp = s.sp := rfl
@[simp] theorem setX_fault (i : Reg) (v : Word) : (s.setX i v).fault = s.fault := rfl
@[simp] theorem setX_faultWritten (i : Reg) (v : Word) : (s.setX i v).faultWritten = s.faultWritten := rfl
@[simp] theorem setX_newQ (i : Reg) (v : Word) : (s.setX i v).newQ = s.newQ := rfl
@[simp] theorem setX_ongoing (i : Reg) (v : Word) : (s.setX i v).ongoing = s.ongoing := rfl
@[simp] theorem setX_segs (i : Reg) (v : Word) : (s.setX i v).segs = s.segs := rfl
@[simp] theorem setX_mem (i : Reg) (v : Word) : (s.setX i v).mem = s.mem := rfl
@[simp] theorem setX_ports (i : Reg) (v : Word) : (s.setX i v).ports = s.ports := rfl
@[simp] theorem setX_cfg (i : Reg) (v : Word) : (s.setX i v).cfg = s.cfg := rfl
@[simp] theorem setX_signals (i : Reg) (v : Word) : (s.setX i v).signals = s.signals := rfl
@[simp] theorem setX_signalEffects (i : Reg) (v : Word) : (s.setX i v).signalEffects = s.signalEffects := rfl
@[simp] theorem setX_deviceFailures (i : Reg) (v : Word) : (s.setX i v).deviceFailures = s.deviceFailures := rfl
@[simp] theorem setX_resolverAnswers (i : Reg) (v : Word) : (s.setX i v).resolverAnswers = s.resolverAnswers := rfl
@[simp] theorem setX_env (i : Reg) (v : Word) : (s.setX i v).env = s.env := rfl

/-! ### setIr -/

@[simp] theorem setIr_regs (w : Word) : (s.setIr w).regs = s.regs := rfl
@[simp] theorem setIr_sr (w : Word) : (s.setIr w).sr = s.sr := rfl
@[simp] theorem setIr_ir (w : Word) : (s.setIr w).ir = w := rfl
@[simp] theorem setIr_sp (w : Word) : (s.setIr w).sp = s.sp := rfl
@[simp] theorem setIr_fault (w : Word) : (s.setIr w).fault = s.fault := rfl
@[simp] theorem setIr_faultWritten (w : Word) : (s.setIr w).faultWritten = s.faultWritten := rfl
@[simp] theorem setIr_newQ (w : Word) : (s.setIr w).newQ = s.newQ := rfl
@[simp] theorem setIr_ongoing (w : Word) : (s.setIr w).ongoing = s.ongoing := rfl
@[simp] theorem setIr_segs (w : Word) : (s.setIr w).segs = s.segs := rfl
@[simp] theorem setIr_mem (w : Word) : (s.setIr w).mem = s.mem := rfl
@[simp] theorem setIr_ports (w : Word) : (s.setIr w).ports = s.ports := rfl
@[simp] theorem setIr_cfg (w : Word) : (s.setIr w).cfg = s.cfg := rfl
@[simp] theorem setIr_signals (w : Word) : (s.setIr w).signals = s.signals := rfl
@[simp] theorem setIr_signalEffects (w : Word) : (s.setIr w).signalEffects = s.signalEffects := rfl
@[simp] theorem setIr_deviceFailures (w : Word) : (s.setIr w).deviceFailures = s.deviceFailures := rfl
@[simp] theorem setIr_resolverAnswers (w : Word) : (s.setIr w).resolverAnswers = s.resolverAnswers := rfl
@[simp] theorem setIr_env (w : Word) : (s.setIr w).env = s.env := rfl

/-! ### setFlags -/

@[simp] theorem setFlags_regs (z c : Bool) : (s.setFlags z c).regs = s.regs := rfl
@[simp] theorem setFlags_sr (z c : Bool) : (s.setFlags z c).sr = flagsWord z c := rfl
@[simp] theorem setFlags_ir (z c : Bool) : (s.setFlags z c).ir = s.ir := rfl
@[simp] theorem setFlags_sp (z c : Bool) : (s.setFlags z c).sp = s.sp := rfl
@[simp] theorem setFlags_fault (z c : Bool) : (s.setFlags z c).fault = s.fault := rfl
@[simp] theorem setFlags_faultWritten (z c : Bool) : (s.setFlags z c).faultWritten = s.faultWritten := rfl
@[simp] theorem setFlags_newQ (z c : Bool) : (s.setFlags z c).newQ = s.newQ := rfl
@[simp] theorem setFlags_ongoing (z c : Bool) : (s.setFlags z c).ongoing = s.ongoing := rfl
@[simp] theorem setFlags_segs (z c : Bool) : (s.setFlags z c).segs = s.segs := rfl
@[simp] theorem setFlags_mem (z c : Bool) : (s.setFlags z c).mem = s.mem := rfl
@[simp] theorem setFlags_ports (z c : Bool) : (s.setFlags z c).ports = s.ports := rfl
@[simp] theorem setFlags_cfg (z c : Bool) : (s.setFlags z c).cfg = s.cfg := rfl
@[simp] theorem setFlags_signals (z c : Bool) : (s.setFlags z c).signals = s.signals := rfl
@[simp] theorem setFlags_signalEffects (z c : Bool) : (s.setFlags z c).signalEffects = s.signalEffects := rfl
@[simp] theorem setFlags_deviceFailures (z c : Bool) : (s.setFlags z c).deviceFailures = s.deviceFailures := rfl
@[simp] theorem setFlags_resolverAnswers (z c : Bool) : (s.setFlags z c).resolverAnswers = s.resolverAnswers := rfl
@[simp] theorem setFlags_env (z c : Bool) : (s.setFlags z c).env = s.env := rfl

/-! ### setFault -/

@[simp] theorem setFault_regs (k : FaultKind) (arg : BitVec 12) : (s.setFault k arg).regs = s.regs := rfl
@[simp] theorem setFault_sr (k : FaultKind) (arg : BitVec 12) : (s.setFault k arg).sr = s.sr := rfl
@[simp] theorem setFault_ir (k : FaultKind) (arg : BitVec 12) : (s.setFault k arg).ir = s.ir := rfl
@[simp] theorem setFault_sp (k : FaultKind) (arg : BitVec 12) : (s.setFault k arg).sp = s.sp := rfl
@[simp] theorem setFault_fault (k : FaultKind) (arg : BitVec 12) : (s.setFault k arg).fault = if s.faultWritten then s.fault else faultWord k arg := rfl
@[simp] theorem setFault_faultWritten (k : FaultKind) (arg : BitVec 12) : (s.setFault k arg).faultWritten = true := rfl
@[simp] theorem setFault_newQ (k : FaultKind) (arg : BitVec 12) : (s.setFault k arg).newQ = s.newQ := rfl
@[simp] theorem setFault_ongoing (k : FaultKind) (arg : BitVec 12) : (s.setFault k arg).ongoing = s.ongoing := rfl
@[simp] theorem setFault_segs (k : FaultKind) (arg : BitVec 12) : (s.setFault k arg).segs = s.segs := rfl
@[simp] theorem setFault_mem (k : FaultKind) (arg : BitVec 12) : (s.setFault k arg).mem = s.mem := rfl
@[simp] theorem setFault_ports (k : FaultKind) (arg : BitVec 12) : (s.setFault k arg).ports = s.ports := rfl
@[simp] theorem setFault_cfg (k : FaultKind) (arg : BitVec 12) : (s.setFault k arg).cfg = s.cfg := rfl
@[simp] theorem setFault_signals (k : FaultKind) (arg : BitVec 12) : (s.setFault k arg).signals = s.signals := rfl
@[simp] theorem setFault_signalEffects (k : FaultKind) (arg : BitVec 12) : (s.setFault k arg).signalEffects = s.signalEffects := rfl
@[simp] theorem setFault_deviceFailures (k : FaultKind) (arg : BitVec 12) : (s.setFault k arg).deviceFailures = s.deviceFailures := rfl
@[simp] theorem setFault_resolverAnswers (k : FaultKind) (arg : BitVec 12) : (s.setFault k arg).resolverAnswers = s.resolverAnswers := rfl
@[simp] theorem setFault_env (k : FaultKind) (arg : BitVec 12) : (s.setFault k arg).env = s.env := rfl

/-! ### clearFault -/

@[simp] theorem clearFault_regs : s.clearFault.regs = s.regs := rfl
@[simp] theorem clearFault_sr : s.clearFault.sr = s.sr := rfl
@[simp] theorem clearFault_ir : s.clearFault.ir = s.ir := rfl
@[simp] theorem clearFault_sp : s.clearFault.sp = s.sp := rfl
@[simp] theorem clearFault_fault : s.clearFault.fault = 0 := rfl
@[simp] theorem clearFault_faultWritten : s.clearFault.faultWritten = false := rfl
@[simp] theorem clearFault_newQ : s.clearFault.newQ = s.newQ := rfl
@[simp] theorem clearFault_ongoing : s.clearFault.ongoing = s.ongoing := rfl
@[simp] theorem clearFault_segs : s.clearFault.segs = s.segs := rfl
@[simp] theorem clearFault_mem : s.clearFault.mem = s.mem := rfl
@[simp] theorem clearFault_ports : s.clearFault.ports = s.ports := rfl
@[simp] theorem clearFault_cfg : s.clearFault.cfg = s.cfg := rfl
@[simp] theorem clearFault_signals : s.clearFault.signals = s.signals := rfl
@[simp] theorem clearFault_signalEffects : s.clearFault.signalEffects = s.signalEffects := rfl
@[simp] theorem clearFault_deviceFailures : s.clearFault.deviceFailures = s.deviceFailures := rfl
@[simp] theorem clearFault_resolverAnswers : s.clearFault.resolverAnswers = s.resolverAnswers := rfl
@[simp] theorem clearFault_env : s.clearFault.env = s.env := rfl

/-! ### openFaultLatch -/

@[simp] theorem openFaultLatch_regs : s.openFaultLatch.regs = s.regs := rfl
@[simp] theorem openFaultLatch_sr : s.openFaultLatch.sr = s.sr := rfl
@[simp] theorem openFaultLatch_ir : s.openFaultLatch.ir = s.ir := rfl
@[simp] theorem openFaultLatch_sp : s.openFaultLatch.sp = s.sp := rfl
@[simp] theorem openFaultLatch_fault : s.openFaultLatch.fault = s.fault := rfl
@[simp] theorem openFaultLatch_faultWritten : s.openFaultLatch.faultWritten = false := rfl
@[simp] theorem openFaultLatch_newQ : s.openFaultLatch.newQ = s.newQ := rfl
@[simp] theorem openFaultLatch_ongoing : s.openFaultLatch.ongoing = s.ongoing := rfl
@[simp] theorem openFaultLatch_segs : s.openFaultLatch.segs = s.segs := rfl
@[simp] theorem openFaultLatch_mem : s.openFaultLatch.mem = s.mem := rfl
@[simp] theorem openFaultLatch_ports : s.openFaultLatch.ports = s.ports := rfl
@[simp] theorem openFaultLatch_cfg : s.openFaultLatch.cfg = s.cfg := rfl
@[simp] theorem openFaultLatch_signals : s.openFaultLatch.signals = s.signals := rfl
@[simp] theorem openFaultLatch_signalEffects : s.openFaultLatch.signalEffects = s.signalEffects := rfl
@[simp] theorem openFaultLatch_deviceFailures : s.openFaultLatch.deviceFailures = s.deviceFailures := rfl
@[simp] theorem openFaultLatch_resolverAnswers : s.openFaultLatch.resolverAnswers = s.resolverAnswers := rfl
@[simp] theorem openFaultLatch_env : s.openFaultLatch.env = s.env := rfl

/-! ### enqueue -/

@[simp] theorem enqueue_regs (a : Action) : (s.enqueue a).regs = s.regs := rfl
@[simp] theorem enqueue_sr (a : Action) : (s.enqueue a).sr = s.sr := rfl
@[simp] theorem enqueue_ir (a : Action) : (s.enqueue a).ir = s.ir := rfl
@[simp] theorem enqueue_sp (a : Action) : (s.enqueue a).sp = s.sp := rfl
@[simp] theorem enqueue_fault (a : Action) : (s.enqueue a).fault = s.fault := rfl
@[simp] theorem enqueue_faultWritten (a : Action) : (s.enqueue a).faultWritten = s.faultWritten := rfl
@[simp] theorem enqueue_newQ (a : Action) : (s.enqueue a).newQ = s.newQ ++ [a] := rfl
@[simp] theorem enqueue_ongoing (a : Action) : (s.enqueue a).ongoing = s.ongoing := rfl
@[simp] theorem enqueue_segs (a : Action) : (s.enqueue a).segs = s.segs := rfl
@[simp] theorem enqueue_mem (a : Action) : (s.enqueue a).mem = s.mem := rfl
@[simp] theorem enqueue_ports (a : Action) : (s.enqueue a).ports = s.ports := rfl
@[simp] theorem enqueue_cfg (a : Action) : (s.enqueue a).cfg = s.cfg := rfl
@[simp] theorem enqueue_signals (a : Action) : (s.enqueue a).signals = s.signals := rfl
@[simp] theorem enqueue_signalEffects (a : Action) : (s.enqueue a).signalEffects = s.signalEffects := rfl
@[simp] theorem enqueue_deviceFailures (a : Action) : (s.enqueue a).deviceFailures = s.deviceFailures := rfl
@[simp] theorem enqueue_resolverAnswers (a : Action) : (s.enqueue a).resolverAnswers = s.resolverAnswers := rfl
@[simp] theorem enqueue_env (a : Action) : (s.enqueue a).env = s.env := rfl

/-! ### updatePort -/

@[simp] theorem updatePort_regs (a : Word) (f : Port → Port) : (s.updatePort a f).regs = s.regs := rfl
@[simp] theorem updatePort_sr (a : Word) (f : Port → Port) : (s.updatePort a f).sr = s.sr := rfl
@[simp] theorem updatePort_ir (a : Word) (f : Port → Port) : (s.updatePort a f).ir = s.ir := rfl
@[simp] theorem updatePort_sp (a : Word) (f : Port → Port) : (s.updatePort a f).sp = s.sp := rfl
@[simp] theorem updatePort_fault (a : Word) (f : Port → Port) : (s.updatePort a f).fault = s.fault := rfl
@[simp] theorem updatePort_faultWritten (a : Word) (f : Port → Port) : (s.updatePort a f).faultWritten = s.faultWritten := rfl
@[simp] theorem updatePort_newQ (a : Word) (f : Port → Port) : (s.updatePort a f).newQ = s.newQ := rfl
@[simp] theorem updatePort_ongoing (a : Word) (f : Port → Port) : (s.updatePort a f).ongoing = s.ongoing := rfl
@[simp] theorem updatePort_segs (a : Word) (f : Port → Port) : (s.updatePort a f).segs = s.segs := rfl
@[simp] theorem updatePort_mem (a : Word) (f : Port → Port) : (s.updatePort a f).mem = s.mem := rfl
@[simp] theorem updatePort_ports (a : Word) (f : Port → Port) : (s.updatePort a f).ports = s.ports.map (fun p => if p.addr == a then f p else p) := rfl
@[simp] theorem updatePort_cfg (a : Word) (f : Port → Port) : (s.updatePort a f).cfg = s.cfg := rfl
@[simp] theorem updatePort_signals (a : Word) (f : Port → Port) : (s.updatePort a f).signals = s.signals := rfl
@[simp] theorem updatePort_signalEffects (a : Word) (f : Port → Port) : (s.updatePort a f).signalEffects = s.signalEffects := rfl
@[simp] theorem updatePort_deviceFailures (a : Word) (f : Port → Port) : (s.updatePort a f).deviceFailures = s.deviceFailures := rfl
@[simp] theorem updatePort_resolverAnswers (a : Word) (f : Port → Port) : (s.updatePort a f).resolverAnswers = s.resolverAnswers := rfl
@[simp] theorem updatePort_env (a : Word) (f : Port → Port) : (s.updatePort a f).env = s.env := rfl

/-! ### writeWord -/

@[simp] theorem writeWord_regs (a : Nat) (v : Word) : (s.writeWord a v).regs = s.regs := rfl
@[simp] theorem writeWord_sr (a : Nat) (v : Word) : (s.writeWord a v).sr = s.sr := rfl
@[simp] theorem writeWord_ir (a : Nat) (v : Word) : (s.writeWord a v).ir = s.ir := rfl
@[simp] theorem writeWord_sp (a : Nat) (v : Word) : (s.writeWord a v).sp = s.sp := rfl
@[simp] theorem writeWord_fault (a : Nat) (v : Word) : (s.writeWord a v).fault = s.fault := rfl
@[simp] theorem writeWord_faultWritten (a : Nat) (v : Word) : (s.writeWord a v).faultWritten = s.faultWritten := rfl
@[simp] theorem writeWord_newQ (a : Nat) (v : Word) : (s.writeWord a v).newQ = s.newQ := rfl
@[simp] theorem writeWord_ongoing (a : Nat) (v : Word) : (s.writeWord a v).ongoing = s.ongoing := rfl
@[simp] theorem writeWord_segs (a : Nat) (v : Word) : (s.writeWord a v).segs = s.segs := rfl
@[simp] theorem writeWord_mem (a : Nat) (v : Word) : (s.writeWord a v).mem = Memory.writeWord s.mem a v := rfl
@[simp] theorem writeWord_ports (a : Nat) (v : Word) : (s.writeWord a v).ports = s.ports := rfl
@[simp] theorem writeWord_cfg (a : Nat) (v : Word) : (s.writeWord a v).cfg = s.cfg := rfl
@[simp] theorem writeWord_signals (a : Nat) (v : Word) : (s.writeWord a v).signals = s.signals := rfl
@[simp] theorem writeWord_signalEffects (a : Nat) (v : Word) : (s.writeWord a v).signalEffects = s.signalEffects := rfl
@[simp] theorem writeWord_deviceFailures (a : Nat) (v : Word) : (s.writeWord a v).deviceFailures = s.deviceFailures := rfl
@[simp] theorem writeWord_resolverAnswers (a : Nat) (v : Word) : (s.writeWord a v).resolverAnswers = s.resolverAnswers := rfl
@[simp] theorem writeWord_env (a : Nat) (v : Word) : (s.writeWord a v).env = s.env := rfl

/-! ### writeBytes -/

@[simp] theorem writeBytes_regs (a : Nat) (vs : List Byte) : (s.writeBytes a vs).regs = s.regs := rfl
@[simp] theorem writeBytes_sr (a : Nat) (vs : List Byte) : (s.writeBytes a vs).sr = s.sr := rfl
@[simp] theorem writeBytes_ir (a : Nat) (vs : List Byte) : (s.writeBytes a vs).ir = s.ir := rfl
@[simp] theorem writeBytes_sp (a : Nat) (vs : List Byte) : (s.writeBytes a vs).sp = s.sp := rfl
@[simp] theorem writeBytes_fault (a : Nat) (vs : List Byte) : (s.writeBytes a vs).fault = s.fault := rfl
@[simp] theorem writeBytes_faultWritten (a : Nat) (vs : List Byte) : (s.writeBytes a vs).faultWritten = s.faultWritten := rfl
@[simp] theorem writeBytes_newQ (a : Nat) (vs : List Byte) : (s.writeBytes a vs).newQ = s.newQ := rfl
@[simp] theorem writeBytes_ongoing (a : Nat) (vs : List Byte) : (s.writeBytes a vs).ongoing = s.ongoing := rfl
@[simp] theorem writeBytes_segs (a : Nat) (vs : List Byte) : (s.writeBytes a vs).segs = s.segs := rfl
@[simp] theorem writeBytes_mem (a : Nat) (vs : List Byte) : (s.writeBytes a vs).mem = Memory.writeBytes s.mem a vs := rfl
@[simp] theorem writeBytes_ports (a : Nat) (vs : List Byte) : (s.writeBytes a vs).ports = s.ports := rfl
@[simp] theorem writeBytes_cfg (a : Nat) (vs : List Byte) : (s.writeBytes a vs).cfg = s.cfg := rfl
@[simp] theorem writeBytes_signals (a : Nat) (vs : List Byte) : (s.writeBytes a vs).signals = s.signals := rfl
@[simp] theorem writeBytes_signalEffects (a : Nat) (vs : List Byte) : (s.writeBytes a vs).signalEffects = s.signalEffects := rfl
@[simp] theorem writeBytes_deviceFailures (a : Nat) (vs : List Byte) : (s.writeBytes a vs).deviceFailures = s.deviceFailures := rfl
@[simp] theorem writeBytes_resolverAnswers (a : Nat) (vs : List Byte) : (s.writeBytes a vs).resolverAnswers = s.resolverAnswers := rfl
@[simp] theorem writeBytes_env (a : Nat) (vs : List Byte) : (s.writeBytes a vs).env = s.env := rfl

/-! ### setSp -/

@[simp] theorem setSp_regs (v : Nat) : (s.setSp v).regs = s.regs := rfl
@[simp] theorem setSp_sr (v : Nat) : (s.setSp v).sr = s.sr := rfl
@[simp] theorem setSp_ir (v : Nat) : (s.setSp v).ir = s.ir := rfl
@[simp] theorem setSp_sp (v : Nat) : (s.setSp v).sp = BitVec.ofNat 16 v := rfl
@[simp] theorem setSp_fault (v : Nat) : (s.setSp v).fault = s.fault := rfl
@[simp] theorem setSp_faultWritten (v : Nat) : (s.setSp v).faultWritten = s.faultWritten := rfl
@[simp] theorem setSp_newQ (v : Nat) : (s.setSp v).newQ = s.newQ := rfl
@[simp] theorem setSp_ongoing (v : Nat) : (s.setSp v).ongoing = s.ongoing := rfl
@[simp] theorem setSp_segs (v : Nat) : (s.setSp v).segs = s.segs := rfl
@[simp] theorem setSp_mem (v : Nat) : (s.setSp v).mem = s.mem := rfl
@[simp] theorem setSp_ports (v : Nat) : (s.setSp v).ports = s.ports := rfl
@[simp] theorem setSp_cfg (v : Nat) : (s.setSp v).cfg = s.cfg := rfl
@[simp] theorem setSp_signals (v : Nat) : (s.setSp v).signals = s.signals := rfl
@[simp] theorem setSp_signalEffects (v : Nat) : (s.setSp v).signalEffects = s.signalEffects := rfl
@[simp] theorem setSp_deviceFailures (v : Nat) : (s.setSp v).deviceFailures = s.deviceFailures := rfl
@[simp] theorem setSp_resolverAnswers (v : Nat) : (s.setSp v).resolverAnswers = s.resolverAnswers := rfl
@[simp] theorem setSp_env (v : Nat) : (s.setSp v).env = s.env := rfl

/-! ### recordSignal -/

@[simp] theorem recordSignal_regs (c : SignalCall) : (s.recordSignal c).regs = s.regs := rfl
@[simp] theorem recordSignal_sr (c : SignalCall) : (s.recordSignal c).sr = s.sr := rfl
@[simp] theorem recordSignal_ir (c : SignalCall) : (s.recordSignal c).ir = s.ir := rfl
@[simp] theorem recordSignal_sp (c : SignalCall) : (s.recordSignal c).sp = s.sp := rfl
@[simp] theorem recordSignal_fault (c : SignalCall) : (s.recordSignal c).fault = s.fault := rfl
@[simp] theorem recordSignal_faultWritten (c : SignalCall) : (s.recordSignal c).faultWritten = s.faultWritten := rfl
@[simp] theorem recordSignal_newQ (c : SignalCall) : (s.recordSignal c).newQ = s.newQ := rfl
@[simp] theorem recordSignal_ongoing (c : SignalCall) : (s.recordSignal c).ongoing = s.ongoing := rfl
@[simp] theorem recordSignal_segs (c : SignalCall) : (s.recordSignal c).segs = s.segs := rfl
@[simp] theorem recordSignal_mem (c : SignalCall) : (s.recordSignal c).mem = s.mem := rfl
@[simp] theorem recordSignal_ports (c : SignalCall) : (s.recordSignal c).ports = s.ports := rfl
@[simp] theorem recordSignal_cfg (c : SignalCall) : (s.recordSignal c).cfg = s.cfg := rfl
@[simp] theorem recordSignal_signals (c : SignalCall) : (s.recordSignal c).signals = s.signals ++ [c] := rfl
@[simp] theorem recordSignal_signalEffects (c : SignalCall) : (s.recordSignal c).signalEffects = s.signalEffects.tail := rfl
@[simp] theorem recordSignal_deviceFailures (c : SignalCall) : (s.recordSignal c).deviceFailures = s.deviceFailures := rfl
@[simp] theorem recordSignal_resolverAnswers (c : SignalCall) : (s.recordSignal c).resolverAnswers = s.resolverAnswers := rfl
@[simp] theorem recordSignal_env (c : SignalCall) : (s.recordSignal c).env = s.env := rfl

/-! ### reportFailure -/

@[simp] theorem reportFailure_regs (port : Word) : (s.reportFailure port).regs = s.regs := rfl
@[simp] theorem reportFailure_sr (port : Word) : (s.reportFailure port).sr = s.sr := rfl
@[simp] theorem reportFailure_ir (port : Word) : (s.reportFailure port).ir = s.ir := rfl
@[simp] theorem reportFailure_sp (port : Word) : (s.reportFailure port).sp = s.sp := rfl
@[simp] theorem reportFailure_fault (port : Word) : (s.reportFailure port).fault = s.fault := rfl
@[simp] theorem reportFailure_faultWritten (port : Word) : (s.reportFailure port).faultWritten = s.faultWritten := rfl
@[simp] theorem reportFailure_newQ (port : Word) : (s.reportFailure port).newQ = s.newQ := rfl
@[simp] theorem reportFailure_ongoing (port : Word) : (s.reportFailure port).ongoing = s.ongoing := rfl
@[simp] theorem reportFailure_segs (port : Word) : (s.reportFailure port).segs = s.segs := rfl
@[simp] theorem reportFailure_mem (port : Word) : (s.reportFailure port).mem = s.mem := rfl
@[simp] theorem reportFailure_ports (port : Word) : (s.reportFailure port).ports = s.ports := rfl
@[simp] theorem reportFailure_cfg (port : Word) : (s.reportFailure port).cfg = s.cfg := rfl
@[simp] theorem reportFailure_signals (port : Word) : (s.reportFailure port).signals = s.signals := rfl
@[simp] theorem reportFailure_signalEffects (port : Word) : (s.reportFailure port).signalEffects = s.signalEffects := rfl
@[simp] theorem reportFailure_deviceFailures (port : Word) : (s.reportFailure port).deviceFailures = s.deviceFailures ++ [port] := rfl
@[simp] theorem reportFailure_resolverAnswers (port : Word) : (s.reportFailure port).resolverAnswers = s.resolverAnswers := rfl
@[simp] theorem reportFailure_env (port : Word) : (s.reportFailure port).env = s.env := rfl

/-! ### dropAnswer -/

@[simp] theorem dropAnswer_regs : s.dropAnswer.regs = s.regs := rfl
@[simp] theorem dropAnswer_sr : s.dropAnswer.sr = s.sr := rfl
@[simp] theorem dropAnswer_ir : s.dropAnswer.ir = s.ir := rfl
@[simp] theorem dropAnswer_sp : s.dropAnswer.sp = s.sp := rfl
@[simp] theorem dropAnswer_fault : s.dropAnswer.fault = s.fault := rfl
@[simp] theorem dropAnswer_faultWritten : s.dropAnswer.faultWritten = s.faultWritten := rfl
@[simp] theorem dropAnswer_newQ : s.dropAnswer.newQ = s.newQ := rfl
@[simp] theorem dropAnswer_ongoing : s.dropAnswer.ongoing = s.ongoing := rfl
@[simp] theorem dropAnswer_segs : s.dropAnswer.segs = s.segs := rfl
@[simp] theorem dropAnswer_mem : s.dropAnswer.mem = s.mem := rfl
@[simp] theorem dropAnswer_ports : s.dropAnswer.ports = s.ports := rfl
@[simp] theorem dropAnswer_cfg : s.dropAnswer.cfg = s.cfg := rfl
@[simp] theorem dropAnswer_signals : s.dropAnswer.signals = s.signals := rfl
@[simp] theorem dropAnswer_signalEffects : s.dropAnswer.signalEffects = s.signalEffects := rfl
@[simp] theorem dropAnswer_deviceFailures : s.dropAnswer.deviceFailures = s.deviceFailures := rfl
@[simp] theorem dropAnswer_resolverAnswers : s.dropAnswer.resolverAnswers = s.resolverAnswers.tail := rfl
@[simp] theorem dropAnswer_env : s.dropAnswer.env = s.env := rfl

/-! ### withQueues -/

@[simp] theorem withQueues_regs (q o : List Action) : (s.withQueues q o).regs = s.regs := rfl
@[simp] theorem withQueues_sr (q o : List Action) : (s.withQueues q o).sr = s.sr := rfl
@[simp] theorem withQueues_ir (q o : List Action) : (s.withQueues q o).ir = s.ir := rfl
@[simp] theorem withQueues_sp (q o : List Action) : (s.withQueues q o).sp = s.sp := rfl
@[simp] theorem withQueues_fault (q o : List Action) : (s.withQueues q o).fault = s.fault := rfl
@[simp] theorem withQueues_faultWritten (q o : List Action) : (s.withQueues q o).faultWritten = s.faultWritten := rfl
@[simp] theorem withQueues_newQ (q o : List Action) : (s.withQueues q o).newQ = q := rfl
@[simp] theorem withQueues_ongoing (q o : List Action) : (s.withQueues q o).ongoing = o := rfl
@[simp] theorem withQueues_segs (q o : List Action) : (s.withQueues q o).segs = s.segs := rfl
@[simp] theorem withQueues_mem (q o : List Action) : (s.withQueues q o).mem = s.mem := rfl
@[simp] theorem withQueues_ports (q o : List Action) : (s.withQueues q o).ports = s.ports := rfl
@[simp] theorem withQueues_cfg (q o : List Action) : (s.withQueues q o).cfg = s.cfg := rfl
@[simp] theorem withQueues_signals (q o : List Action) : (s.withQueues q o).signals = s.signals := rfl
@[simp] theorem withQueues_signalEffects (q o : List Action) : (s.withQueues q o).signalEffects = s.signalEffects := rfl
@[simp] theorem withQueues_deviceFailures (q o : List Action) : (s.withQueues q o).deviceFailures = s.deviceFailures := rfl
@[simp] theorem withQueues_resolverAnswers (q o : List Action) : (s.withQueues q o).resolverAnswers = s.resolverAnswers := rfl
@[simp] theorem withQueues_env (q o : List Action) : (s.withQueues q o).env = s.env := rfl

/-! ### dropGap -/

@[simp] theorem dropGap_regs : s.dropGap.regs = s.regs := rfl
@[simp] theorem dropGap_sr : s.dropGap.sr = s.sr := rfl
@[simp] theorem dropGap_ir : s.dropGap.ir = s.ir := rfl
@[simp] theorem dropGap_sp : s.dropGap.sp = s.sp := rfl
@[simp] theorem dropGap_fault : s.dropGap.fault = s.fault := rfl
@[simp] theorem dropGap_faultWritten : s.dropGap.faultWritten = s.faultWritten := rfl
@[simp] theorem dropGap_newQ : s.dropGap.newQ = s.newQ := rfl
@[simp] theorem dropGap_ongoing : s.dropGap.ongoing = s.ongoing := rfl
@[simp] theorem dropGap_segs : s.dropGap.segs = s.segs := rfl
@[simp] theorem dropGap_mem : s.dropGap.mem = s.mem := rfl
@[simp] theorem dropGap_ports : s.dropGap.ports = s.ports := rfl
@[simp] theorem dropGap_cfg : s.dropGap.cfg = s.cfg := rfl
@[simp] theorem dropGap_signals : s.dropGap.signals = s.signals := rfl
@[simp] theorem dropGap_signalEffects : s.dropGap.signalEffects = s.signalEffects := rfl
@[simp] theorem dropGap_deviceFailures : s.dropGap.deviceFailures = s.deviceFailures := rfl
@[simp] theorem dropGap_resolverAnswers : s.dropGap.resolverAnswers = s.resolverAnswers := rfl
@[simp] theorem dropGap_env : s.dropGap.env = s.env.tail := rfl

/-! ### resetBlock -/

@[simp] theorem resetBlock_regs : s.resetBlock.regs = ⟨0, 0, 0, 0⟩ := rfl
@[simp] theorem resetBlock_sr : s.resetBlock.sr = 0 := rfl
@[simp] theorem resetBlock_ir : s.resetBlock.ir = 0 := rfl
@[simp] theorem resetBlock_sp : s.resetBlock.sp = 0 := rfl
@[simp] theorem resetBlock_fault : s.resetBlock.fault = 0 := rfl
@[simp] theorem resetBlock_faultWritten : s.resetBlock.faultWritten = false := rfl
@[simp] theorem resetBlock_newQ : s.resetBlock.newQ = [] := rfl
@[simp] theorem resetBlock_ongoing : s.resetBlock.ongoing = [] := rfl
@[simp] theorem resetBlock_segs : s.resetBlock.segs = s.segs := rfl
@[simp] theorem resetBlock_mem : s.resetBlock.mem = s.mem := rfl
@[simp] theorem resetBlock_ports : s.resetBlock.ports = s.ports := rfl
@[simp] theorem resetBlock_cfg : s.resetBlock.cfg = s.cfg := rfl
@[simp] theorem resetBlock_signals : s.resetBlock.signals = s.signals := rfl
@[simp] theorem resetBlock_signalEffects : s.resetBlock.signalEffects = s.signalEffects := rfl
@[simp] theorem resetBlock_deviceFailures : s.resetBlock.deviceFailures = s.deviceFailures := rfl
@[simp] theorem resetBlock_resolverAnswers : s.resetBlock.resolverAnswers = s.resolverAnswers := rfl
@[simp] theorem resetBlock_env : s.resetBlock.env = s.env := rfl

/-! ### resetPorts -/

@[simp] theorem resetPorts_regs : s.resetPorts.regs = s.regs := rfl
@[simp] theorem resetPorts_sr : s.resetPorts.sr = s.sr := rfl
@[simp] theorem resetPorts_ir : s.resetPorts.ir = s.ir := rfl
@[simp] theorem resetPorts_sp : s.resetPorts.sp = s.sp := rfl
@[simp] theorem resetPorts_fault : s.resetPorts.fault = s.fault := rfl
@[simp] theorem resetPorts_faultWritten : s.resetPorts.faultWritten = s.faultWritten := rfl
@[simp] theorem resetPorts_newQ : s.resetPorts.newQ = s.newQ := rfl
@[simp] theorem resetPorts_ongoing : s.resetPorts.ongoing = s.ongoing := rfl
@[simp] theorem resetPorts_segs : s.resetPorts.segs = s.segs := rfl
@[simp] theorem resetPorts_mem : s.resetPorts.mem = s.mem := rfl
@[simp] theorem resetPorts_ports : s.resetPorts.ports = s.ports.map Port.initial := rfl
@[simp] theorem resetPorts_cfg : s.resetPorts.cfg = s.cfg := rfl
@[simp] theorem resetPorts_signals : s.resetPorts.signals = s.signals := rfl
@[simp] theorem resetPorts_signalEffects : s.resetPorts.signalEffects = s.signalEffects := rfl
@[simp] theorem resetPorts_deviceFailures : s.resetPorts.deviceFailures = s.deviceFailures := rfl
@[simp] theorem resetPorts_resolverAnswers : s.resetPorts.resolverAnswers = s.resolverAnswers := rfl
@[simp] theorem resetPorts_env : s.resetPorts.env = s.env := rfl

/-! ### loadProgram -/

@[simp] theorem loadProgram_regs (g : SegTable) (m : List Host.Cell) : (s.loadProgram g m).regs = s.regs := rfl
@[simp] theorem loadProgram_sr (g : SegTable) (m : List Host.Cell) : (s.loadProgram g m).sr = s.sr := rfl
@[simp] theorem loadProgram_ir (g : SegTable) (m : List Host.Cell) : (s.loadProgram g m).ir = s.ir := rfl
@[simp] theorem loadProgram_sp (g : SegTable) (m : List Host.Cell) : (s.loadProgram g m).sp = s.sp := rfl
@[simp] theorem loadProgram_fault (g : SegTable) (m : List Host.Cell) : (s.loadProgram g m).fault = s.fault := rfl
@[simp] theorem loadProgram_faultWritten (g : SegTable) (m : List Host.Cell) : (s.loadProgram g m).faultWritten = s.faultWritten := rfl
@[simp] theorem loadProgram_newQ (g : SegTable) (m : List Host.Cell) : (s.loadProgram g m).newQ = s.newQ := rfl
@[simp] theorem loadProgram_ongoing (g : SegTable) (m : List Host.Cell) : (s.loadProgram g m).ongoing = s.ongoing := rfl
@[simp] theorem loadProgram_segs (g : SegTable) (m : List Host.Cell) : (s.loadProgram g m).segs = g := rfl
@[simp] theorem loadProgram_mem (g : SegTable) (m : List Host.Cell) : (s.loadProgram g m).mem = imageMemory s.cfg.memSize m := rfl
@[simp] theorem loadProgram_ports (g : SegTable) (m : List Host.Cell) : (s.loadProgram g m).ports = s.ports := rfl
@[simp] theorem loadProgram_cfg (g : SegTable) (m : List Host.Cell) : (s.loadProgram g m).cfg = s.cfg := rfl
@[simp] theorem loadProgram_signals (g : SegTable) (m : List Host.Cell) : (s.loadProgram g m).signals = s.signals := rfl
@[simp] theorem loadProgram_signalEffects (g : SegTable) (m : List Host.Cell) : (s.loadProgram g m).signalEffects = s.signalEffects := rfl
@[simp] theorem loadProgram_deviceFailures (g : SegTable) (m : List Host.Cell) : (s.loadProgram g m).deviceFailures = s.deviceFailures := rfl
@[simp] theorem loadProgram_resolverAnswers (g : SegTable) (m : List Host.Cell) : (s.loadProgram g m).resolverAnswers = s.resolverAnswers := rfl
@[simp] theorem loadProgram_env (g : SegTable) (m : List Host.Cell) : (s.loadProgram g m).env = s.env := rfl

/-! ### withSr -/

@[simp] theorem withSr_regs (v : Word) : (s.withSr v).regs = s.regs := rfl
@[simp] theorem withSr_sr (v : Word) : (s.withSr v).sr = v := rfl
@[simp] theorem withSr_ir (v : Word) : (s.withSr v).ir = s.ir := rfl
@[simp] theorem withSr_sp (v : Word) : (s.withSr v).sp = s.sp := rfl
@[simp] theorem withSr_fault (v : Word) : (s.withSr v).fault = s.fault := rfl
@[simp] theorem withSr_faultWritten (v : Word) : (s.withSr v).faultWritten = s.faultWritten := rfl
@[simp] theorem withSr_newQ (v : Word) : (s.withSr v).newQ = s.newQ := rfl
@[simp] theorem withSr_ongoing (v : Word) : (s.withSr v).ongoing = s.ongoing := rfl
@[simp] theorem withSr_segs (v : Word) : (s.withSr v).segs = s.segs := rfl
@[simp] theorem withSr_mem (v : Word) : (s.withSr v).mem = s.mem := rfl
@[simp] theorem withSr_ports (v : Word) : (s.withSr v).ports = s.ports := rfl
@[simp] theorem withSr_cfg (v : Word) : (s.withSr v).cfg = s.cfg := rfl
@[simp] theorem withSr_signals (v : Word) : (s.withSr v).signals = s.signals := rfl
@[simp] theorem withSr_signalEffects (v : Word) : (s.withSr v).signalEffects = s.signalEffects := rfl
@[simp] theorem withSr_deviceFailures (v : Word) : (s.withSr v).deviceFailures = s.deviceFailures := rfl
@[simp] theorem withSr_resolverAnswers (v : Word) : (s.withSr v).resolverAnswers = s.resolverAnswers := rfl
@[simp] theorem withSr_env (v : Word) : (s.withSr v).env = s.env := rfl

/-! ### The flag writers of R26, as `setFlags` -/

@[simp] theorem setMulFlags_eq (p : Nat) : s.setMulFlags p = s.setFlags (p == 0) (decide (65536 ≤ p)) := rfl
@[simp] theorem setDivFlags_eq (q r : Nat) : s.setDivFlags q r = s.setFlags (q == 0) (r != 0) := rfl
@[simp] theorem setValueFlags_eq (v : Word) : s.setValueFlags v = s.setFlags (isZero v) false := rfl
@[simp] theorem clearFlags_eq : s.clearFlags = s.setFlags false false := rfl
@[simp] theorem setBranchFlags_eq (t : Bool) : s.setBranchFlags t = s.setFlags (!t) false := rfl
@[simp] theorem setQueryFlags_eq (t : Bool) : s.setQueryFlags t = s.setFlags (!t) false := rfl
@[simp] theorem setDirectFlags_eq (n : Nat) : s.setDirectFlags n = s.setFlags (n == 0) (decide (0 < n)) := rfl
@[simp] theorem setIndirectFlags_eq (n m : Nat) : s.setIndirectFlags n m = s.setFlags (n == m) (decide (n < m)) := rfl

end Sys2Proof.Machine.State
end

