-- ==== Sys2Proof/Laws/Ops.lean ====
section
/-! SUPPORT. One lemma for each shared operation over registers, flags, the fault register, the channels and the
ports, saying once what it does. -/

namespace Sys2Proof.Machine

/-! ### Registers -/

@[simp] theorem regs_get_set (r : Regs) (i j : Reg) (v : Word) :
    (r.set i v).get j = if i = j then v else r.get j := by
  cases i <;> cases j <;> rfl

@[simp] theorem regs_set_get (r : Regs) (i : Reg) : r.set i (r.get i) = r := by
  cases i <;> rfl

@[simp] theorem x_eq (s : State) (i : Reg) : s.x i = s.regs.get i := rfl

theorem readByte_eq (s : State) (a : Nat) : s.readByte a = Memory.read s.mem a := rfl

theorem readWord_eq (s : State) (a : Nat) : s.readWord a = s.readByte (a + 1) ++ s.readByte a := rfl

theorem readWord_toNat (s : State) (a : Nat) :
    (s.readWord a).toNat = (s.readByte a).toNat + 256 * (s.readByte (a + 1)).toNat := by
  rw [readWord_eq, BitVec.toNat_append, Nat.shiftLeft_eq, ← Nat.mul_comm 256,
    ← Nat.two_pow_add_eq_or_of_lt (i := 8) (s.readByte a).isLt]
  omega

/-! ### Flags (R11, R25) -/

@[simp] theorem flagsWord_z (z c : Bool) : (flagsWord z c).getLsbD 0 = z := by
  cases z <;> cases c <;> decide

@[simp] theorem flagsWord_c (z c : Bool) : (flagsWord z c).getLsbD 1 = c := by
  cases z <;> cases c <;> decide

@[simp] theorem flagsWord_high (z c : Bool) : (flagsWord z c).extractLsb' 2 14 = 0 := by
  cases z <;> cases c <;> decide

theorem flagZ_setFlags (s : State) (z c : Bool) : (s.setFlags z c).flagZ = z := by
  simp only [State.flagZ, State.setFlags_sr, flagsWord_z]

theorem flagC_setFlags (s : State) (z c : Bool) : (s.setFlags z c).flagC = c := by
  simp only [State.flagC, State.setFlags_sr, flagsWord_c]

/-! ### The fault register (R274) -/

@[simp] theorem faultWord_kind (k : FaultKind) (arg : BitVec 12) : (faultWord k arg).extractLsb' 12 4 = k.code := by
  apply BitVec.eq_of_getLsbD_eq
  intro i hi
  have h : ¬12 + i < 12 := by omega
  simp only [BitVec.getLsbD_extractLsb', hi, decide_true, Bool.true_and, faultWord]
  rw [BitVec.getLsbD_append, if_neg h, Nat.add_sub_cancel_left]

@[simp] theorem faultWord_arg (k : FaultKind) (arg : BitVec 12) : (faultWord k arg).extractLsb' 0 12 = arg := by
  apply BitVec.eq_of_getLsbD_eq
  intro i hi
  have h : 0 + i < 12 := by omega
  simp only [BitVec.getLsbD_extractLsb', hi, decide_true, Bool.true_and, faultWord]
  rw [BitVec.getLsbD_append, if_pos h, Nat.zero_add]

/-- The first fault of a cycle is recorded. -/
theorem setFault_open (s : State) (k : FaultKind) (arg : BitVec 12) (h : s.faultWritten = false) :
    s.setFault k arg = { s with fault := faultWord k arg, faultWritten := true } := by
  simp [State.setFault, h]

/-- A later fault of a cycle is dropped. -/
theorem setFault_closed (s : State) (k : FaultKind) (arg : BitVec 12) (h : s.faultWritten = true) :
    s.setFault k arg = s := by
  cases s
  simp_all [State.setFault]

theorem faultKind_setFault (s : State) (k : FaultKind) (arg : BitVec 12) :
    (s.setFault k arg).faultKind = if s.faultWritten then s.faultKind else k.code := by
  unfold State.faultKind
  rw [State.setFault_fault]
  split <;> simp

theorem code_ne_zero (k : FaultKind) : k.code ≠ 0 := by
  cases k <;> decide

theorem code_le (k : FaultKind) : k.code.toNat ≤ 11 := by
  cases k <;> decide

/-! ### Channels and reserved encodings -/

@[simp] theorem guardReserved_false (s : State) (r : Result) : guardReserved false s r = r := rfl

@[simp] theorem guardReserved_true (s : State) (r : Result) : guardReserved true s r = .next (s.setFault .res 0) := rfl

theorem require_present (k : Channel) (s : State) (r : Result) (h : s.channelPresent k = true) :
    require k s r = r := by
  simp [require, h]

theorem require_absent (k : Channel) (s : State) (r : Result) (h : s.channelPresent k = false) :
    require k s r = .refused (.notAttempted k) := by
  simp [require, h]

/-- All that the execute phase of a delegating instruction can do. -/
theorem request_cases (k : Channel) (bad : Bool) (a : Action) (s : State) :
    (s.channelPresent k = false ∧ request k bad a s = .refused (.notAttempted k)) ∨
      (s.channelPresent k = true ∧ bad = true ∧ request k bad a s = .next (s.setFault .res 0)) ∨
      (s.channelPresent k = true ∧ bad = false ∧ request k bad a s = .next (s.enqueue a)) := by
  cases h : s.channelPresent k <;> cases bad <;> simp [request, require, guardReserved, State.raise, h]

theorem request_ok (k : Channel) (a : Action) (s : State) (h : s.channelPresent k = true) :
    request k false a s = .next (s.enqueue a) := by
  simp [request, require, h]

/-! ### Ports -/

theorem find_map_port (ps : List Port) (a b : Word) (f : Port → Port) (hf : ∀ p, (f p).addr = p.addr) :
    (ps.map (fun p => if p.addr == a then f p else p)).find? (fun p => p.addr == b) =
      (ps.find? (fun p => p.addr == b)).map (fun p => if p.addr == a then f p else p) := by
  induction ps with
  | nil => rfl
  | cons p rest ih =>
    by_cases hb : p.addr = b
    · by_cases ha : p.addr = a
      · have : (f p).addr = b := (hf p).trans hb
        simp [ha, this, ← hb]
      · simp [hb]
        split <;> simp_all
    · have h1 : (if p.addr == a then f p else p).addr ≠ b := by
        split
        · rw [hf]; exact hb
        · exact hb
      rw [List.map_cons, List.find?_cons_of_neg (by simpa using h1), ih,
        List.find?_cons_of_neg (by simpa using hb)]

/-- The port found after a change of a port. -/
theorem lookupPort_updatePort (s : State) (a b : Word) (f : Port → Port) (hf : ∀ p, (f p).addr = p.addr) :
    (s.updatePort a f).lookupPort b = (s.lookupPort b).map (fun p => if a = b then f p else p) := by
  unfold State.lookupPort
  rw [State.updatePort_ports, find_map_port _ _ _ _ hf]
  cases h : s.ports.find? (fun p => p.addr == b) with
  | none => rfl
  | some p =>
    have hp : p.addr = b := by simpa using List.find?_some h
    by_cases hab : a = b
    · simp [hp, hab]
    · have : ¬b = a := fun e => hab e.symm
      simp [hp, hab, this]

theorem lookupPort_addr (s : State) (a : Word) (p : Port) (h : s.lookupPort a = some p) : p.addr = a := by
  simpa using List.find?_some h

theorem lookupPort_mem (s : State) (a : Word) (p : Port) (h : s.lookupPort a = some p) : p ∈ s.ports :=
  List.mem_of_find?_eq_some h

@[simp] theorem withBytes_addr (p : Port) (bs : List Byte) : (p.withBytes bs).addr = p.addr := rfl
@[simp] theorem withBytes_busy (p : Port) (bs : List Byte) : (p.withBytes bs).busy = p.busy := rfl
@[simp] theorem withBytes_controller (p : Port) (bs : List Byte) : (p.withBytes bs).controller = p.controller := rfl
@[simp] theorem withBytes_device (p : Port) (bs : List Byte) : (p.withBytes bs).device = p.device := rfl
@[simp] theorem withBytes_handoffReadable (p : Port) (bs : List Byte) :
    (p.withBytes bs).handoffReadable = p.handoffReadable := rfl
@[simp] theorem withBytes_mailbox (p : Port) (bs : List Byte) :
    (p.withBytes bs).mailbox = p.mailbox.map (fun m => { m with bytes := bs }) := rfl
@[simp] theorem withBusy_addr (p : Port) (b : Bool) : (p.withBusy b).addr = p.addr := rfl
@[simp] theorem withBusy_busy (p : Port) (b : Bool) : (p.withBusy b).busy = b := rfl
@[simp] theorem withBusy_controller (p : Port) (b : Bool) : (p.withBusy b).controller = p.controller := rfl
@[simp] theorem withBusy_device (p : Port) (b : Bool) : (p.withBusy b).device = p.device := rfl
@[simp] theorem withBusy_handoffReadable (p : Port) (b : Bool) :
    (p.withBusy b).handoffReadable = p.handoffReadable := rfl
@[simp] theorem withBusy_mailbox (p : Port) (b : Bool) : (p.withBusy b).mailbox = p.mailbox := rfl

theorem programRelinquish_addr (p : Port) : (programRelinquish p).addr = p.addr := by
  unfold programRelinquish
  split <;> rfl

/-- All that admission of a transfer says (R252). -/
theorem admission_some (s : State) (a : Word) (d : Direction) (p : Port) (m : Mailbox) (h : admission s a d = some (p, m)) :
    s.lookupPort a = some p ∧ p.mailbox = some m ∧ p.busy = false ∧ mailboxState p = neededState d := by
  unfold admission at h
  split at h
  · cases h
  · rename_i q hq
    split at h
    · cases h
    · rename_i n hn
      split at h
      · rename_i hb
        simp only [Option.some.injEq, Prod.mk.injEq] at h
        obtain ⟨rfl, rfl⟩ := h
        simp only [Bool.and_eq_true, Bool.not_eq_true', beq_iff_eq] at hb
        exact ⟨hq, hn, hb.1, hb.2⟩
      · cases h

/-- A mailbox the program may use is under its control. -/
theorem admitted_controller (p : Port) (d : Direction) (h : mailboxState p = neededState d) :
    p.controller = .program := by
  unfold mailboxState at h
  cases d <;> cases hm : p.mailbox <;> cases hc : p.controller <;> simp_all [neededState]

/-! ### Register masks -/

theorem maskRegs_length_le (m : BitVec 4) : (maskRegs m).length ≤ 4 := by
  revert m
  decide

theorem maskRegs_nodup (m : BitVec 4) : (maskRegs m).Nodup := by
  revert m
  decide

theorem mem_maskRegs (m : BitVec 4) (r : Reg) : r ∈ maskRegs m ↔ m.getLsbD r.bits.toNat = true := by
  revert m
  cases r <;> decide

end Sys2Proof.Machine
end

