-- ==== Sys2Proof/Laws/Handlers.lean ====
section
/-! SUPPORT. The action handlers: each one's outcomes as equations, and what no handler touches. -/

namespace Sys2Proof.Machine

/-! ### Load and Store (R163, R164) -/

theorem handleLoad_odd (a : Word) (r : Reg) (s : State) (h : isOdd a = true) :
    handleLoad a r s = (s.setFault .algn 0, .complete) := by
  simp [handleLoad, h, State.raiseInHandler]

theorem handleLoad_outside (a : Word) (r : Reg) (s : State) (h : isOdd a = false)
    (hb : s.segs.ds.len < a.toNat + 2) : handleLoad a r s = (s.setFault .seg 0, .complete) := by
  simp [handleLoad, h, inSegment, State.raiseInHandler]
  omega

theorem handleLoad_ok (a : Word) (r : Reg) (s : State) (h : isOdd a = false) (hb : a.toNat + 2 ≤ s.segs.ds.len)
    (hs : s.dataAddr a + 2 ≤ s.cfg.memSize) :
    handleLoad a r s =
      ((s.setX r (s.readWord (s.dataAddr a))).setFlags (isZero (s.readWord (s.dataAddr a))) false, .complete) := by
  simp [handleLoad, h, inSegment, hb, State.inStore, hs]

theorem handleStore_odd (a w : Word) (s : State) (h : isOdd a = true) :
    handleStore a w s = (s.setFault .algn 0, .complete) := by
  simp [handleStore, h, State.raiseInHandler]

theorem handleStore_outside (a w : Word) (s : State) (h : isOdd a = false) (hb : s.segs.ds.len < a.toNat + 2) :
    handleStore a w s = (s.setFault .seg 0, .complete) := by
  simp [handleStore, h, inSegment, State.raiseInHandler]
  omega

theorem handleStore_ok (a w : Word) (s : State) (h : isOdd a = false) (hb : a.toNat + 2 ≤ s.segs.ds.len)
    (hs : s.dataAddr a + 2 ≤ s.cfg.memSize) :
    handleStore a w s = ((s.writeWord (s.dataAddr a) w).setFlags (isZero w) false, .complete) := by
  simp [handleStore, h, inSegment, hb, State.inStore, hs]

/-! ### Push and Pop (R168, R169) -/

theorem handlePush_overflow (m : BitVec 4) (s : State) (h : s.segs.ss.len < s.sp.toNat + maskBytes m) :
    handlePush m s = (s.setFault .sof 0, .complete) := by
  simp [handlePush, inSegment, State.raiseInHandler]
  omega

theorem handlePush_ok (m : BitVec 4) (s : State) (h : s.sp.toNat + maskBytes m ≤ s.segs.ss.len)
    (hs : s.stackAddr s.sp.toNat + maskBytes m ≤ s.cfg.memSize) :
    handlePush m s =
      (((pushWords (maskRegs m) s.sp.toNat s).setSp (s.sp.toNat + maskBytes m)).setFlags false false, .complete) := by
  simp [handlePush, inSegment, h, State.inStore, hs]

theorem handlePop_underflow (m : BitVec 4) (s : State) (h : s.sp.toNat < maskBytes m) :
    handlePop m s = (s.setFault .suf 0, .complete) := by
  simp [handlePop, h, State.raiseInHandler]

theorem handlePop_ok (m : BitVec 4) (s : State) (h : maskBytes m ≤ s.sp.toNat)
    (hs : s.stackAddr (s.sp.toNat - maskBytes m) + maskBytes m ≤ s.cfg.memSize) :
    handlePop m s =
      ((popWords (maskRegs m) (s.sp.toNat - maskBytes m) (s.setSp (s.sp.toNat - maskBytes m))).setFlags false false,
        .complete) := by
  have h' : ¬s.sp.toNat < maskBytes m := by omega
  simp [handlePop, h', State.inStore, hs]

/-- A push of words changes memory only. -/
theorem pushWords_eq (rs : List Reg) (off : Nat) (s : State) :
    pushWords rs off s = { s with mem := (pushWords rs off s).mem } := by
  induction rs generalizing off s with
  | nil => rfl
  | cons r rest ih =>
    rw [pushWords, ih]
    rfl

/-- A pop of words changes registers only. -/
theorem popWords_eq (rs : List Reg) (off : Nat) (s : State) :
    popWords rs off s = { s with regs := (popWords rs off s).regs } := by
  induction rs generalizing off s with
  | nil => rfl
  | cons r rest ih =>
    rw [popWords, ih]
    rfl

/-- The bytes a push leaves alone. -/
theorem pushWords_readByte (rs : List Reg) (off : Nat) (s : State) (a : Nat)
    (h : a < s.stackAddr off ∨ s.stackAddr off + 2 * rs.length ≤ a) :
    (pushWords rs off s).readByte a = s.readByte a := by
  induction rs generalizing off s with
  | nil => rfl
  | cons r rest ih =>
    simp only [List.length_cons] at h
    rw [pushWords, ih]
    · simp only [readByte_eq, State.writeWord_mem, Memory.read_writeWord]
      rw [if_neg (by omega), if_neg (by omega)]
    · simp only [State.stackAddr, State.writeWord_segs] at h ⊢
      omega

/-! ### Transfers (R250 to R256) -/

theorem directRead_ok (a : Word) (s : State) (p : Port) (m : Mailbox) (h : admission s a .read = some (p, m)) :
    directRead a s =
      (((s.updatePort a (fun q => q.withBytes (m.bytes.drop 2))).setX .lr
        (m.bytes.getD 1 0 ++ m.bytes.getD 0 0)).setDirectFlags (m.bytes.drop 2).length, .complete) := by
  simp only [directRead, h]

theorem directRead_ido (a : Word) (s : State) (h : admission s a .read = none) :
    directRead a s = (s.setFault .ido 0, .complete) := by
  simp only [directRead, h, State.raiseInHandler]

theorem directWrite_ok (a w : Word) (s : State) (p : Port) (m : Mailbox) (h : admission s a .write = some (p, m)) :
    directWrite a w s =
      ((s.updatePort a (fun q => q.withBytes (m.bytes ++ directBytes m w))).setDirectFlags
        (m.cap - (m.bytes ++ directBytes m w).length), .complete) := by
  simp only [directWrite, h]

theorem directWrite_ido (a w : Word) (s : State) (h : admission s a .write = none) :
    directWrite a w s = (s.setFault .ido 0, .complete) := by
  simp only [directWrite, h, State.raiseInHandler]

/-- All that one chunk can do. -/
theorem moveChunk_cases (t : Transfer) (s : State) :
    moveChunk t s = (s, .failed) ∨
      ∃ p m, s.lookupPort t.port = some p ∧ p.mailbox = some m ∧
        (chunkSize p m t = 0 ∨ s.dataAddr t.addr + chunkSize p m t ≤ s.cfg.memSize) ∧
        let n := chunkSize p m t
        let bytes := bytesAfter s m t n
        let s' := (memAfter s m t n).updatePort t.port (fun q => q.withBytes bytes)
        ((t.remaining - n = 0 ∨ available t.dir { m with bytes := bytes } = 0) ∧
            moveChunk t s = (s'.updatePort t.port (fun q => q.withBusy false), .complete)) ∨
          (0 < t.remaining - n ∧ 0 < available t.dir { m with bytes := bytes } ∧
            moveChunk t s = (s', .ongoing (.transfer (t.advance n)))) := by
  cases hp : s.lookupPort t.port with
  | none => exact .inl (by simp [moveChunk, hp])
  | some p =>
    cases hm : p.mailbox with
    | none => exact .inl (by simp [moveChunk, hp, hm])
    | some m =>
      by_cases hs : chunkSize p m t = 0 ∨ s.dataAddr t.addr + chunkSize p m t ≤ s.cfg.memSize
      · right
        refine ⟨p, m, rfl, hm, hs, ?_⟩
        by_cases hd : t.remaining - chunkSize p m t = 0 ∨
            available t.dir { m with bytes := bytesAfter s m t (chunkSize p m t) } = 0
        · exact .inl ⟨hd, by simp [moveChunk, hp, hm, State.inStore, hs, Transfer.advance, hd]⟩
        · refine .inr ⟨by omega, by omega, ?_⟩
          simp [moveChunk, hp, hm, State.inStore, hs, Transfer.advance, hd]
      · exact .inl (by simp [moveChunk, hp, hm, State.inStore, hs])

theorem chunkSize_le (p : Port) (m : Mailbox) (t : Transfer) :
    chunkSize p m t ≤ t.remaining ∧ chunkSize p m t ≤ available t.dir m := by
  unfold chunkSize
  constructor
  · split <;> omega
  · exact Nat.min_le_right _ _

theorem memAfter_eq (s : State) (m : Mailbox) (t : Transfer) (n : Nat) :
    memAfter s m t n = { s with mem := (memAfter s m t n).mem } := by
  unfold memAfter
  split <;> rfl

/-- The bytes a chunk leaves alone. -/
theorem memAfter_readByte (s : State) (m : Mailbox) (t : Transfer) (n a : Nat)
    (h : a < s.dataAddr t.addr ∨ s.dataAddr t.addr + n ≤ a) : (memAfter s m t n).readByte a = s.readByte a := by
  unfold memAfter
  split
  · simp only [readByte_eq, State.writeBytes_mem, Memory.read_writeBytes]
    rw [if_neg]
    rw [List.length_take]
    omega
  · rfl

/-- A started transfer with no byte to move completes, whatever its address, and its port is not busy afterwards
(R254 to R256). -/
theorem moveChunk_zero (t : Transfer) (s : State) (p : Port) (m : Mailbox) (hp : s.lookupPort t.port = some p)
    (hm : p.mailbox = some m) (h0 : t.remaining = 0) :
    moveChunk t s =
      (((memAfter s m t 0).updatePort t.port (fun q => q.withBytes (bytesAfter s m t 0))).updatePort t.port
        (fun q => q.withBusy false), .complete) := by
  have hn : chunkSize p m t = 0 := by
    have := (chunkSize_le p m t).1
    omega
  simp [moveChunk, hp, hm, hn, h0, State.inStore, Transfer.advance]

/-! ### Device moves, and the platform's answer to a signal (R187, R240) -/

/-- All that a device's attempt can do: nothing, a report of failure, or the effect of a legal operation. -/
theorem deviceMove_cases (s : State) (a : Word) (m : DeviceMove) :
    s.deviceMove a m = s ∨ s.deviceMove a m = s.reportFailure a ∨
      ∃ p, s.lookupPort a = some p ∧ p.device.isSome = true ∧ m.legal p = true ∧
        s.deviceMove a m = s.updatePort a m.effect := by
  unfold State.deviceMove
  cases h : s.lookupPort a with
  | none => exact .inl rfl
  | some p =>
    cases hd : p.device with
    | none => exact .inl (by simp [hd])
    | some d =>
      cases hl : m.legal p with
      | false => exact .inr (.inl (by simp [hd, hl]))
      | true => exact .inr (.inr ⟨p, rfl, by simp [hd], hl, by simp [hd, hl]⟩)

/-- A legal operation finds the device in control of the mailbox. -/
theorem legal_controller (m : DeviceMove) (p : Port) (h : m.legal p = true) : p.controller = .device := by
  unfold DeviceMove.legal at h
  simp_all

@[simp] theorem effect_addr (m : DeviceMove) (p : Port) : (m.effect p).addr = p.addr := by
  cases m <;> rfl

@[simp] theorem effect_busy (m : DeviceMove) (p : Port) : (m.effect p).busy = p.busy := by
  cases m <;> rfl

@[simp] theorem effect_device (m : DeviceMove) (p : Port) : (m.effect p).device = p.device := by
  cases m <;> rfl

/-- A device's attempt changes ports and reports only. -/
theorem deviceMove_eq (s : State) (a : Word) (m : DeviceMove) :
    s.deviceMove a m =
      { s with ports := (s.deviceMove a m).ports, deviceFailures := (s.deviceMove a m).deviceFailures } := by
  rcases deviceMove_cases s a m with h | h | ⟨p, -, -, -, h⟩ <;> rw [h] <;> rfl

/-- All that a platform's write can do. -/
theorem storePlatformByte_cases (s : State) (a : Nat) (v : Byte) :
    s.storePlatformByte a v = s ∨
      (s.inSegments a = false ∧ a < s.cfg.memSize ∧ s.storePlatformByte a v = s.writeBytes a [v]) := by
  unfold State.storePlatformByte
  by_cases h : (!s.inSegments a && s.inStore a 1) = true
  · rw [if_pos h]
    simp only [State.inStore, Bool.and_eq_true, Bool.not_eq_true', decide_eq_true_eq] at h
    exact .inr ⟨h.1, by omega, rfl⟩
  · rw [if_neg h]
    exact .inl rfl

/-- What `SIGNAL_EFFECT` can change: ports, reports to devices, and the store outside the segments (R187). -/
theorem applyPlatformMove_eq (m : PlatformMove) (s : State) :
    applyPlatformMove m s =
      { s with
        ports := (applyPlatformMove m s).ports
        mem := (applyPlatformMove m s).mem
        deviceFailures := (applyPlatformMove m s).deviceFailures } := by
  cases m with
  | device a d =>
    change s.deviceMove a d = { s with
      ports := (s.deviceMove a d).ports, mem := (s.deviceMove a d).mem
      deviceFailures := (s.deviceMove a d).deviceFailures }
    rw [deviceMove_eq]
  | storeByte a v =>
    change s.storePlatformByte a v = { s with
      ports := (s.storePlatformByte a v).ports, mem := (s.storePlatformByte a v).mem
      deviceFailures := (s.storePlatformByte a v).deviceFailures }
    rcases storePlatformByte_cases s a v with h | ⟨-, -, h⟩
    · rw [h]
    · rw [h]
      rfl

theorem applyPlatformMoves_eq (ms : List PlatformMove) (s : State) :
    applyPlatformMoves ms s =
      { s with
        ports := (applyPlatformMoves ms s).ports
        mem := (applyPlatformMoves ms s).mem
        deviceFailures := (applyPlatformMoves ms s).deviceFailures } := by
  induction ms generalizing s with
  | nil => rfl
  | cons m rest ih =>
    refine (ih (applyPlatformMove m s)).trans ?_
    change _ = ({ s with
      ports := (applyPlatformMoves rest (applyPlatformMove m s)).ports
      mem := (applyPlatformMoves rest (applyPlatformMove m s)).mem
      deviceFailures := (applyPlatformMoves rest (applyPlatformMove m s)).deviceFailures } : State)
    generalize applyPlatformMoves rest (applyPlatformMove m s) = u
    rw [applyPlatformMove_eq]

/-- No byte of a segment is the platform's to write (R187). -/
theorem applyPlatformMoves_readByte (ms : List PlatformMove) (s : State) (a : Nat) (h : s.inSegments a = true) :
    (applyPlatformMoves ms s).readByte a = s.readByte a := by
  induction ms generalizing s with
  | nil => rfl
  | cons m rest ih =>
    have hseg : (applyPlatformMove m s).inSegments a = true := by
      rw [applyPlatformMove_eq]
      exact h
    refine (ih _ hseg).trans ?_
    cases m with
    | device b d =>
      change (s.deviceMove b d).readByte a = s.readByte a
      rw [deviceMove_eq]
      rfl
    | storeByte b v =>
      change (s.storePlatformByte b v).readByte a = s.readByte a
      rcases storePlatformByte_cases s b v with h' | ⟨hb, -, h'⟩ <;> rw [h']
      simp only [readByte_eq, State.writeBytes_mem, Memory.read_writeBytes]
      rw [if_neg]
      intro hc
      have : a = b := by
        simp only [List.length_cons, List.length_nil] at hc
        omega
      subst this
      simp_all

/-- All that an accepted signal does (R189). -/
theorem handleSignal_accepted (c : SignalCall) (s : State) (h : s.signalValid c.arg0 = true) :
    handleSignal c s = ((s.signalPlatform c).setFlags false false, .complete) := by
  simp [handleSignal, h]

theorem signalPlatform_eq (s : State) (c : SignalCall) :
    s.signalPlatform c =
      { s.recordSignal c with
        ports := (s.signalPlatform c).ports
        mem := (s.signalPlatform c).mem
        deviceFailures := (s.signalPlatform c).deviceFailures } :=
  applyPlatformMoves_eq _ _

/-! ### What no handler touches (R38) -/

/-- The fields outside the handlers' reach: configuration, segment table, `IR`, queues, pending inputs. -/
def HandlerKeeps (s t : State) : Prop :=
  t.cfg = s.cfg ∧ t.segs = s.segs ∧ t.ir = s.ir ∧ t.newQ = s.newQ ∧ t.ongoing = s.ongoing ∧ t.env = s.env ∧
    t.resolverAnswers = s.resolverAnswers

theorem HandlerKeeps.rfl (s : State) : HandlerKeeps s s :=
  ⟨.refl _, .refl _, .refl _, .refl _, .refl _, .refl _, .refl _⟩

theorem HandlerKeeps.trans {s t u : State} (h : HandlerKeeps s t) (h' : HandlerKeeps t u) : HandlerKeeps s u := by
  unfold HandlerKeeps at *
  simp_all

theorem moveChunk_keeps (t : Transfer) (s : State) : HandlerKeeps s (moveChunk t s).1 := by
  rcases moveChunk_cases t s with h | ⟨p, m, -, -, -, h⟩
  · rw [h]
    exact .rfl s
  · rcases h with ⟨-, h⟩ | ⟨-, -, h⟩ <;> rw [h, memAfter_eq] <;> simp [HandlerKeeps]

theorem startIndirect_keeps (t : Transfer) (s : State) : HandlerKeeps s (startIndirect t s).1 := by
  unfold startIndirect
  split
  · simp [HandlerKeeps, State.raiseInHandler]
  · split
    · simp [HandlerKeeps, State.raiseInHandler]
    · refine HandlerKeeps.trans ?_ (moveChunk_keeps _ _)
      split <;> simp [HandlerKeeps]

theorem handle_keeps (a : Action) (s : State) : HandlerKeeps s (handle a s).1 := by
  cases a with
  | load addr r =>
    change HandlerKeeps s (handleLoad addr r s).1
    unfold handleLoad
    (repeat' split) <;> simp [HandlerKeeps, State.raiseInHandler]
  | store addr w =>
    change HandlerKeeps s (handleStore addr w s).1
    unfold handleStore
    (repeat' split) <;> simp [HandlerKeeps, State.raiseInHandler]
  | push m =>
    change HandlerKeeps s (handlePush m s).1
    unfold handlePush
    rw [pushWords_eq]
    (repeat' split) <;> simp [HandlerKeeps, State.raiseInHandler]
  | pop m =>
    change HandlerKeeps s (handlePop m s).1
    unfold handlePop
    dsimp only
    rw [popWords_eq]
    (repeat' split) <;> simp [HandlerKeeps, State.raiseInHandler]
  | query port k => simp [handle, handleQuery, HandlerKeeps]
  | relinquish port =>
    change HandlerKeeps s (handleRelinquish port s).1
    unfold handleRelinquish
    (repeat' split) <;> simp [HandlerKeeps, State.raiseInHandler]
  | transfer t =>
    change HandlerKeeps s (handleTransfer t s).1
    unfold handleTransfer
    split
    · split
      · exact moveChunk_keeps t s
      · exact startIndirect_keeps t s
    · split
      · unfold directRead
        split <;> simp [HandlerKeeps, State.raiseInHandler]
      · unfold directWrite
        split <;> simp [HandlerKeeps, State.raiseInHandler]
  | signal c =>
    change HandlerKeeps s (handleSignal c s).1
    unfold handleSignal
    rw [signalPlatform_eq]
    split <;> simp [HandlerKeeps, State.raiseInHandler]

/-- Only an indirect transfer can answer *ongoing*, and then with a transfer of the same port, started (R200, R205). -/
theorem handle_ongoing (a a' : Action) (s t : State) (h : handle a s = (t, .ongoing a')) :
    ∃ u n, a = .transfer u ∧ u.indirect = true ∧
      (a' = .transfer (u.advance n) ∨
        ∃ r, a' = .transfer (Transfer.advance { u with started := true, remaining := r } n)) := by
  have chunk : ∀ (u : Transfer) (s t : State), moveChunk u s = (t, .ongoing a') → ∃ n, a' = .transfer (u.advance n) := by
    intro u s t h
    rcases moveChunk_cases u s with h' | ⟨p, m, -, -, -, h'⟩
    · rw [h'] at h; cases h
    · rcases h' with ⟨-, h'⟩ | ⟨-, -, h'⟩ <;> rw [h'] at h
      · cases h
      · simp only [Prod.mk.injEq, Resolution.ongoing.injEq] at h
        exact ⟨_, h.2.symm⟩
  cases a with
  | load addr r =>
    change handleLoad addr r s = _ at h
    unfold handleLoad State.raiseInHandler at h
    (repeat' split at h) <;> cases h
  | store addr w =>
    change handleStore addr w s = _ at h
    unfold handleStore State.raiseInHandler at h
    (repeat' split at h) <;> cases h
  | push m =>
    change handlePush m s = _ at h
    unfold handlePush State.raiseInHandler at h
    (repeat' split at h) <;> cases h
  | pop m =>
    change handlePop m s = _ at h
    unfold handlePop State.raiseInHandler at h
    (repeat' split at h) <;> cases h
  | query port k => cases h
  | relinquish port =>
    change handleRelinquish port s = _ at h
    unfold handleRelinquish State.raiseInHandler at h
    (repeat' split at h) <;> cases h
  | signal c =>
    change handleSignal c s = _ at h
    unfold handleSignal State.raiseInHandler at h
    (repeat' split at h) <;> cases h
  | transfer u =>
    change handleTransfer u s = _ at h
    unfold handleTransfer at h
    split at h
    · rename_i hi
      split at h
      · obtain ⟨n, hn⟩ := chunk u s t h
        exact ⟨u, n, rfl, hi, .inl hn⟩
      · unfold startIndirect State.raiseInHandler at h
        split at h
        · cases h
        · split at h
          · cases h
          · obtain ⟨n, hn⟩ := chunk _ _ t h
            exact ⟨u, n, rfl, hi, .inr ⟨_, hn⟩⟩
    · split at h
      · unfold directRead State.raiseInHandler at h
        split at h <;> cases h
      · unfold directWrite State.raiseInHandler at h
        split at h <;> cases h

end Sys2Proof.Machine
end

