-- ==== Sys2Proof/Laws/Scheduler.lean ====
section
/-! SUPPORT. The arbiter: what one resolution does, the pass as equations, and the principle by which a property
that every handler keeps is kept by the pass. -/

namespace Sys2Proof.Machine

/-- All that one resolution can do (R206). -/
theorem resolve_cases (a : Action) (s : State) :
    (s.nextActionFails = true ∧ resolve a s = (s.dropAnswer, .failed)) ∨
      (s.nextActionFails = false ∧ resolve a s = handle a s.dropAnswer) := by
  cases h : s.nextActionFails <;> simp [resolve, h]

theorem dropAnswer_nil (s : State) (h : s.resolverAnswers = []) : s.dropAnswer = s := by
  cases s
  simp_all [State.dropAnswer]

/-- With no pending answer a resolution is the handler's (the default of `ACTION_FAILS`, R8). -/
theorem resolve_default (a : Action) (s : State) (h : s.resolverAnswers = []) : resolve a s = handle a s := by
  simp [resolve, State.nextActionFails, h, dropAnswer_nil]

theorem resolveNew_nil (k r : Nat) (s : State) : resolveNew [] k r s = (s, [], false) := rfl

theorem resolveOngoing_nil (s : State) : resolveOngoing [] s = (s, []) := rfl

/-- An entry the new queue has no place for (entry 11). -/
theorem resolveNew_noPlace (a : Action) (rest : List Action) (r : Nat) (s : State) :
    resolveNew (a :: rest) 0 r s = (s.setFault .spv 0, [], true) := rfl

theorem resolveNew_complete (a : Action) (rest : List Action) (k r : Nat) (s t : State)
    (h : resolve a s = (t, .complete)) : resolveNew (a :: rest) (k + 1) r s = resolveNew rest k r t := by
  simp only [resolveNew, h]

theorem resolveNew_ongoing (a a' : Action) (rest : List Action) (k r : Nat) (s t : State)
    (h : resolve a s = (t, .ongoing a')) :
    resolveNew (a :: rest) (k + 1) (r + 1) s =
      ((resolveNew rest k r t).1, a' :: (resolveNew rest k r t).2.1, (resolveNew rest k r t).2.2) := by
  simp only [resolveNew, h]

/-- An action that would become ongoing where the ongoing queue is full (entry 11). -/
theorem resolveNew_noRoom (a a' : Action) (rest : List Action) (k : Nat) (s t : State)
    (h : resolve a s = (t, .ongoing a')) :
    resolveNew (a :: rest) (k + 1) 0 s = (s.dropAnswer.setFault .spv 0, [], true) := by
  simp only [resolveNew, h]

theorem resolveNew_failed (a : Action) (rest : List Action) (k r : Nat) (s t : State)
    (h : resolve a s = (t, .failed)) :
    resolveNew (a :: rest) (k + 1) r s = (t.setFault .spv 0, [], true) := by
  simp only [resolveNew, h]

theorem resolveOngoing_complete (a : Action) (rest : List Action) (s t : State)
    (h : resolve a s = (t, .complete)) : resolveOngoing (a :: rest) s = resolveOngoing rest t := by
  simp only [resolveOngoing, h]

theorem resolveOngoing_ongoing (a a' : Action) (rest : List Action) (s t : State)
    (h : resolve a s = (t, .ongoing a')) :
    resolveOngoing (a :: rest) s = ((resolveOngoing rest t).1, a' :: (resolveOngoing rest t).2) := by
  simp only [resolveOngoing, h]

theorem resolveOngoing_failed (a : Action) (rest : List Action) (s t : State) (h : resolve a s = (t, .failed)) :
    resolveOngoing (a :: rest) s = (t.setFault .spv 0, rest) := by
  simp only [resolveOngoing, h]

/-- The new queue's part of the pass, with the depths of R8. -/
def newPass (s : State) : State × List Action × Bool :=
  resolveNew s.newQ s.cfg.newQDepth (s.ongoingCapacity - s.ongoing.length) s

/-- Where the pass is not stopped. -/
theorem resolveCycle_run (s t : State) (block : List Action) (h : newPass s = (t, block, false)) :
    resolveCycle s =
      (resolveOngoing s.ongoing t).1.withQueues [] (block ++ (resolveOngoing s.ongoing t).2) := by
  unfold newPass at h
  simp [resolveCycle, h]

/-- Where a *failed* new action stops it. -/
theorem resolveCycle_stopped (s t : State) (block : List Action) (h : newPass s = (t, block, true)) :
    resolveCycle s = t.withQueues [] (block ++ s.ongoing) := by
  unfold newPass at h
  simp [resolveCycle, h]

@[simp] theorem resolveCycle_newQ (s : State) : (resolveCycle s).newQ = [] := by
  unfold resolveCycle
  dsimp only
  split <;> rfl

section Preserve

variable (P : State → Prop) (hdrop : ∀ s, P s → P s.dropAnswer) (hspv : ∀ s, P s → P (s.setFault .spv 0))
  (hhandle : ∀ a s, P s → P (handle a s).1)
include hdrop hhandle

theorem resolve_preserves (a : Action) (s : State) (h : P s) : P (resolve a s).1 := by
  rcases resolve_cases a s with ⟨-, h'⟩ | ⟨-, h'⟩ <;> rw [h']
  · exact hdrop s h
  · exact hhandle a _ (hdrop s h)

include hspv

theorem resolveNew_preserves (q : List Action) (k r : Nat) (s : State) (h : P s) : P (resolveNew q k r s).1 := by
  induction q generalizing k r s with
  | nil => exact h
  | cons a rest ih =>
    cases k with
    | zero => exact hspv s h
    | succ k =>
      have hr := resolve_preserves P hdrop hhandle a s h
      cases hres : resolve a s with
      | mk t res =>
        rw [hres] at hr
        cases res with
        | complete => rw [resolveNew_complete a rest k r s t hres]; exact ih k r t hr
        | ongoing a' =>
          cases r with
          | zero => rw [resolveNew_noRoom a a' rest k s t hres]; exact hspv _ (hdrop s h)
          | succ r => rw [resolveNew_ongoing a a' rest k r s t hres]; exact ih k r t hr
        | failed => rw [resolveNew_failed a rest k r s t hres]; exact hspv t hr

theorem resolveOngoing_preserves (q : List Action) (s : State) (h : P s) : P (resolveOngoing q s).1 := by
  induction q generalizing s with
  | nil => exact h
  | cons a rest ih =>
    have hr := resolve_preserves P hdrop hhandle a s h
    cases hres : resolve a s with
    | mk t r =>
      rw [hres] at hr
      cases r with
      | complete => rw [resolveOngoing_complete a rest s t hres]; exact ih t hr
      | ongoing a' => rw [resolveOngoing_ongoing a a' rest s t hres]; exact ih t hr
      | failed => rw [resolveOngoing_failed a rest s t hres]; exact hspv t hr

/-- A property that every handler keeps, and that does not look at the queues, is kept by the whole pass. -/
theorem resolveCycle_preserves (hq : ∀ s q o, P s → P (s.withQueues q o)) (s : State) (h : P s) :
    P (resolveCycle s) := by
  have h1 := resolveNew_preserves P hdrop hspv hhandle s.newQ s.cfg.newQDepth (s.ongoingCapacity - s.ongoing.length) s h
  unfold resolveCycle
  dsimp only
  split
  · exact hq _ _ _ h1
  · exact hq _ _ _ (resolveOngoing_preserves P hdrop hspv hhandle s.ongoing _ h1)

end Preserve

/-- What the pass never touches: the parameters, the segment table, `IR` and the environment's pending moves. -/
theorem resolveCycle_keeps (s : State) :
    (resolveCycle s).cfg = s.cfg ∧ (resolveCycle s).segs = s.segs ∧ (resolveCycle s).ir = s.ir ∧
      (resolveCycle s).env = s.env := by
  refine resolveCycle_preserves (fun t => t.cfg = s.cfg ∧ t.segs = s.segs ∧ t.ir = s.ir ∧ t.env = s.env)
    (fun t h => by simpa using h) (fun t h => by simpa using h) (fun a t h => ?_) (fun t q o h => by simpa using h)
    s ⟨rfl, rfl, rfl, rfl⟩
  obtain ⟨h1, h2, h3, -, -, h4, -⟩ := handle_keeps a t
  exact ⟨h1.trans h.1, h2.trans h.2.1, h3.trans h.2.2.1, h4.trans h.2.2.2⟩

end Sys2Proof.Machine
end

