-- ==== Sys2Proof/Laws/Cycle.lean ====
section
/-! SUPPORT. Environment, execute phase, cycle and step: what each can do, said once. -/

namespace Sys2Proof.Machine

/-! ### The segment table (R53) -/

theorem segmentOk_iff (n : Nat) (g : Segment) :
    segmentOk n g = true ↔ g.base % 2 = 0 ∧ g.len % 2 = 0 ∧ g.len ≤ 65536 ∧ g.base + g.len ≤ n := by
  simp [segmentOk, and_assoc]

theorem segmentsDisjoint_iff (g h : Segment) :
    segmentsDisjoint g h = true ↔
      g.len = 0 ∨ h.len = 0 ∨ g.base + g.len ≤ h.base ∨ h.base + h.len ≤ g.base := by
  simp [segmentsDisjoint, or_assoc]

theorem segsOk_iff (s : State) :
    s.segsOk = true ↔
      segmentOk s.cfg.memSize s.segs.cs = true ∧ segmentOk s.cfg.memSize s.segs.ds = true ∧
        segmentOk s.cfg.memSize s.segs.ss = true ∧ segmentsDisjoint s.segs.cs s.segs.ds = true ∧
        segmentsDisjoint s.segs.cs s.segs.ss = true ∧ segmentsDisjoint s.segs.ds s.segs.ss = true := by
  simp [State.segsOk, segTableOk, and_assoc]

/-- A data address that passed the bounds check lies in the store. -/
theorem data_inStore (s : State) (a : Word) (n : Nat) (h : s.segsOk = true) (hb : a.toNat + n ≤ s.segs.ds.len) :
    s.dataAddr a + n ≤ s.cfg.memSize := by
  have := (segmentOk_iff _ _).mp ((segsOk_iff s).mp h).2.1
  unfold State.dataAddr
  omega

/-- A stack range that passed the bounds check lies in the store. -/
theorem stack_inStore (s : State) (off n : Nat) (h : s.segsOk = true) (hb : off + n ≤ s.segs.ss.len) :
    s.stackAddr off + n ≤ s.cfg.memSize := by
  have := (segmentOk_iff _ _).mp ((segsOk_iff s).mp h).2.2.1
  unfold State.stackAddr
  omega

/-- A code word that passed the bounds check lies in the store. -/
theorem code_inStore (s : State) (a : Word) (h : s.segsOk = true) (hb : a.toNat + 2 ≤ s.segs.cs.len) :
    s.codeAddr a + 2 ≤ s.cfg.memSize := by
  have := (segmentOk_iff _ _).mp ((segsOk_iff s).mp h).1
  unfold State.codeAddr
  omega

/-! ### The environment -/

/-- A move of the environment never changes the parameters, nor the model's record of pending inputs. -/
theorem applyMove_keeps (m : EnvMove) (s : State) :
    (applyMove m s).cfg = s.cfg ∧ (applyMove m s).env = s.env ∧
      (applyMove m s).resolverAnswers = s.resolverAnswers ∧ (applyMove m s).signals = s.signals ∧
      (applyMove m s).signalEffects = s.signalEffects := by
  cases m with
  | device a d =>
    change (s.deviceMove a d).cfg = s.cfg ∧ (s.deviceMove a d).env = s.env ∧
      (s.deviceMove a d).resolverAnswers = s.resolverAnswers ∧ (s.deviceMove a d).signals = s.signals ∧
      (s.deviceMove a d).signalEffects = s.signalEffects
    rw [deviceMove_eq]
    exact ⟨rfl, rfl, rfl, rfl, rfl⟩
  | hostReset ports =>
    cases ports <;> exact ⟨rfl, rfl, rfl, rfl, rfl⟩
  | _ => exact ⟨rfl, rfl, rfl, rfl, rfl⟩

/-- A property that every move keeps is kept by a gap. -/
theorem applyMoves_preserves (P : State → Prop) (h : ∀ m s, P s → P (applyMove m s)) (ms : List EnvMove) (s : State)
    (hs : P s) : P (applyMoves ms s) := by
  unfold applyMoves
  induction ms generalizing s with
  | nil => exact hs
  | cons m rest ih => exact ih _ (h m s hs)

theorem applyGap_preserves (P : State → Prop) (h : ∀ m s, P s → P (applyMove m s))
    (hdrop : ∀ s, P s → P s.dropGap) (s : State) (hs : P s) : P (applyGap s) :=
  applyMoves_preserves P h _ _ (hdrop s hs)

theorem applyGap_cfg (s : State) : (applyGap s).cfg = s.cfg :=
  applyGap_preserves (fun t => t.cfg = s.cfg) (fun m t h => (applyMove_keeps m t).1.trans h) (fun _ h => h) s rfl

/-- A gap with no pending move changes nothing. -/
theorem applyGap_quiet (s : State) (h : s.env = []) : applyGap s = s := by
  cases s
  simp_all [applyGap, applyMoves, State.dropGap]

/-- The memory a load leaves is in its canonical form, whatever the image. -/
theorem imageMemory_wf (n : Nat) (image : List Host.Cell) : Memory.wf (imageMemory n image) := by
  suffices h : ∀ m, Memory.wf m →
      Memory.wf (image.foldl (fun m c => if c.1 < n then Memory.write m c.1 c.2 else m) m) from
    h [] Memory.reset_wf
  induction image with
  | nil => exact fun m hm => hm
  | cons c rest ih =>
    intro m hm
    rw [List.foldl_cons]
    apply ih
    split
    · exact Memory.wf_write m c.1 c.2 hm
    · exact hm

/-! ### The execute phase and the cycle -/

theorem execute_ok (w : Word) (s : State) (i : Instr) (hr : (s.setIr w).handlerRemoved (field w 12 4) = false)
    (hd : decodeWord w = .ok i) : execute w s = exec i (s.setIr w) := by
  simp [execute, hr, hd]

theorem execute_removed (w : Word) (s : State) (hr : (s.setIr w).handlerRemoved (field w 12 4) = true) :
    execute w s = .next ((s.setIr w).setFault .ini ((field w 12 4).zeroExtend 12)) := by
  simp [execute, hr, raiseUnassigned, State.raise]

/-- All that a fetch and execute phase can do (R212). -/
theorem fetchExecute_cases (s : State) :
    (isOdd (s.x .pc) = true ∧ fetchExecute s = .next (s.setFault .algn 0)) ∨
      (isOdd (s.x .pc) = false ∧ s.segs.cs.len < (s.x .pc).toNat + 2 ∧
        fetchExecute s = .next (s.setFault .seg 0)) ∨
      (isOdd (s.x .pc) = false ∧ (s.x .pc).toNat + 2 ≤ s.segs.cs.len ∧ s.cfg.memSize < s.codeAddr (s.x .pc) + 2 ∧
        fetchExecute s = .fault (.storeFailure (s.codeAddr (s.x .pc)))) ∨
      (isOdd (s.x .pc) = false ∧ (s.x .pc).toNat + 2 ≤ s.segs.cs.len ∧ s.codeAddr (s.x .pc) + 2 ≤ s.cfg.memSize ∧
        fetchExecute s = execute (s.readWord (s.codeAddr (s.x .pc))) (s.setX .pc (s.x .pc + 2))) := by
  have hseg : inSegment s.segs.cs (s.x .pc).toNat 2 = decide ((s.x .pc).toNat + 2 ≤ s.segs.cs.len) := rfl
  have hst : s.inStore (s.codeAddr (s.x .pc)) 2 = decide (s.codeAddr (s.x .pc) + 2 ≤ s.cfg.memSize) :=
    decide_eq_decide.mpr (by omega)
  rw [fetchExecute, hseg, hst]
  by_cases h1 : isOdd (s.x .pc) = true
  · exact .inl ⟨h1, by rw [if_pos h1]⟩
  · have h1' : isOdd (s.x .pc) = false := Bool.eq_false_iff.mpr h1
    rw [if_neg h1]
    by_cases h2 : (s.x .pc).toNat + 2 ≤ s.segs.cs.len
    · by_cases h3 : s.codeAddr (s.x .pc) + 2 ≤ s.cfg.memSize
      · exact .inr (.inr (.inr ⟨h1', h2, h3, by rw [decide_eq_true h2, decide_eq_true h3]; rfl⟩))
      · exact .inr (.inr (.inl ⟨h1', h2, by omega, by rw [decide_eq_true h2, decide_eq_false h3]; rfl⟩))
    · exact .inr (.inl ⟨h1', by omega, by rw [decide_eq_false h2]; rfl⟩)

theorem thenResolve_next (r : Result) (t : State) (h : thenResolve r = .next t) :
    ∃ u, r = .next u ∧ t = resolveCycle u := by
  cases r with
  | next u =>
    simp only [thenResolve, Host.Outcome.next.injEq] at h
    exact ⟨u, rfl, h.symm⟩
  | fault r => cases h
  | refused r => cases h

/-- All that a step with a next state can have done: the gap, and then one cycle or, halted, nothing (R211). -/
theorem step_next (s t : State) (h : step s = .next t) :
    (applyGap s).segsOk = true ∧
      (((applyGap s).halted = true ∧ t = applyGap s) ∨
        ((applyGap s).halted = false ∧
          ∃ u, fetchExecute (applyGap s).openFaultLatch = .next u ∧ t = resolveCycle u)) := by
  unfold step runSequencer at h
  split at h
  · cases h
  · rename_i hs
    refine ⟨by simpa using hs, ?_⟩
    split at h
    · rename_i hh
      exact .inl ⟨hh, by cases h; rfl⟩
    · rename_i hh
      exact .inr ⟨by simpa using hh, thenResolve_next _ _ h⟩

theorem step_cycle (s : State) (hs : (applyGap s).segsOk = true) (hh : (applyGap s).halted = false) :
    step s = cycle (applyGap s) := by
  simp [step, runSequencer, hs, hh]

end Sys2Proof.Machine
end

