-- ==== Sys2Proof/Laws/PerInstr.lean ====
section
/-! SUPPORT. Statements made instruction by instruction. The family `MatchesTable`: the encoder's word has the fixed
bits that the instruction's row of spec/opcode_table.json gives it, columns `mask` and `match`. -/

namespace Sys2Proof.Laws

/-- Column `mask` of the instruction's row. -/
def rowMask : Instr → Word
  | .addR _ _ _ => 0xF000
  | .addL _ _ => 0xF000
  | .subR _ _ _ => 0xF000
  | .subL _ _ => 0xF000
  | .asgnR _ _ _ => 0xF000
  | .asgnL _ _ => 0xF000
  | .mulR _ _ => 0xF400
  | .mulL _ _ _ => 0xF400
  | .divR _ _ => 0xF400
  | .divL _ _ _ => 0xF400
  | .shftR _ _ _ => 0xF000
  | .shftL _ _ _ => 0xF000
  | .andR _ _ _ => 0xF0C0
  | .andM _ _ _ _ => 0xF0C0
  | .orR _ _ _ => 0xF0C0
  | .orM _ _ _ _ => 0xF0C0
  | .xorR _ _ _ => 0xF0C0
  | .xorM _ _ _ _ => 0xF0C0
  | .not _ _ _ => 0xF0C0
  | .cbxLr _ _ _ => 0xF800
  | .cbxRel _ _ _ _ => 0xF800
  | .ld _ _ => 0xF800
  | .st _ _ => 0xF800
  | .dpq _ _ => 0xF000
  | .dpoRelq _ _ => 0xF003
  | .dpoRd _ => 0xF803
  | .dpoWr _ => 0xF803
  | .dpoRdI _ => 0xF803
  | .dpoWrI _ => 0xF803
  | .pop _ _ => 0xF800
  | .push _ _ => 0xF800
  | .sig _ => 0xF000
  | .ini0D _ => 0xF000
  | .ini0E _ => 0xF000
  | .hcf _ => 0xF000

/-- Column `match` of the instruction's row. -/
def rowMatch : Instr → Word
  | .addR _ _ _ => 0x0000
  | .addL _ _ => 0x0000
  | .subR _ _ _ => 0x1000
  | .subL _ _ => 0x1000
  | .asgnR _ _ _ => 0x4000
  | .asgnL _ _ => 0x4000
  | .mulR _ _ => 0x2000
  | .mulL _ _ _ => 0x2400
  | .divR _ _ => 0x3000
  | .divL _ _ _ => 0x3400
  | .shftR _ _ _ => 0x5000
  | .shftL _ _ _ => 0x5000
  | .andR _ _ _ => 0x6000
  | .andM _ _ _ _ => 0x6000
  | .orR _ _ _ => 0x6040
  | .orM _ _ _ _ => 0x6040
  | .xorR _ _ _ => 0x6080
  | .xorM _ _ _ _ => 0x6080
  | .not _ _ _ => 0x60C0
  | .cbxLr _ _ _ => 0x7000
  | .cbxRel _ _ _ _ => 0x7800
  | .ld _ _ => 0x8000
  | .st _ _ => 0x8800
  | .dpq _ _ => 0x9000
  | .dpoRelq _ _ => 0xA001
  | .dpoRd _ => 0xA002
  | .dpoWr _ => 0xA003
  | .dpoRdI _ => 0xA802
  | .dpoWrI _ => 0xA803
  | .pop _ _ => 0xB000
  | .push _ _ => 0xB800
  | .sig _ => 0xC000
  | .ini0D _ => 0xD000
  | .ini0E _ => 0xE000
  | .hcf _ => 0xF000

/-- A word agrees with a pattern under a mask if it does so bit by bit. -/
theorem masked_eq (w mask pattern : Word)
    (h : ∀ i : Fin 16, (bit w i && bit mask i) = bit pattern i) : w &&& mask = pattern :=
  word_ext _ _ (fun i hi => by simpa [bit] using h ⟨i, hi⟩)

/-- The word written for the instruction is one of its row's. -/
def MatchesTable.Statement (i : Instr) : Prop :=
  encode i &&& rowMask i = rowMatch i

theorem MatchesTable.addR (a b : Reg) (v : BitVec 8) : MatchesTable.Statement (.addR a b v) :=
  masked_eq _ _ _ (by
    intro i
    fin_cases i <;> simp [encode, rowMask, rowMatch, putRegs, bit_or, bit_put] <;> simp [bit])

theorem MatchesTable.addL (b : Reg) (l : BitVec 8) : MatchesTable.Statement (.addL b l) :=
  masked_eq _ _ _ (by
    intro i
    fin_cases i <;> simp [encode, rowMask, rowMatch, putRegs, bit_or, bit_put] <;> simp [bit])

theorem MatchesTable.subR (a b : Reg) (v : BitVec 8) : MatchesTable.Statement (.subR a b v) :=
  masked_eq _ _ _ (by
    intro i
    fin_cases i <;> simp [encode, rowMask, rowMatch, putRegs, bit_or, bit_put] <;> simp [bit])

theorem MatchesTable.subL (b : Reg) (l : BitVec 8) : MatchesTable.Statement (.subL b l) :=
  masked_eq _ _ _ (by
    intro i
    fin_cases i <;> simp [encode, rowMask, rowMatch, putRegs, bit_or, bit_put] <;> simp [bit])

theorem MatchesTable.asgnR (a b : Reg) (v : BitVec 8) : MatchesTable.Statement (.asgnR a b v) :=
  masked_eq _ _ _ (by
    intro i
    fin_cases i <;> simp [encode, rowMask, rowMatch, putRegs, bit_or, bit_put] <;> simp [bit])

theorem MatchesTable.asgnL (b : Reg) (l : BitVec 8) : MatchesTable.Statement (.asgnL b l) :=
  masked_eq _ _ _ (by
    intro i
    fin_cases i <;> simp [encode, rowMask, rowMatch, putRegs, bit_or, bit_put] <;> simp [bit])

theorem MatchesTable.mulR (d : GenReg) (v : BitVec 10) : MatchesTable.Statement (.mulR d v) :=
  masked_eq _ _ _ (by
    intro i
    fin_cases i <;> simp [encode, rowMask, rowMatch, putMulDiv, putBit, bit_or, bit_put] <;> simp [bit])

theorem MatchesTable.mulL (d : GenReg) (v : BitVec 2) (l : BitVec 8) : MatchesTable.Statement (.mulL d v l) :=
  masked_eq _ _ _ (by
    intro i
    fin_cases i <;> simp [encode, rowMask, rowMatch, putMulDiv, putBit, bit_or, bit_put] <;> simp [bit])

theorem MatchesTable.divR (d : GenReg) (v : BitVec 10) : MatchesTable.Statement (.divR d v) :=
  masked_eq _ _ _ (by
    intro i
    fin_cases i <;> simp [encode, rowMask, rowMatch, putMulDiv, putBit, bit_or, bit_put] <;> simp [bit])

theorem MatchesTable.divL (d : GenReg) (v : BitVec 2) (l : BitVec 8) : MatchesTable.Statement (.divL d v l) :=
  masked_eq _ _ _ (by
    intro i
    fin_cases i <;> simp [encode, rowMask, rowMatch, putMulDiv, putBit, bit_or, bit_put] <;> simp [bit])

theorem MatchesTable.shftR (a b : Reg) (v : BitVec 8) : MatchesTable.Statement (.shftR a b v) :=
  masked_eq _ _ _ (by
    intro i
    fin_cases i <;> simp [encode, rowMask, rowMatch, putRegs, bit_or, bit_put] <;> simp [bit])

theorem MatchesTable.shftL (b : Reg) (v : BitVec 3) (m : BitVec 5) : MatchesTable.Statement (.shftL b v m) :=
  masked_eq _ _ _ (by
    intro i
    fin_cases i <;> simp [encode, rowMask, rowMatch, putRegs, bit_or, bit_put] <;> simp [bit])

theorem MatchesTable.andR (a b : Reg) (v : BitVec 6) : MatchesTable.Statement (.andR a b v) :=
  masked_eq _ _ _ (by
    intro i
    fin_cases i <;> simp [encode, rowMask, rowMatch, putRegs, bit_or, bit_put] <;> simp [bit])

theorem MatchesTable.andM (b : Reg) (f v : Bool) (s : BitVec 4) : MatchesTable.Statement (.andM b f v s) :=
  masked_eq _ _ _ (by
    intro i
    fin_cases i <;> simp [encode, rowMask, rowMatch, putRegs, putMask, putBit, bit_or, bit_put] <;> simp [bit])

theorem MatchesTable.orR (a b : Reg) (v : BitVec 6) : MatchesTable.Statement (.orR a b v) :=
  masked_eq _ _ _ (by
    intro i
    fin_cases i <;> simp [encode, rowMask, rowMatch, putRegs, bit_or, bit_put] <;> simp [bit])

theorem MatchesTable.orM (b : Reg) (f v : Bool) (s : BitVec 4) : MatchesTable.Statement (.orM b f v s) :=
  masked_eq _ _ _ (by
    intro i
    fin_cases i <;> simp [encode, rowMask, rowMatch, putRegs, putMask, putBit, bit_or, bit_put] <;> simp [bit])

theorem MatchesTable.xorR (a b : Reg) (v : BitVec 6) : MatchesTable.Statement (.xorR a b v) :=
  masked_eq _ _ _ (by
    intro i
    fin_cases i <;> simp [encode, rowMask, rowMatch, putRegs, bit_or, bit_put] <;> simp [bit])

theorem MatchesTable.xorM (b : Reg) (f v : Bool) (s : BitVec 4) : MatchesTable.Statement (.xorM b f v s) :=
  masked_eq _ _ _ (by
    intro i
    fin_cases i <;> simp [encode, rowMask, rowMatch, putRegs, putMask, putBit, bit_or, bit_put] <;> simp [bit])

theorem MatchesTable.not (a b : Reg) (v : BitVec 6) : MatchesTable.Statement (.not a b v) :=
  masked_eq _ _ _ (by
    intro i
    fin_cases i <;> simp [encode, rowMask, rowMatch, putRegs, bit_or, bit_put] <;> simp [bit])

theorem MatchesTable.cbxLr (z c : Bool) (v : BitVec 9) : MatchesTable.Statement (.cbxLr z c v) :=
  masked_eq _ _ _ (by
    intro i
    fin_cases i <;> simp [encode, rowMask, rowMatch, putBit, bit_or, bit_put] <;> simp [bit])

theorem MatchesTable.cbxRel (z c v : Bool) (f : BitVec 8) : MatchesTable.Statement (.cbxRel z c v f) :=
  masked_eq _ _ _ (by
    intro i
    fin_cases i <;> simp [encode, rowMask, rowMatch, putBit, bit_or, bit_put] <;> simp [bit])

theorem MatchesTable.ld (r : Reg) (v : BitVec 9) : MatchesTable.Statement (.ld r v) :=
  masked_eq _ _ _ (by
    intro i
    fin_cases i <;> simp [encode, rowMask, rowMatch, bit_or, bit_put] <;> simp [bit])

theorem MatchesTable.st (r : Reg) (v : BitVec 9) : MatchesTable.Statement (.st r v) :=
  masked_eq _ _ _ (by
    intro i
    fin_cases i <;> simp [encode, rowMask, rowMatch, putBit, bit_or, bit_put] <;> simp [bit])

theorem MatchesTable.dpq (v : BitVec 9) (q : BitVec 3) : MatchesTable.Statement (.dpq v q) :=
  masked_eq _ _ _ (by
    intro i
    fin_cases i <;> simp [encode, rowMask, rowMatch, bit_or, bit_put] <;> simp [bit])

theorem MatchesTable.dpoRelq (i : Bool) (v : BitVec 9) : MatchesTable.Statement (.dpoRelq i v) :=
  masked_eq _ _ _ (by
    intro i
    fin_cases i <;> simp [encode, rowMask, rowMatch, putDpo, putBit, bit_or, bit_put] <;> simp [bit])

theorem MatchesTable.dpoRd (v : BitVec 9) : MatchesTable.Statement (.dpoRd v) :=
  masked_eq _ _ _ (by
    intro i
    fin_cases i <;> simp [encode, rowMask, rowMatch, putDpo, putBit, bit_or, bit_put] <;> simp [bit])

theorem MatchesTable.dpoWr (v : BitVec 9) : MatchesTable.Statement (.dpoWr v) :=
  masked_eq _ _ _ (by
    intro i
    fin_cases i <;> simp [encode, rowMask, rowMatch, putDpo, putBit, bit_or, bit_put] <;> simp [bit])

theorem MatchesTable.dpoRdI (v : BitVec 9) : MatchesTable.Statement (.dpoRdI v) :=
  masked_eq _ _ _ (by
    intro i
    fin_cases i <;> simp [encode, rowMask, rowMatch, putDpo, putBit, bit_or, bit_put] <;> simp [bit])

theorem MatchesTable.dpoWrI (v : BitVec 9) : MatchesTable.Statement (.dpoWrI v) :=
  masked_eq _ _ _ (by
    intro i
    fin_cases i <;> simp [encode, rowMask, rowMatch, putDpo, putBit, bit_or, bit_put] <;> simp [bit])

theorem MatchesTable.pop (v : BitVec 7) (m : BitVec 4) : MatchesTable.Statement (.pop v m) :=
  masked_eq _ _ _ (by
    intro i
    fin_cases i <;> simp [encode, rowMask, rowMatch, bit_or, bit_put] <;> simp [bit])

theorem MatchesTable.push (v : BitVec 7) (m : BitVec 4) : MatchesTable.Statement (.push v m) :=
  masked_eq _ _ _ (by
    intro i
    fin_cases i <;> simp [encode, rowMask, rowMatch, putBit, bit_or, bit_put] <;> simp [bit])

theorem MatchesTable.sig (v : BitVec 12) : MatchesTable.Statement (.sig v) :=
  masked_eq _ _ _ (by
    intro i
    fin_cases i <;> simp [encode, rowMask, rowMatch, bit_or, bit_put] <;> simp [bit])

theorem MatchesTable.ini0D (u : BitVec 12) : MatchesTable.Statement (.ini0D u) :=
  masked_eq _ _ _ (by
    intro i
    fin_cases i <;> simp [encode, rowMask, rowMatch, bit_or, bit_put] <;> simp [bit])

theorem MatchesTable.ini0E (u : BitVec 12) : MatchesTable.Statement (.ini0E u) :=
  masked_eq _ _ _ (by
    intro i
    fin_cases i <;> simp [encode, rowMask, rowMatch, bit_or, bit_put] <;> simp [bit])

theorem MatchesTable.hcf (x : BitVec 12) : MatchesTable.Statement (.hcf x) :=
  masked_eq _ _ _ (by
    intro i
    fin_cases i <;> simp [encode, rowMask, rowMatch, bit_or, bit_put] <;> simp [bit])

end Sys2Proof.Laws
end

