-- ==== Sys2Proof/Laws/Queues.lean ====
section
/-! SUPPORT. No handler reads the queues: handling commutes with any change of them. -/

namespace Sys2Proof.Machine

theorem pushWords_withQueues (rs : List Reg) (off : Nat) (s : State) (n o : List Action) :
    pushWords rs off (s.withQueues n o) = (pushWords rs off s).withQueues n o := by
  induction rs generalizing off s with
  | nil => rfl
  | cons r rest ih => exact ih (off + 2) (s.writeWord (s.stackAddr off) (s.x r))

theorem popWords_withQueues (rs : List Reg) (off : Nat) (s : State) (n o : List Action) :
    popWords rs off (s.withQueues n o) = (popWords rs off s).withQueues n o := by
  induction rs generalizing off s with
  | nil => rfl
  | cons r rest ih => exact ih (off + 2) (s.setX r (s.readWord (s.stackAddr off)))

theorem admission_withQueues (s : State) (a : Word) (d : Direction) (n o : List Action) :
    admission (s.withQueues n o) a d = admission s a d := rfl

theorem moveChunk_withQueues (t : Transfer) (s : State) (n o : List Action) :
    moveChunk t (s.withQueues n o) = ((moveChunk t s).1.withQueues n o, (moveChunk t s).2) := by
  have hl : (s.withQueues n o).lookupPort t.port = s.lookupPort t.port := rfl
  unfold moveChunk
  rw [hl]
  cases s.lookupPort t.port with
  | none => rfl
  | some p =>
    dsimp only
    cases p.mailbox with
    | none => rfl
    | some m =>
      have hm : ∀ k, memAfter (s.withQueues n o) m t k = (memAfter s m t k).withQueues n o := by
        intro k
        unfold memAfter
        cases t.dir <;> rfl
      have hb : ∀ k, bytesAfter (s.withQueues n o) m t k = bytesAfter s m t k := fun _ => rfl
      have hi : ∀ k, (s.withQueues n o).inStore ((s.withQueues n o).dataAddr t.addr) k = s.inStore (s.dataAddr t.addr) k :=
        fun _ => rfl
      dsimp only
      rw [hi]
      simp only [hm, hb]
      split
      · rfl
      · split <;> rfl

theorem deviceMove_withQueues (s : State) (a : Word) (m : DeviceMove) (n o : List Action) :
    (s.withQueues n o).deviceMove a m = (s.deviceMove a m).withQueues n o := by
  have hl : (s.withQueues n o).lookupPort a = s.lookupPort a := rfl
  unfold State.deviceMove
  rw [hl]
  cases s.lookupPort a with
  | none => rfl
  | some p =>
    dsimp only
    split
    · rfl
    · split <;> rfl

theorem applyPlatformMoves_withQueues (ms : List PlatformMove) (s : State) (n o : List Action) :
    applyPlatformMoves ms (s.withQueues n o) = (applyPlatformMoves ms s).withQueues n o := by
  induction ms generalizing s with
  | nil => rfl
  | cons m rest ih =>
    have h : applyPlatformMove m (s.withQueues n o) = (applyPlatformMove m s).withQueues n o := by
      cases m with
      | device a d => exact deviceMove_withQueues s a d n o
      | storeByte a v =>
        change (if !s.inSegments a && s.inStore a 1 then _ else _) = State.withQueues (if _ then _ else _) n o
        split <;> rfl
    change applyPlatformMoves rest (applyPlatformMove m (s.withQueues n o)) = _
    rw [h, ih]
    rfl

/-- What every handler does, it does whatever the queues hold (R205: the pass alone reads and writes them). -/
theorem handle_withQueues (a : Action) (s : State) (n o : List Action) :
    handle a (s.withQueues n o) = ((handle a s).1.withQueues n o, (handle a s).2) := by
  cases a with
  | load addr r =>
    change handleLoad addr r (s.withQueues n o) = ((handleLoad addr r s).1.withQueues n o, (handleLoad addr r s).2)
    unfold handleLoad
    change (if _ then _ else if !inSegment s.segs.ds addr.toNat 2 then _ else if !s.inStore (s.dataAddr addr) 2 then _ else _) = _
    split
    · rfl
    · split
      · rfl
      · split <;> rfl
  | store addr w =>
    change handleStore addr w (s.withQueues n o) = ((handleStore addr w s).1.withQueues n o, (handleStore addr w s).2)
    unfold handleStore
    change (if _ then _ else if !inSegment s.segs.ds addr.toNat 2 then _ else if !s.inStore (s.dataAddr addr) 2 then _ else _) = _
    split
    · rfl
    · split
      · rfl
      · split <;> rfl
  | push m =>
    change handlePush m (s.withQueues n o) = ((handlePush m s).1.withQueues n o, (handlePush m s).2)
    unfold handlePush
    change (if !inSegment s.segs.ss s.sp.toNat (maskBytes m) then _ else
      if !s.inStore (s.stackAddr s.sp.toNat) (maskBytes m) then _ else _) = _
    split
    · rfl
    · split
      · rfl
      · rw [pushWords_withQueues]
        rfl
  | pop m =>
    change handlePop m (s.withQueues n o) = ((handlePop m s).1.withQueues n o, (handlePop m s).2)
    unfold handlePop
    change (if s.sp.toNat < maskBytes m then _ else
      if !s.inStore (s.stackAddr (s.sp.toNat - maskBytes m)) (maskBytes m) then _ else _) = _
    split
    · rfl
    · split
      · rfl
      · dsimp only
        have h : ∀ v, (s.withQueues n o).setSp v = (s.setSp v).withQueues n o := fun _ => rfl
        have h2 : (s.withQueues n o).sp = s.sp := rfl
        rw [h, h2, popWords_withQueues]
        rfl
  | query port k => rfl
  | relinquish port =>
    change handleRelinquish port (s.withQueues n o) = ((handleRelinquish port s).1.withQueues n o, (handleRelinquish port s).2)
    have hl : (s.withQueues n o).lookupPort port = s.lookupPort port := rfl
    unfold handleRelinquish
    rw [hl]
    cases s.lookupPort port with
    | none => rfl
    | some p =>
      dsimp only
      split
      · rfl
      · split <;> rfl
  | transfer t =>
    change handleTransfer t (s.withQueues n o) = ((handleTransfer t s).1.withQueues n o, (handleTransfer t s).2)
    unfold handleTransfer
    split
    · split
      · exact moveChunk_withQueues t s n o
      · unfold startIndirect
        rw [admission_withQueues]
        cases admission s t.port t.dir with
        | none => rfl
        | some pm =>
          dsimp only
          split
          · rfl
          · rw [← moveChunk_withQueues]
            congr 1
            change State.updatePort (State.setIndirectFlags (State.setX (if validLength s t.addr < t.len.toNat then _ else _) _ _) _ _) _ _ = _
            split <;> rfl
    · split
      · unfold directRead
        rw [admission_withQueues]
        cases admission s t.port .read <;> rfl
      · unfold directWrite
        rw [admission_withQueues]
        cases admission s t.port .write <;> rfl
  | signal c =>
    change handleSignal c (s.withQueues n o) = ((handleSignal c s).1.withQueues n o, (handleSignal c s).2)
    unfold handleSignal
    have h : (s.withQueues n o).signalPlatform c = (s.signalPlatform c).withQueues n o :=
      applyPlatformMoves_withQueues _ (s.recordSignal c) n o
    rw [h]
    change (if !s.signalValid c.arg0 then _ else _) = _
    split <;> rfl

end Sys2Proof.Machine
end

