-- ==== Sys2Proof/Tests/Slice0.lean ====
section
/-! SUPPORT. The model's own tests: ill-formed terms the checks refuse, one word written out from the formats for every
constructor, one or two vectors of 95_test_vectors.md for every instruction, and for every statement of the
certificate that has hypotheses a concrete input that meets them. -/

namespace Sys2Proof.Tests

open Sys2Proof.Machine

/-! ### WellFormed: one ill-formed term for each check (R85 to R98) -/

theorem test_wellFormed_accepts : WellFormed (.addR .r1 .r0 0) = true ∧ WellFormed (.push 0 0b0101) = true := by decide

theorem test_illFormed_same_registers :
    WellFormed (.addR .r0 .r0 0) = false ∧ WellFormed (.subR .lr .lr 0) = false ∧
      WellFormed (.asgnR .pc .pc 0) = false ∧ WellFormed (.shftR .r1 .r1 0) = false ∧
      WellFormed (.andR .r0 .r0 0) = false ∧ WellFormed (.orR .r0 .r0 0) = false ∧
      WellFormed (.xorR .r0 .r0 0) = false := by decide

theorem test_illFormed_reserved_alu :
    WellFormed (.addR .r1 .r0 1) = false ∧ WellFormed (.subR .r1 .r0 0x80) = false ∧
      WellFormed (.asgnR .r1 .r0 8) = false ∧ WellFormed (.mulR .r0 0x200) = false ∧
      WellFormed (.mulL .r0 1 0) = false ∧ WellFormed (.divR .r0 1) = false ∧ WellFormed (.divL .r1 2 7) = false ∧
      WellFormed (.shftR .r1 .r0 1) = false ∧ WellFormed (.shftL .r0 4 1) = false := by decide

theorem test_illFormed_reserved_bitwise :
    WellFormed (.andR .r1 .r0 0x20) = false ∧ WellFormed (.orR .r1 .r0 1) = false ∧
      WellFormed (.xorR .r1 .r0 2) = false ∧ WellFormed (.andM .r0 false true 3) = false ∧
      WellFormed (.orM .r0 true true 3) = false ∧ WellFormed (.xorM .r0 false true 0) = false ∧
      WellFormed (.not .r0 .r0 1) = false := by decide

theorem test_illFormed_reserved_rest :
    WellFormed (.cbxLr true false 1) = false ∧ WellFormed (.cbxRel true false true 1) = false ∧
      WellFormed (.ld .r0 1) = false ∧ WellFormed (.st .r1 0x100) = false ∧ WellFormed (.dpq 1 0) = false ∧
      WellFormed (.dpoRelq false 1) = false ∧ WellFormed (.dpoRd 1) = false ∧ WellFormed (.dpoWr 1) = false ∧
      WellFormed (.dpoRdI 1) = false ∧ WellFormed (.dpoWrI 0x100) = false ∧ WellFormed (.pop 1 1) = false ∧
      WellFormed (.push 1 1) = false ∧ WellFormed (.sig 1) = false := by decide

theorem test_illFormed_reserved_values :
    WellFormed (.asgnL .pc 0) = false ∧ WellFormed (.dpq 0 6) = false ∧ WellFormed (.dpq 0 7) = false ∧
      WellFormed (.dpoRelq true 0) = false ∧ WellFormed (.pop 0 0) = false ∧ WellFormed (.push 0 0) = false := by decide

/-! ### Decode: a word written out bit by bit from the formats of R85 to R95, for every constructor -/

theorem test_decode_addR : decodeWord 0b0000_01_00_00000000 = .ok (.addR .r1 .r0 0) := by decide
theorem test_decode_addL : decodeWord 0b0000_11_11_00000011 = .ok (.addL .pc 3) := by decide
theorem test_decode_subR : decodeWord 0b0001_01_11_00000000 = .ok (.subR .r1 .pc 0) := by decide
theorem test_decode_subL : decodeWord 0b0001_01_01_00000001 = .ok (.subL .r1 1) := by decide
theorem test_decode_mulR : decodeWord 0b0010_1_0_00_00000000 = .ok (.mulR .r1 0) := by decide
theorem test_decode_mulL : decodeWord 0b0010_0_1_00_11111111 = .ok (.mulL .r0 0 255) := by decide
theorem test_decode_divR : decodeWord 0b0011_0_0_10_00000000 = .ok (.divR .r0 0x200) := by decide
theorem test_decode_divL : decodeWord 0b0011_1_1_00_00001010 = .ok (.divL .r1 0 10) := by decide
theorem test_decode_asgnR : decodeWord 0b0100_11_10_00000000 = .ok (.asgnR .pc .lr 0) := by decide
theorem test_decode_asgnL : decodeWord 0b0100_00_00_10000000 = .ok (.asgnL .r0 0x80) := by decide
theorem test_decode_shftR : decodeWord 0b0101_01_00_00000000 = .ok (.shftR .r1 .r0 0) := by decide
theorem test_decode_shftL : decodeWord 0b0101_10_10_101_11100 = .ok (.shftL .lr 5 0x1C) := by decide
theorem test_decode_andR : decodeWord 0b0110_01_00_00_000000 = .ok (.andR .r1 .r0 0) := by decide
theorem test_decode_andM : decodeWord 0b0110_00_00_00_1_0_0011 = .ok (.andM .r0 true false 3) := by decide
theorem test_decode_orR : decodeWord 0b0110_01_00_01_000000 = .ok (.orR .r1 .r0 0) := by decide
theorem test_decode_orM : decodeWord 0b0110_01_01_01_0_0_1111 = .ok (.orM .r1 false false 15) := by decide
theorem test_decode_xorR : decodeWord 0b0110_00_01_10_000000 = .ok (.xorR .r0 .r1 0) := by decide
theorem test_decode_xorM : decodeWord 0b0110_10_10_10_1_1_0111 = .ok (.xorM .lr true true 7) := by decide
theorem test_decode_not : decodeWord 0b0110_01_00_11_000000 = .ok (.not .r1 .r0 0) := by decide
theorem test_decode_cbxLr : decodeWord 0b0111_0_0_1_0_00000000 = .ok (.cbxLr false true 0) := by decide
theorem test_decode_cbxRel : decodeWord 0b0111_1_1_0_0_11111101 = .ok (.cbxRel true false false 0xFD) := by decide
theorem test_decode_ld : decodeWord 0b1000_0_01_000000000 = .ok (.ld .r1 0) := by decide
theorem test_decode_st : decodeWord 0b1000_1_11_000000000 = .ok (.st .pc 0) := by decide
theorem test_decode_dpq : decodeWord 0b1001_000000000_101 = .ok (.dpq 0 5) := by decide
theorem test_decode_dpoRelq : decodeWord 0b1010_0_000000000_01 = .ok (.dpoRelq false 0) := by decide
theorem test_decode_dpoRd : decodeWord 0b1010_0_000000000_10 = .ok (.dpoRd 0) := by decide
theorem test_decode_dpoWr : decodeWord 0b1010_0_000000000_11 = .ok (.dpoWr 0) := by decide
theorem test_decode_dpoRdI : decodeWord 0b1010_1_000000000_10 = .ok (.dpoRdI 0) := by decide
theorem test_decode_dpoWrI : decodeWord 0b1010_1_000000001_11 = .ok (.dpoWrI 1) := by decide
theorem test_decode_pop : decodeWord 0b1011_0_0000000_1000 = .ok (.pop 0 8) := by decide
theorem test_decode_push : decodeWord 0b1011_1_0000000_0101 = .ok (.push 0 5) := by decide
theorem test_decode_sig : decodeWord 0b1100_000000000000 = .ok (.sig 0) := by decide
theorem test_decode_ini0D : decodeWord 0b1101_000100100011 = .ok (.ini0D 0x123) := by decide
theorem test_decode_ini0E : decodeWord 0b1110_000000000000 = .ok (.ini0E 0) := by decide
theorem test_decode_hcf : decodeWord 0b1111_000000101010 = .ok (.hcf 42) := by decide
theorem test_decode_dpo_type0 : decodeWord 0b1010_1_000000000_00 = .error .noDpoOperation := by decide

/-- The low byte of a word lies first (R54); a single byte is no instruction. -/
theorem test_decode_bytes :
    decode [0x01, 0x15, 0xAA] = .ok (.subL .r1 1, [0xAA]) ∧ decode [0x01] = .error .truncated := by decide

theorem test_encode : encode (.subL .r1 1) = 0x1501 ∧ encode (.push 0 0b1010) = 0xB80A ∧
    encode (.cbxRel true false false 0xFD) = 0x7CFD := by decide

/-! ### One cycle on a small state: vectors of 95_test_vectors.md -/

/-- Two ports of a device of speed 3: port 1 Readable with five bytes, port 2 Writeable with one byte of room in four;
port 3 is the device's; port 4 has no device. -/
def benchPorts : List Port :=
  [⟨1, some ⟨8, [0x11, 0x22, 0x33, 0x44, 0x55]⟩, .program, false, true, some ⟨3⟩⟩,
    ⟨2, some ⟨4, [1, 2, 3]⟩, .program, false, false, some ⟨3⟩⟩, ⟨3, none, .device, false, false, some ⟨0⟩⟩,
    ⟨4, none, .device, false, false, none⟩]

/-- The start state of the vectors: `DS.len = 16` with byte `i` holding `i`, `SS.len = 8`, 16 bytes of code. -/
def bench (regs : Regs) (sr : Word) (sp : Word := 0) : State :=
  { State.init { Config.default with signalValid := [7] } ⟨⟨32, 16⟩, ⟨0, 16⟩, ⟨16, 8⟩⟩
      [(1, 1), (2, 2), (3, 3), (4, 4), (5, 5), (6, 6), (7, 7), (8, 8), (9, 9), (10, 10), (11, 11), (12, 12), (13, 13),
        (14, 14), (15, 15), (16, 0x34), (17, 0x12), (33, 0x04), (46, 0xFF), (47, 0x05)] benchPorts with
    regs := regs, sr := sr, sp := sp }

/-- `R0`, `R1`, `LR`, `PC`, `SR`, `SP`, `FAULT` after a cycle for a word. -/
def ends (w : Word) (s : State) : Option (List Word) :=
  match cycleWithWord w s with
  | .next t => some [t.regs.r0, t.regs.r1, t.regs.lr, t.regs.pc, t.sr, t.sp, t.fault]
  | .fault _ => none
  | .refused _ => none

/-- `n` bytes at an absolute address after a cycle for a word. -/
def bytesAt (a n : Nat) (w : Word) (s : State) : List Byte :=
  match cycleWithWord w s with
  | .next t => Memory.readBytes t.mem a n
  | .fault _ => []
  | .refused _ => []

/-- The ports after a cycle for a word. -/
def portsAfter (w : Word) (s : State) : List Port :=
  match cycleWithWord w s with
  | .next t => t.ports
  | .fault _ => []
  | .refused _ => []

theorem test_addR_A1 : ends 0x0400 (bench ⟨0xFFFF, 1, 0, 0⟩ 0) = some [0, 1, 0, 0, 3, 0, 0] := by decide
theorem test_addR_A10 : ends 0x0300 (bench ⟨0x8004, 0, 0, 0x10⟩ 0) = some [0x8004, 0, 0, 0x18, 0, 0, 0] := by decide
theorem test_addL_A6 : ends 0x05FF (bench ⟨0, 0xFF01, 0, 0⟩ 0) = some [0, 0, 0, 0, 3, 0, 0] := by decide
theorem test_addL_A11 : ends 0x0FFF (bench ⟨0, 0, 0, 0xFF00⟩ 0) = some [0, 0, 0, 0xFE, 2, 0, 0] := by decide
theorem test_subR_A16 : ends 0x1400 (bench ⟨0, 0xFFFF, 0, 0⟩ 0) = some [1, 0xFFFF, 0, 0, 2, 0, 0] := by decide
theorem test_subR_A22 : ends 0x1180 (bench ⟨1, 2, 0, 0⟩ 0) = some [1, 2, 0, 0, 0, 0, 0x2000] := by decide
theorem test_subL_A18 : ends 0x1A00 (bench ⟨0, 0, 0, 0⟩ 2) = some [0, 0, 0, 0, 1, 0, 0] := by decide
theorem test_subL_A20 : ends 0x1F04 (bench ⟨0, 0, 0, 4⟩ 0) = some [0, 0, 0, 0xFFFC, 2, 0, 0] := by decide
theorem test_mulR_M2 : ends 0x2000 (bench ⟨0xFFFF, 0xFFFF, 0, 0⟩ 0) = some [1, 0xFFFF, 0xFFFE, 0, 2, 0, 0] := by decide
theorem test_mulR_M3 : ends 0x2000 (bench ⟨0x8000, 2, 0, 0⟩ 0) = some [0, 2, 1, 0, 2, 0, 0] := by decide
theorem test_mulL_M5 : ends 0x24FF (bench ⟨0x0101, 0, 0, 0⟩ 0) = some [0xFFFF, 0, 0, 0, 0, 0, 0] := by decide
theorem test_mulL_M6 : ends 0x2C00 (bench ⟨0, 0x1234, 7, 0⟩ 0) = some [0, 0, 0, 0, 1, 0, 0] := by decide
theorem test_divR_M12 : ends 0x3000 (bench ⟨3, 7, 0, 0⟩ 0) = some [0, 7, 3, 0, 3, 0, 0] := by decide
theorem test_divR_E2 : ends 0x3000 (bench ⟨13, 0, 5, 0⟩ 2) = some [13, 0, 5, 0, 2, 0, 0x8000] := by decide
theorem test_divL_M15 : ends 0x340A (bench ⟨0x04D2, 0, 0, 0⟩ 0) = some [0x7B, 0, 4, 0, 2, 0, 0] := by decide
theorem test_asgnR_G5 : ends 0x4B00 (bench ⟨0, 0, 0x41, 2⟩ 0) = some [0, 0, 0x41, 0x41, 0, 0, 0] := by decide
theorem test_asgnL_G7 : ends 0x4080 (bench ⟨0, 0, 0, 0⟩ 0) = some [0xFF80, 0, 0, 0, 0, 0, 0] := by decide
theorem test_asgnL_G10 : ends 0x4F00 (bench ⟨0, 0, 0, 6⟩ 2) = some [0, 0, 0, 6, 2, 0, 0x2000] := by decide
theorem test_shftR_S12 : ends 0x5400 (bench ⟨0x0FF0, 0xFFFC, 0, 0⟩ 0) = some [0xFF, 0xFFFC, 0, 0, 0, 0, 0] := by decide
theorem test_shftR_S14 : ends 0x5400 (bench ⟨0x0FF0, 0x20, 0, 0⟩ 2) = some [0x0FF0, 0x20, 0, 0, 0, 0, 0] := by decide
theorem test_shftL_S4 : ends 0x500F (bench ⟨0xFFFE, 0, 0, 0⟩ 0) = some [0, 0, 0, 0, 3, 0, 0] := by decide
theorem test_shftL_S7 : ends 0x5010 (bench ⟨0x8000, 0, 0, 0⟩ 0) = some [0, 0, 0, 0, 3, 0, 0] := by decide
theorem test_andR : ends 0x6400 (bench ⟨0x00FF, 0x0F0F, 0, 0⟩ 0) = some [0x0F, 0x0F0F, 0, 0, 0, 0, 0] := by decide
theorem test_andM_B12 : ends 0x602F (bench ⟨0x8000, 0, 0, 0⟩ 0) = some [0, 0, 0, 0, 1, 0, 0] := by decide
theorem test_orR : ends 0x6440 (bench ⟨0x00FF, 0x0F0F, 0, 0⟩ 2) = some [0x0FFF, 0x0F0F, 0, 0, 0, 0, 0] := by decide
theorem test_orM_B14 : ends 0x6560 (bench ⟨0, 0, 0, 0⟩ 0) = some [0, 0xFFFE, 0, 0, 0, 0, 0] := by decide
theorem test_xorR_B5 : ends 0x6180 (bench ⟨0xFFFF, 0xFF, 0, 0⟩ 0) = some [0xFFFF, 0xFF00, 0, 0, 0, 0, 0] := by decide
theorem test_xorM_B16 : ends 0x6AA7 (bench ⟨0, 0, 0xFF7F, 0⟩ 0) = some [0, 0, 0, 0, 1, 0, 0] := by decide
theorem test_not_B8 : ends 0x64C0 (bench ⟨0xFF, 0x5555, 0, 0⟩ 0) = some [0xFF00, 0x5555, 0, 0, 0, 0, 0] := by decide
theorem test_cbxLr_taken : ends 0x7200 (bench ⟨0, 0, 0x40, 0x10⟩ 2) = some [0, 0, 0x40, 0x40, 0, 0, 0] := by decide
theorem test_cbxLr_N : ends 0x7000 (bench ⟨0, 0, 0x40, 0x10⟩ 3) = some [0, 0, 0x40, 0x10, 1, 0, 0] := by decide
theorem test_cbxRel_C3 : ends 0x7A80 (bench ⟨0, 0, 0, 0x80⟩ 2) = some [0, 0, 0, 0xFF80, 0, 0, 0] := by decide
theorem test_cbxRel_C4 : ends 0x7A7F (bench ⟨0, 0, 0, 0xFF80⟩ 2) = some [0, 0, 0, 0x7E, 0, 0, 0] := by decide
theorem test_ld_L3 : ends 0x8200 (bench ⟨0, 0, 0xE, 0⟩ 0) = some [0, 0x0F0E, 0xE, 0, 0, 0, 0] := by decide
theorem test_ld_L5 : ends 0x8200 (bench ⟨0, 0x7777, 0x10, 0⟩ 3) = some [0, 0x7777, 0x10, 0, 3, 0, 0x4000] := by decide
theorem test_st_L9 : bytesAt 7 4 0x8800 (bench ⟨0xBEEF, 0, 8, 0⟩ 0) = [7, 0xEF, 0xBE, 10] := by decide
theorem test_st_L13 : ends 0x8800 (bench ⟨0xBEEF, 0, 9, 0⟩ 1) = some [0xBEEF, 0, 9, 0, 1, 0, 0x3000] := by decide
theorem test_push_K3 : bytesAt 16 8 0xB809 (bench ⟨0xAAAA, 0, 0, 0x10⟩ 0 4) = [0x34, 0x12, 0, 0, 0xAA, 0xAA, 0x10, 0] := by
  decide
theorem test_push_K4 : ends 0xB803 (bench ⟨1, 2, 0, 0⟩ 2 6) = some [1, 2, 0, 0, 2, 6, 0x9000] := by decide
theorem test_pop_K6 : ends 0xB001 (bench ⟨0, 0, 0, 0⟩ 3 2) = some [0x1234, 0, 0, 0, 0, 0, 0] := by decide
theorem test_pop_K10 : ends 0xB003 (bench ⟨7, 8, 0, 0⟩ 1 2) = some [7, 8, 0, 0, 1, 2, 0xA000] := by decide
theorem test_dpq_readable : ends 0x9001 (bench ⟨1, 0, 0, 0⟩ 2) = some [1, 0, 0, 0, 0, 0, 0] := by decide
theorem test_dpq_no_port : ends 0x9000 (bench ⟨9, 0, 0, 0⟩ 2) = some [9, 0, 0, 0, 1, 0, 0] := by decide
theorem test_dpoRelq_D6 : ends 0xA001 (bench ⟨3, 0, 0, 0⟩ 2) = some [3, 0, 0, 0, 2, 0, 0x5000] := by decide
theorem test_dpoRelq_drops_unread :
    (portsAfter 0xA001 (bench ⟨1, 0, 0, 0⟩ 2)).head? = some ⟨1, some ⟨8, []⟩, .device, false, false, some ⟨3⟩⟩ := by decide
theorem test_dpoRd_D1 : ends 0xA002 (bench ⟨1, 0, 0, 0⟩ 0) = some [1, 0, 0x2211, 0, 2, 0, 0] := by decide
theorem test_dpoWr_W3 : ends 0xA003 (bench ⟨2, 0, 0x6655, 0⟩ 2) = some [2, 0, 0x6655, 0, 1, 0, 0] ∧
    (portsAfter 0xA003 (bench ⟨2, 0, 0x6655, 0⟩ 2)).map (fun p => p.mailbox.map Mailbox.bytes) =
      [some [0x11, 0x22, 0x33, 0x44, 0x55], some [1, 2, 3, 0x55], none, none] := by decide
theorem test_dpoRdI_I1 : ends 0xA802 (bench ⟨1, 8, 0, 0⟩ 2) = some [1, 5, 0, 0, 1, 0, 0] ∧
    bytesAt 0 4 0xA802 (bench ⟨1, 8, 0, 0⟩ 2) = [0x11, 0x22, 0x33, 3] := by decide
theorem test_dpoRdI_clamped : ends 0xA802 (bench ⟨1, 5, 14, 0⟩ 0) = some [1, 2, 14, 0, 2, 0, 0x4000] := by decide
theorem test_dpoWrI : ends 0xA803 (bench ⟨2, 5, 4, 0⟩ 0) = some [2, 1, 4, 0, 1, 0, 0] ∧
    (portsAfter 0xA803 (bench ⟨2, 5, 4, 0⟩ 0)).map (fun p => p.mailbox.map Mailbox.bytes) =
      [some [0x11, 0x22, 0x33, 0x44, 0x55], some [1, 2, 3, 4], none, none] := by decide
/-- R254 to R256: an address so far past the data segment that the store does not reach it either; nothing moves, the
transfer completes and the port is free again. -/
theorem test_dpoRdI_past_store : ends 0xA802 (bench ⟨1, 0, 64, 0⟩ 0) = some [1, 0, 64, 0, 2, 0, 0] ∧
    ends 0xA802 (bench ⟨1, 5, 0xFFFE, 0⟩ 0) = some [1, 0, 0xFFFE, 0, 2, 0, 0x4000] ∧
    portsAfter 0xA802 (bench ⟨1, 5, 0xFFFE, 0⟩ 0) = benchPorts := by decide
theorem test_sig_invalid : ends 0xC000 (bench ⟨0x1234, 1, 2, 0x20⟩ 2) = some [0x1234, 1, 2, 0x20, 2, 0, 0xB234] := by decide
theorem test_sig_accepted : ends 0xC000 (bench ⟨7, 1, 2, 0x20⟩ 2) = some [7, 1, 2, 0x20, 0, 0, 0] := by decide
theorem test_ini0D : ends 0xD123 (bench ⟨1, 2, 3, 4⟩ 3) = some [1, 2, 3, 4, 3, 0, 0x600D] := by decide
theorem test_ini0E : ends 0xE000 (bench ⟨1, 2, 3, 4⟩ 3) = some [1, 2, 3, 4, 3, 0, 0x600E] := by decide
theorem test_hcf : ends 0xF02A (bench ⟨1, 2, 3, 4⟩ 3) = some [1, 2, 3, 4, 3, 0, 0x102A] := by decide

/-- R310 to R313: `ADD R0, #0` fetched at `CS.base` right after reset. -/
theorem test_first_step_after_reset :
    (match step (State.reset.withFetchWord 16 0x0005) with
      | .next t => some (t.regs.r0, t.regs.pc, t.ir)
      | .fault _ => none
      | .refused _ => none) = some (5, 2, 5) := by decide

/-- The table numbering: the low byte of a row's bits is the word's low byte. -/
theorem test_decodeTableWord : decodeTableWord 16 0x1501 = some (.subL .r1 1) ∧ decodeTableWord 16 0xA800 = none := by
  decide

/-! ### Witnesses: an input that meets the hypotheses of each statement, clause by clause -/

/-- `PC` at the start of 16 code bytes whose first word is `ADD R0, R1` and whose last is `ADD R1, #255`. -/
def ready (pc : Word) : State := bench ⟨1, 2, 4, pc⟩ 1 2

/-- A transfer of each kind on a port of `bench`. -/
def moving (port : Word) (dir : Direction) (ind started : Bool) (remaining : Nat) : Transfer :=
  ⟨port, dir, ind, 0x6655, 4, 5, started, remaining⟩

/-- No port at a state's disposal, every channel cut off, opcode 0x0 strapped out. -/
def bare : State :=
  { State.reset with
    cfg := { Config.default with cbPresent := ⟨false, false, false, false, false, false, false⟩, decodeTable := 0x9FFE } }

theorem witness_DecodeInvertsEncode :
    Instr.inRow (.addR .r1 .r0 0xFF) = true ∧ Instr.inRow (.dpoRelq true 0x1FF) = true := by decide

theorem witness_EncodeInvertsDecode :
    decodeWord 0xFFFF = .ok (.hcf 0xFFF) ∧ decodeWord 0xAFFC = .error .noDpoOperation := by decide

theorem witness_HostResetThenFirstFetch : (ready 0).segsOk = true ∧ 2 ≤ (ready 0).segs.cs.len := by decide

theorem witness_FetchSequencerRule_odd : (ready 1).segsOk = true ∧ ((ready 1).x .pc).toNat % 2 = 1 := by decide

theorem witness_FetchSequencerRule_outside :
    (ready 16).segsOk = true ∧ ((ready 16).x .pc).toNat % 2 = 0 ∧
      (ready 16).segs.cs.len < ((ready 16).x .pc).toNat + 2 := by decide

theorem witness_FetchSequencerRule_last :
    (ready 14).segsOk = true ∧ ((ready 14).x .pc).toNat % 2 = 0 ∧
      ((ready 14).x .pc).toNat + 2 ≤ (ready 14).segs.cs.len := by decide

theorem witness_StepRunsDecodedInstruction :
    (applyGap (ready 0)).segsOk = true ∧ (applyGap (ready 0)).halted = false ∧
      ((applyGap (ready 0)).x .pc).toNat % 2 = 0 ∧
      ((applyGap (ready 0)).x .pc).toNat + 2 ≤ (applyGap (ready 0)).segs.cs.len ∧
      decodeWord ((applyGap (ready 0)).readWord ((applyGap (ready 0)).segs.cs.base +
        ((applyGap (ready 0)).x .pc).toNat)) = .ok (.addR .r1 .r0 0) ∧
      (applyGap (ready 0)).handlerRemoved 0x0 = false := by decide

theorem witness_SequencerStartsCycles_halted :
    (applyGap { ready 0 with fault := 0x1001 }).segsOk = true ∧
      (applyGap { ready 0 with fault := 0x1001 }).cfg.haltOnFault = true ∧
      (applyGap { ready 0 with fault := 0x1001 }).fault.toNat / 4096 ≠ 0 := by decide

theorem witness_SequencerStartsCycles_running :
    (applyGap (ready 0)).segsOk = true ∧ (applyGap (ready 0)).fault.toNat / 4096 = 0 := by decide

theorem witness_ClearedBlockRunsOn :
    State.segsOk { ready 0 with fault := 0x2000 } = true ∧ State.halted { ready 0 with fault := 0x2000 } = true := by
  decide

theorem witness_SetFaultRule :
    (ready 0).faultWritten = false ∧ ((ready 0).setFault .res 0).faultWritten = true ∧
      (match cycle (ready 0) with
        | .next t => !t.faultWritten
        | .fault _ => false
        | .refused _ => false) = true := by decide

theorem witness_ReservedBitRaisesRes :
    decodeWord 0x0401 = .ok (.addR .r1 .r0 1) ∧ (0x0401 : Word) &&& reservedMask (.addR .r1 .r0 1) ≠ 0 ∧
      (ready 0).handlerRemoved (field 0x0401 12 4) = false ∧ channelOf (.addR .r1 .r0 1) = none := by decide

theorem witness_ReservedBitRaisesRes_dpo :
    field 0xA004 12 4 = 0xA ∧ (0xA004 : Word) &&& 0x07FC ≠ 0 ∧
      (ready 0).handlerRemoved (field 0xA004 12 4) = false ∧ (ready 0).channelPresent .dpo = true := by decide

theorem witness_ReservedValueRaisesRes_asgn :
    (ready 0).handlerRemoved (field 0x4F00 12 4) = false ∧ 0x4F00 ≤ (0x4F00 : Word).toNat ∧
      (0x4FFF : Word).toNat ≤ 0x4FFF := by decide

theorem witness_ReservedValueRaisesRes_dpq :
    (ready 0).handlerRemoved (field 0x9006 12 4) = false ∧ field 0x9006 12 4 = 0x9 ∧
      6 ≤ (field 0x9006 0 3).toNat ∧ (ready 0).channelPresent .dpq = true := by decide

theorem witness_ReservedValueRaisesRes_dpo :
    field 0xA000 12 4 = 0xA ∧ field 0xA000 0 2 = 0 ∧ field 0xA801 12 4 = 0xA ∧ field 0xA801 0 2 = 1 ∧
      bit 0xA801 11 = true ∧ (ready 0).handlerRemoved 0xA = false ∧ (ready 0).channelPresent .dpo = true := by decide

theorem witness_ReservedValueRaisesRes_stk :
    field 0xB000 12 4 = 0xB ∧ field 0xB000 0 4 = 0 ∧ field 0xB800 0 4 = 0 ∧ bit 0xB800 11 = true ∧
      (ready 0).handlerRemoved 0xB = false ∧ (ready 0).channelPresent .push = true ∧
      (ready 0).channelPresent .pop = true := by decide

theorem witness_OpcodeWithoutHandlerRaisesIni :
    field 0xD123 12 4 = 0xD ∧ field 0xEFFF 12 4 = 0xE ∧
      bare.cfg.decodeTable.getLsbD ((0x0FFF : Word).toNat / 4096) = false := by decide

theorem witness_HaltRule : field 0xF000 12 4 = 0xF ∧ (ready 0).faultWritten = false := by decide

theorem witness_FaultMeansNothingElseChanged_execute :
    (ready 0).faultWritten = false ∧ exec (.hcf 1) (ready 0) = .next ((ready 0).setFault .hcf 1) ∧
      ((ready 0).setFault .hcf 1).faultWritten = true := by
  exact ⟨by decide, rfl, by decide⟩

theorem witness_FaultMeansNothingElseChanged_handler :
    (handle (.load 3 .r0) (ready 0)).1.faultWritten = true ∧ isIndirect (.load 3 .r0) = false ∧
      (handle (.transfer (moving 9 .read true false 0)) (ready 0)).1.faultWritten = true ∧
      (handle (.transfer (moving 9 .read true false 0)) (ready 0)).1.faultKind ≠ FaultKind.seg.code := by decide

theorem witness_NotAttempted : channelOf (.ld .r0 0) = some .load ∧ bare.channelPresent .load = false := by decide

theorem witness_attempted : attempted (.ld .r0 0) (ready 0) := by
  intro k h
  cases h
  decide

theorem witness_AddRule : field 0x0400 12 4 = 0x0 ∧ (0x80 : BitVec 8) ≠ 0 ∧ Reg.r1 ≠ Reg.pc := by decide

theorem witness_SubRule : field 0x1501 12 4 = 0x1 ∧ (1 : BitVec 8) ≠ 0 ∧ Reg.r1 ≠ Reg.r0 := by decide

theorem witness_MulRule : field 0x2000 12 4 = 0x2 ∧ (0x200 : BitVec 10) ≠ 0 ∧ (2 : BitVec 2) ≠ 0 := by decide

theorem witness_DivRule : field 0x3000 12 4 = 0x3 ∧ (1 : BitVec 10) ≠ 0 ∧ (1 : BitVec 2) ≠ 0 ∧
    (0 : BitVec 8).toNat = 0 ∧ 1 < ((ready 0).x .r1).toNat ∧
    ((ready 0).x .r0).toNat = 0 * ((ready 0).x .r1).toNat + 1 := by decide

theorem witness_AsgnRule : field 0x40FF 12 4 = 0x4 ∧ (8 : BitVec 8) ≠ 0 ∧ Reg.lr ≠ Reg.pc := by decide

theorem witness_ShiftRule :
    field 0x5010 12 4 = 0x5 ∧ (1 : BitVec 8) ≠ 0 ∧ (4 : BitVec 3) ≠ 0 ∧ Reg.r1 ≠ Reg.r0 := by decide

theorem witness_BitwiseRule : field 0x60C0 12 4 = 0x6 ∧ (0x20 : BitVec 6) ≠ 0 ∧ Reg.r0 ≠ Reg.r1 := by decide

theorem witness_BranchRule : field 0x7CFD 12 4 = 0x7 ∧ (0x100 : BitVec 9) ≠ 0 := by decide

theorem witness_LoadStoreQueueRule :
    field 0x8800 12 4 = 0x8 ∧ bare.channelPresent .load = false ∧ bare.channelPresent .store = false ∧
      (1 : BitVec 9) ≠ 0 ∧ (ready 0).channelPresent .load = true ∧ (ready 0).channelPresent .store = true := by decide

/-- The last word of a data segment of 16 bytes, and the first address past it. -/
theorem witness_LoadHandlerRule :
    (ready 0).segsOk = true ∧ (15 : Word).toNat % 2 = 1 ∧ (16 : Word).toNat % 2 = 0 ∧
      (ready 0).segs.ds.len < (16 : Word).toNat + 2 ∧ (14 : Word).toNat % 2 = 0 ∧
      (14 : Word).toNat + 2 ≤ (ready 0).segs.ds.len := by decide

theorem witness_StoreHandlerRule :
    (ready 0).segsOk = true ∧ (0xFFFF : Word).toNat % 2 = 1 ∧ (0xFFFE : Word).toNat % 2 = 0 ∧
      (ready 0).segs.ds.len < (0xFFFE : Word).toNat + 2 ∧ (0 : Word).toNat % 2 = 0 ∧
      (0 : Word).toNat + 2 ≤ (ready 0).segs.ds.len := by decide

theorem witness_LoadAfterStoreReturnsWord :
    (ready 0).segsOk = true ∧ (14 : Word).toNat % 2 = 0 ∧ (14 : Word).toNat + 2 ≤ (ready 0).segs.ds.len ∧
      handle (.store 14 0xBEEF) (ready 0) = ((handle (.store 14 0xBEEF) (ready 0)).1, .complete) := by
  exact ⟨by decide, by decide, by decide, rfl⟩

theorem witness_StackQueueRule :
    field 0xB805 12 4 = 0xB ∧ bare.channelPresent .push = false ∧ bare.channelPresent .pop = false ∧
      (1 : BitVec 7) ≠ 0 ∧ (5 : BitVec 4) ≠ 0 ∧ (ready 0).channelPresent .push = true ∧
      (ready 0).channelPresent .pop = true := by decide

/-- `SP = 2` in a stack segment of 8 bytes: three registers fill it, four do not fit. -/
theorem witness_PushHandlerRule :
    (ready 0).segsOk = true ∧ (ready 0).segs.ss.len < (ready 0).sp.toNat + 2 * popcount 0b1111 ∧
      (ready 0).sp.toNat + 2 * popcount 0b0111 ≤ (ready 0).segs.ss.len := by decide

theorem witness_PopHandlerRule :
    (ready 0).segsOk = true ∧ (ready 0).sp.toNat ≤ (ready 0).segs.ss.len ∧
      (ready 0).sp.toNat < 2 * popcount 0b0011 ∧ 2 * popcount 0b0001 ≤ (ready 0).sp.toNat := by decide

theorem witness_PopUndoesPush :
    (ready 0).segsOk = true ∧ (ready 0).sp.toNat + 2 * popcount 0b0111 ≤ (ready 0).segs.ss.len ∧
      (ready 0).sp.toNat + 2 * popcount 0b0111 < 65536 ∧
      handle (.push 0b0111) (ready 0) = ((handle (.push 0b0111) (ready 0)).1, .complete) := by
  exact ⟨by decide, by decide, by decide, rfl⟩

theorem witness_QueryQueueRule :
    field 0x9001 12 4 = 0x9 ∧ bare.channelPresent .dpq = false ∧ (1 : BitVec 9) ≠ 0 ∧ 6 ≤ (6 : BitVec 3).toNat ∧
      (ready 0).channelPresent .dpq = true := by decide

theorem witness_DeviceOpQueueRule :
    bare.channelPresent .dpo = false ∧ (ready 0).channelPresent .dpo = true ∧ (1 : BitVec 9) ≠ 0 ∧
      field 0xA800 12 4 = 0xA ∧ field 0xA800 0 2 = 0 ∧ (ready 0).handlerRemoved 0xA = false ∧
      field 0xA803 12 4 = 0xA ∧ field 0xA803 0 2 ≠ 0 := by decide

theorem witness_RelinquishHandlerRule :
    (ready 0).lookupPort 9 = none ∧ ((ready 0).lookupPort 3).map Port.controller = some .device ∧
      ((ready 0).lookupPort 1).map (fun p => (p.busy, p.controller)) = some (false, .program) := by decide

/-- Port 1 of `bench` and its mailbox. -/
def port1 : Port := ⟨1, some ⟨8, [0x11, 0x22, 0x33, 0x44, 0x55]⟩, .program, false, true, some ⟨3⟩⟩
/-- Port 2 of `bench`. -/
def port2 : Port := ⟨2, some ⟨4, [1, 2, 3]⟩, .program, false, false, some ⟨3⟩⟩

theorem witness_DirectReadRule : readableAt (ready 0) 1 port1 ⟨8, [0x11, 0x22, 0x33, 0x44, 0x55]⟩ := by
  refine ⟨?_, ?_, ?_, ?_, ?_, ?_⟩ <;> decide

theorem witness_DirectReadRule_ido (p : Port) (m : Mailbox) : ¬readableAt (ready 0) 9 p m := by
  rintro ⟨h, -⟩
  cases h

theorem witness_DirectWriteRule : writeableAt (ready 0) 2 port2 ⟨4, [1, 2, 3]⟩ := by
  refine ⟨?_, ?_, ?_, ?_, ?_, ?_⟩ <;> decide

theorem witness_DirectWriteRule_ido (p : Port) (m : Mailbox) : ¬writeableAt (ready 0) 9 p m := by
  rintro ⟨h, -⟩
  cases h

theorem witness_IndirectStartRule :
    admittedAt (moving 1 .read true false 0).dir (ready 0) 1 port1 ⟨8, [0x11, 0x22, 0x33, 0x44, 0x55]⟩ ∧
      (moving 1 .read true false 0).addr.toNat % 2 = 0 ∧ (5 : Word).toNat % 2 = 1 ∧
      (moving 1 .read true false 0).indirect = true ∧ (moving 1 .read true false 0).started = false :=
  ⟨witness_DirectReadRule, by decide, by decide, rfl, rfl⟩

theorem witness_IndirectChunkRule :
    (ready 0).segsOk = true ∧ (ready 0).lookupPort 1 = some port1 ∧
      port1.mailbox = some ⟨8, [0x11, 0x22, 0x33, 0x44, 0x55]⟩ ∧
      (moving 1 .read true true 12).addr.toNat + (moving 1 .read true true 12).remaining ≤ (ready 0).segs.ds.len ∧
      (moving 1 .read true true 0).remaining = 0 := by
  decide

theorem witness_ThrottledTransferTakesCeilCycles :
    port1.device = some ⟨3⟩ ∧ 0 < (moving 1 .read true true 5).remaining ∧
      (moving 1 .read true true 5).addr.toNat + (moving 1 .read true true 5).remaining ≤ (ready 0).segs.ds.len ∧
      (moving 1 .read true true 5).remaining ≤ [0x11, 0x22, 0x33, 0x44, (0x55 : Byte)].length ∧
      resolutionsToEnd 5 (moving 1 .read true true 5) (ready 0) = some 2 := by decide

theorem bench_ports_ok (pc : Word) : PortsInv (ready pc) := by
  refine ⟨(by decide : (benchPorts.map Port.addr).Nodup), ?_⟩
  intro p h
  have h' : p ∈ benchPorts := h
  simp only [benchPorts, List.mem_cons, List.not_mem_nil, or_false] at h'
  rcases h' with rfl | rfl | rfl | rfl <;> exact ⟨by simp [Mailbox.used], by decide, by decide⟩

theorem witness_DeviceOperationRule_program :
    (ready 0).lookupPort 1 = some port1 ∧ port1.device = some ⟨3⟩ ∧ port1.controller = .program := by decide

theorem witness_DeviceOperationRule_no_device :
    (ready 0).lookupPort 9 = none ∧ (ready 0).lookupPort 4 = some ⟨4, none, .device, false, false, none⟩ := by decide

/-- Port 3 of `bench`, which the device controls, without and with a full, an empty and a part-filled mailbox. -/
theorem witness_DeviceOperationRule_device :
    (ready 0).lookupPort 3 = some ⟨3, none, .device, false, false, some ⟨0⟩⟩ ∧
      (applyMove (.device 3 (.allocate 0)) (ready 0)).lookupPort 3 =
        some ⟨3, some ⟨0, []⟩, .device, false, false, some ⟨0⟩⟩ ∧
      (applyMoves [.device 3 (.allocate 2), .device 3 (.push 7)] (ready 0)).lookupPort 3 =
        some ⟨3, some ⟨2, [7]⟩, .device, false, false, some ⟨0⟩⟩ := by
  decide

/-- R240: an operation that is not legal changes nothing and is reported to the device on the port; a port without a
device has none to act or be told. -/
theorem test_device_failure :
    applyMoves [.device 1 (.allocate 4), .device 3 .relinquish, .device 4 (.allocate 4), .device 9 .pop] (ready 0) =
      { ready 0 with deviceFailures := [1, 3] } := by decide

theorem witness_MailboxHandoffDeliversBytes :
    (ready 0).lookupPort 3 = some ⟨3, none, .device, false, false, some ⟨0⟩⟩ ∧ [(9 : Byte)].length + 2 ≤ 3 ∧
      (moving 3 .read false false 0).port = 3 ∧ (moving 3 .read false false 0).indirect = false ∧
      (moving 3 .read false false 0).dir = .read := by decide

theorem witness_SignalQueueRule :
    field 0xC001 12 4 = 0xC ∧ bare.channelPresent .signal = false ∧ (1 : BitVec 12) ≠ 0 ∧
      (ready 0).channelPresent .signal = true := by decide

theorem witness_SignalHandlerRule :
    (8 : Word) ∉ (ready 0).cfg.signalValid ∧ (7 : Word) ∈ (ready 0).cfg.signalValid ∧
      (ready 0).signalEffects = [] ∧ (ready 0).inSegments 47 = true ∧ (ready 0).lookupPort 1 = some port1 := by
  decide

/-- R187: an effect on a device's mailbox and on the store outside the segments happens, one on a segment's byte does
not; no register but `SR` changes. -/
theorem test_signal_effect :
    (handle (.signal ⟨7, 0, 0, 0⟩)
        { ready 0 with signalEffects := [[.device 3 (.allocate 1), .storeByte 60 9, .storeByte 3 9], []] }).1 =
      { ready 0 with
        signals := [⟨7, 0, 0, 0⟩], signalEffects := [[]], sr := 0
        mem := (ready 0).mem ++ [(60, 9)]
        ports := [port1, port2, ⟨3, some ⟨1, []⟩, .device, false, false, some ⟨0⟩⟩,
          ⟨4, none, .device, false, false, none⟩] } := by decide

theorem witness_QueuedActionResolvesInItsCycle :
    (ready 0).quiet ∧ 0 < (ready 0).cfg.newQDepth ∧ (ready 0).cfg.ongoingQDepth ≠ some 0 ∧ exec (.ld .r0 0) (ready 0) = .next { ready 0 with newQ := [.load 4 .r0] } :=
  ⟨⟨rfl, rfl, rfl⟩, by decide, by decide, rfl⟩

/-- A transfer of five bytes in flight on port 1, three of them moved. -/
def inFlight : State :=
  { ready 0 with
    ports := [port1.withBusy true, port2], ongoing := [.transfer (moving 1 .read true true 2)] }

theorem witness_OngoingQueueFitsPorts : DeviceInv inFlight := by
  refine ⟨⟨by decide, ?_⟩, rfl, ?_, by decide⟩
  · intro p h
    have h' : p ∈ [port1.withBusy true, port2] := h
    simp only [List.mem_cons, List.not_mem_nil, or_false] at h'
    rcases h' with rfl | rfl <;> exact ⟨by simp [port1, port2, Port.withBusy, Mailbox.used], by decide, by decide⟩
  · intro a h
    have h' : a ∈ [Action.transfer (moving 1 .read true true 2)] := h
    rw [List.mem_singleton] at h'
    exact ⟨_, h', rfl, rfl, by decide, by decide, port1.withBusy true, by decide, rfl, rfl, rfl⟩

theorem witness_OngoingQueueFitsPorts_start :
    DeviceInv (ready 0) ∧ (moving 1 .read true false 0).started = false ∧
      (handle (.transfer (moving 1 .read true false 0)) (ready 0)).2 =
        .ongoing (.transfer { moving 1 .read true true 2 with addr := 7 }) :=
  ⟨⟨bench_ports_ok 0, rfl, fun _ h => (List.not_mem_nil h).elim, List.nodup_nil⟩, rfl, by decide⟩

/-- Entry 11: with no place in the ongoing queue a transfer that needs more than one cycle fails and moves nothing. -/
theorem test_full_ongoing_queue :
    resolveCycle { ready 0 with
        cfg := { (ready 0).cfg with ongoingQDepth := some 0 }, newQ := [.transfer (moving 1 .read true false 0)] } =
      { ready 0 with
        cfg := { (ready 0).cfg with ongoingQDepth := some 0 }, fault := 0x7000, faultWritten := true } := by decide

theorem witness_ExecutePhaseFrame :
    exec (.cbxLr true false 0) (ready 0) = .next { ready 0 with regs := ⟨1, 2, 4, 4⟩, sr := 0 } := rfl

theorem witness_OnlyBranchReadsStatus : isBranch (.addL .r0 1) = false := rfl

theorem witness_CodeSegmentNeverWritten :
    inFlight.segsOk = true ∧ (∃ t, cycle inFlight = .next t) ∧ inFlight.inCode 32 ∧ inFlight.signalEffects = [] ∧
      (inFlight.segs.ds.base + inFlight.segs.ds.len ≤ 24 ∧ inFlight.segs.ss.base + inFlight.segs.ss.len ≤ 24) :=
  ⟨by decide, ⟨_, rfl⟩, ⟨by decide, by decide⟩, rfl, by decide, by decide⟩

theorem witness_ShiftRoundTrip :
    (15 : BitVec 5).toNat < 16 ∧ ∃ t, exec (.shftL .r0 0 15) (ready 0) = .next t :=
  ⟨by decide, _, rfl⟩

theorem witness_CompareThenBranch :
    Reg.r1 ≠ Reg.r0 ∧ Reg.r0 ≠ Reg.pc ∧ (0x80 : BitVec 8) ≠ 0 ∧ ∃ t, exec (.subR .r1 .r0 0) (ready 0) = .next t :=
  ⟨by decide, by decide, by decide, _, rfl⟩

theorem witness_invariants_and_a_step :
    MemoryInv (ready 0) ∧ StatusInv (ready 0) ∧ StackInv (ready 0) ∧ FaultInv (ready 0) ∧ ∃ t, step (ready 0) = .next t := by
  refine ⟨⟨by decide, by decide⟩, by unfold StatusInv; decide, ⟨by decide, by decide⟩, by unfold FaultInv; decide, _, rfl⟩

theorem witness_EveryStepKeepsDeviceInv : DeviceInv inFlight ∧ ∃ t, step inFlight = .next t :=
  ⟨witness_OngoingQueueFitsPorts, _, rfl⟩

theorem witness_EveryStepKeepsBusyPortsQueued :
    DeviceInv inFlight ∧ BusyInv inFlight ∧ inFlight.resolverAnswers = [] ∧
      (∀ m ∈ inFlight.env.headD [], resetsBlockAlone m = false) ∧ ∃ t, step inFlight = .next t := by
  refine ⟨witness_OngoingQueueFitsPorts, ?_, rfl, by decide, _, rfl⟩
  intro p h hb
  have h' : p ∈ [port1.withBusy true, port2] := h
  simp only [List.mem_cons, List.not_mem_nil, or_false] at h'
  rcases h' with rfl | rfl
  · exact ⟨_, List.mem_singleton.mpr rfl, rfl⟩
  · cases hb

end Sys2Proof.Tests
end

/-! ## A change of one port, and what a device may do on its own (R240 to R244) -/

section

namespace Sys2Proof.Machine

/-! ### A change of one port -/

/-- A change of a port that keeps its address takes effect there and nowhere else. -/
theorem portsChangedAt_updatePort (s : State) (a : Word) (p : Port) (f : Port → Port)
    (hf : ∀ q, (f q).addr = q.addr) (hp : s.lookupPort a = some p) :
    portsChangedAt s (s.updatePort a f) a (f p) := by
  refine ⟨?_, fun b hb => ?_, ?_⟩
  · simp [lookupPort_updatePort s a a f hf, hp]
  · simp [lookupPort_updatePort s a b f hf, hb.symm]
  · rw [State.updatePort_ports, List.map_map]
    refine List.map_congr_left fun q _ => ?_
    simp only [Function.comp_apply]
    split
    · exact hf q
    · rfl

/-! ### The three outcomes of a device's attempt -/

section Outcomes

variable {s : State} {a : Word} {p : Port} {d : Device} {m : DeviceMove}

/-- R18: without a port, or without a device on it, there is no device to act. -/
theorem deviceMove_no_device (h : ∀ q, s.lookupPort a = some q → q.device = none) : s.deviceMove a m = s := by
  unfold State.deviceMove
  cases hq : s.lookupPort a with
  | none => rfl
  | some q => simp [h q hq]

theorem deviceMove_illegal (hp : s.lookupPort a = some p) (hd : p.device = some d) (hl : m.legal p = false) :
    s.deviceMove a m = s.reportFailure a := by
  simp [State.deviceMove, hp, hd, hl]

theorem deviceMove_legal (hp : s.lookupPort a = some p) (hd : p.device = some d) (hl : m.legal p = true) :
    s.deviceMove a m = s.updatePort a m.effect := by
  simp [State.deviceMove, hp, hd, hl]

/-- A legal operation changes the ports only, and of these only the device's own, by its effect. -/
theorem deviceMove_becomes {q : Port} (hp : s.lookupPort a = some p) (hd : p.device = some d)
    (hl : m.legal p = true) (hq : m.effect p = q) :
    s.deviceMove a m = { s with ports := (s.deviceMove a m).ports } ∧ portsChangedAt s (s.deviceMove a m) a q := by
  rw [deviceMove_legal hp hd hl, ← hq]
  exact ⟨rfl, portsChangedAt_updatePort s a p m.effect (effect_addr m) hp⟩

end Outcomes

/-! ### When an operation is legal, and its effect on a port with a mailbox (R241 to R244) -/

section Legality

variable {p : Port} {q : Mailbox}

theorem legal_of_program (hc : p.controller = .program) (m : DeviceMove) : m.legal p = false := by
  simp [DeviceMove.legal, hc]

theorem legal_allocate (hc : p.controller = .device) (n : Nat) : (DeviceMove.allocate n).legal p = true := by
  simp [DeviceMove.legal, hc]

theorem legal_deallocate (hc : p.controller = .device) : DeviceMove.deallocate.legal p = true := by
  simp [DeviceMove.legal, hc]

theorem legal_relinquish (hc : p.controller = .device) : DeviceMove.relinquish.legal p = p.mailbox.isSome := by
  simp [DeviceMove.legal, hc]

/-- Without a mailbox there is nothing to hand over, no room and no byte. -/
theorem not_legal_of_no_mailbox (hm : p.mailbox = none) (b : Byte) :
    DeviceMove.relinquish.legal p = false ∧ (DeviceMove.push b).legal p = false ∧ DeviceMove.pop.legal p = false := by
  simp [DeviceMove.legal, Port.free, Port.used, hm]

theorem legal_push (hc : p.controller = .device) (hm : p.mailbox = some q) (b : Byte) :
    (DeviceMove.push b).legal p = decide (q.bytes.length < q.cap) := by
  simp [DeviceMove.legal, Port.free, Mailbox.free, hc, hm]

theorem legal_pop (hc : p.controller = .device) (hm : p.mailbox = some q) :
    DeviceMove.pop.legal p = decide (q.bytes ≠ []) := by
  simp [DeviceMove.legal, Port.used, Mailbox.used, hc, hm, List.length_pos_iff]

theorem effect_relinquish (hm : p.mailbox = some q) :
    DeviceMove.relinquish.effect p =
      { p with controller := .program, handoffReadable := decide (q.bytes ≠ []) } := by
  simp [DeviceMove.effect, Port.used, Mailbox.used, hm, List.length_pos_iff]

theorem effect_push (hm : p.mailbox = some q) (b : Byte) :
    (DeviceMove.push b).effect p = { p with mailbox := some ⟨q.cap, q.bytes ++ [b]⟩ } := by
  simp [DeviceMove.effect, hm]

theorem effect_pop (hm : p.mailbox = some q) :
    DeviceMove.pop.effect p = { p with mailbox := some ⟨q.cap, q.bytes.tail⟩ } := by
  simp [DeviceMove.effect, hm]

end Legality

/-- Settles O42: each operation is legal exactly where R240 to R244 say, and `deviceMove` is then its effect on the
port, else a report of failure. -/
theorem deviceOperationRule : Obligations.DeviceOperationRule := by
  unfold Obligations.DeviceOperationRule
  refine ⟨fun a m s h => deviceMove_no_device h, ?_⟩
  intro a p d n b s hp hd
  refine ⟨fun hc m => deviceMove_illegal hp hd (legal_of_program hc m), fun hc => ⟨?_, ?_, ?_, ?_⟩⟩
  · exact deviceMove_becomes hp hd (legal_allocate hc n) rfl
  · exact deviceMove_becomes hp hd (legal_deallocate hc) rfl
  · intro hm
    obtain ⟨hrel, hpush, hpop⟩ := not_legal_of_no_mailbox hm b
    exact ⟨deviceMove_illegal hp hd hrel, deviceMove_illegal hp hd hpush, deviceMove_illegal hp hd hpop⟩
  · intro q hm
    refine ⟨?relinquish, fun hfull => ?pushFull, fun hroom => ?push, fun hempty => ?popEmpty, fun hbyte => ?pop⟩
    case relinquish => exact deviceMove_becomes hp hd (by simp [legal_relinquish hc, hm]) (effect_relinquish hm)
    case pushFull => exact deviceMove_illegal hp hd (by simp [legal_push hc hm, hfull])
    case push => exact deviceMove_becomes hp hd (by simp [legal_push hc hm, hroom]) (effect_push hm b)
    case popEmpty => exact deviceMove_illegal hp hd (by simp [legal_pop hc hm, hempty])
    case pop => exact deviceMove_becomes hp hd (by simp [legal_pop hc hm, hbyte]) (effect_pop hm)

end Sys2Proof.Machine
end

/-! ## The execute phase: its effects (R38, R204) -/

section

namespace Sys2Proof.Machine

/-! ### The effects of an execute phase -/

/-- An action as an execute phase queues it: a transfer that has not started (R184, R203). -/
def FreshAction : Action → Prop
  | .transfer t => t.started = false
  | .load _ _ | .store _ _ | .push _ | .pop _ | .query _ _ | .relinquish _ | .signal _ => True

/-- The three effects an execute phase can have: it records a fault, it queues one action, or it writes destination
registers together with the flags. -/
inductive ExecuteEffect (i : Instr) (s : State) : State → Prop
  | fault (k : FaultKind) (arg : BitVec 12) : ExecuteEffect i s (s.setFault k arg)
  | delegate (a : Action) (hk : channelOf i ≠ none) (ha : FreshAction a) : ExecuteEffect i s (s.enqueue a)
  | compute (regs : Regs) (z c : Bool) (hr : ∀ r, r ∉ writtenRegs i → regs.get r = s.x r) :
      ExecuteEffect i s ({ s with regs := regs }.setFlags z c)

variable {i : Instr} {s t : State}

theorem guardReserved_effect {bad : Bool} {body : Result} (hbody : body = .next t → ExecuteEffect i s t)
    (h : guardReserved bad s body = .next t) : ExecuteEffect i s t := by
  cases bad with
  | false => exact hbody h
  | true =>
    cases h
    exact .fault .res 0

theorem require_next {k : Channel} {body : Result} (h : require k s body = .next t) : body = .next t := by
  cases hk : s.channelPresent k with
  | false => rw [require_absent k s body hk] at h; cases h
  | true => rwa [require_present k s body hk] at h

theorem request_effect {k : Channel} {bad : Bool} {a : Action} (hk : channelOf i ≠ none) (ha : FreshAction a)
    (h : request k bad a s = .next t) : ExecuteEffect i s t :=
  guardReserved_effect (fun hq => by cases hq; exact .delegate a hk ha) (require_next h)

/-- One destination written with the flags: `ADD`, `SUB`, `ASGN`, `SHFT`, `BITW`. -/
theorem setX_effect {b : Reg} (hb : b ∈ writtenRegs i) (v : Word) (z c : Bool) :
    ExecuteEffect i s ((s.setX b v).setFlags z c) :=
  .compute (s.regs.set b v) z c fun r hr => by
    have hne : b ≠ r := fun e => hr (e ▸ hb)
    simp [hne]

/-- A destination and `LR` written with the flags: `MUL`, `DIV`. -/
theorem setX_lr_effect {b : Reg} (hb : b ∈ writtenRegs i) (hlr : .lr ∈ writtenRegs i) (v w : Word) (z c : Bool) :
    ExecuteEffect i s (((s.setX b v).setX .lr w).setFlags z c) :=
  .compute ((s.regs.set b v).set .lr w) z c fun r hr => by
    have hne : b ≠ r := fun e => hr (e ▸ hb)
    have hnl : Reg.lr ≠ r := fun e => hr (e ▸ hlr)
    simp [hne, hnl]

theorem divBy_effect {b : Reg} (hb : b ∈ writtenRegs i) (hlr : .lr ∈ writtenRegs i) (d : Word)
    (h : divBy b d s = .next t) : ExecuteEffect i s t := by
  unfold divBy at h
  split at h
  · cases h
    exact .fault .div 0
  · cases h
    exact setX_lr_effect hb hlr _ _ _ _

theorem branchTo_effect (hpc : .pc ∈ writtenRegs i) (z c : Bool) (target : Word) :
    ExecuteEffect i s (branchTo z c target s) := by
  unfold branchTo
  split
  · exact setX_effect hpc _ _ _
  · exact .compute s.regs _ _ fun _ _ => rfl

theorem execDpq_effect (v : BitVec 9) (q : BitVec 3) (h : execDpq v q s = .next t) :
    ExecuteEffect (.dpq v q) s t := by
  refine guardReserved_effect (fun hq => ?_) (require_next h)
  cases hk : queryKind q with
  | none =>
    rw [hk] at hq
    cases hq
    exact .fault .res 0
  | some k =>
    rw [hk] at hq
    cases hq
    exact .delegate _ nofun trivial

/-- All that an execute phase with a next state can have done. -/
theorem exec_effect (h : exec i s = .next t) : ExecuteEffect i s t := by
  have write {b : Reg} {v : Word} {z c : Bool} (hb : b ∈ writtenRegs i)
      (hn : Host.Outcome.next ((s.setX b v).setFlags z c) = (.next t : Result)) : ExecuteEffect i s t := by
    cases hn
    exact setX_effect hb v z c
  cases i with
  | addL b l | subL b l => exact write List.mem_cons_self h
  | addR a b v | subR a b v | asgnR a b v | asgnL b l | shftR a b v | shftL b v m =>
    exact guardReserved_effect (write List.mem_cons_self) h
  | andR a b v | orR a b v | xorR a b v | andM b f v k | orM b f v k | xorM b f v k | not a b v =>
    exact guardReserved_effect (write List.mem_cons_self) h
  | mulR d v | mulL d v l =>
    refine guardReserved_effect (fun hm => ?_) h
    cases hm
    exact setX_lr_effect (by simp [writtenRegs]) (by simp [writtenRegs]) _ _ _ _
  | divR d v | divL d v l =>
    exact guardReserved_effect (divBy_effect (by simp [writtenRegs]) (by simp [writtenRegs]) _) h
  | cbxLr z c v | cbxRel z c v f =>
    refine guardReserved_effect (fun hb => ?_) h
    cases hb
    exact branchTo_effect (by simp [writtenRegs]) _ _ _
  | ld r v | st r v | pop v m | push v m | sig v | dpoRelq j v => exact request_effect nofun (by trivial) h
  | dpoRd v | dpoWr v | dpoRdI v | dpoWrI v => exact request_effect nofun (by rfl) h
  | dpq v q => exact execDpq_effect v q h
  | ini0D u | ini0E u | hcf x =>
    cases h
    exact .fault _ _

/-- Settles O49: each of the three effects of an execute phase stays inside the frame. -/
theorem executePhaseFrame : Obligations.ExecutePhaseFrame := by
  unfold Obligations.ExecutePhaseFrame
  intro i s t h
  cases exec_effect h with
  | fault k arg => exact ⟨rfl, fun _ _ => rfl, fun _ => rfl, .inl rfl⟩
  | delegate a hk _ => exact ⟨rfl, fun _ _ => rfl, fun _ => rfl, .inr ⟨a, hk, rfl⟩⟩
  | compute regs z c hr => exact ⟨rfl, hr, fun _ => rfl, .inl rfl⟩

end Sys2Proof.Machine
end

/-! ## The fetch phase and the action handlers: what each can change (R201, R212) -/

section

namespace Sys2Proof.Machine

/-! ### The fetch and execute phase -/

/-- What every fetch and execute phase leaves alone, and what it can make of `SR` and the new queue. -/
structure PhaseFrame (s t : State) : Prop where
  sp : t.sp = s.sp
  segs : t.segs = s.segs
  ports : t.ports = s.ports
  ongoing : t.ongoing = s.ongoing
  sr : t.sr = s.sr ∨ ∃ z c, t.sr = flagsWord z c
  newQ : t.newQ = s.newQ ∨ ∃ a, FreshAction a ∧ t.newQ = s.newQ ++ [a]

theorem phaseFrame_setFault (s : State) (k : FaultKind) (arg : BitVec 12) : PhaseFrame s (s.setFault k arg) :=
  ⟨rfl, rfl, rfl, rfl, .inl rfl, .inl rfl⟩

theorem ExecuteEffect.phaseFrame {i : Instr} {s t : State} (h : ExecuteEffect i s t) : PhaseFrame s t := by
  cases h with
  | fault k arg => exact phaseFrame_setFault s k arg
  | delegate a _ ha => exact ⟨rfl, rfl, rfl, rfl, .inl rfl, .inr ⟨a, ha, rfl⟩⟩
  | compute regs z c _ => exact ⟨rfl, rfl, rfl, rfl, .inr ⟨z, c, rfl⟩, .inl rfl⟩

theorem rejectWord_phaseFrame {e : DecodeError} {s t : State} (h : rejectWord e s = .next t) : PhaseFrame s t := by
  cases e with
  | noDpoOperation =>
    cases require_next h
    exact phaseFrame_setFault s .res 0
  | truncated =>
    cases h
    exact phaseFrame_setFault s .res 0

theorem execute_phaseFrame {w : Word} {s t : State} (h : execute w s = .next t) : PhaseFrame (s.setIr w) t := by
  unfold execute at h
  dsimp only at h
  split at h
  · cases h
    exact phaseFrame_setFault _ _ _
  · split at h
    · exact (exec_effect h).phaseFrame
    · exact rejectWord_phaseFrame h

theorem fetchExecute_phaseFrame {s t : State} (h : fetchExecute s = .next t) : PhaseFrame s t := by
  rcases fetchExecute_cases s with ⟨-, hf⟩ | ⟨-, -, hf⟩ | ⟨-, -, -, hf⟩ | ⟨-, -, -, hf⟩ <;> rw [hf] at h
  · cases h
    exact phaseFrame_setFault s .algn 0
  · cases h
    exact phaseFrame_setFault s .seg 0
  · cases h
  · obtain ⟨hsp, hsegs, hports, hongoing, hsr, hnewQ⟩ := execute_phaseFrame h
    exact ⟨hsp, hsegs, hports, hongoing, hsr, hnewQ⟩

/-- A property is kept by every step if every move of a gap keeps it and so does a fetch and execute phase together with
the resolve phase after it (R210, R211). -/
theorem step_preserves (P : State → Prop) (hmove : ∀ m s, P s → P (applyMove m s)) (hgap : ∀ s, P s → P s.dropGap)
    (hcycle : ∀ s u, P s → PhaseFrame s u → P (resolveCycle u)) (s t : State) (hs : P s) (h : step s = .next t) :
    P t := by
  have hg : P (applyGap s) := applyGap_preserves P hmove hgap s hs
  obtain ⟨-, ⟨-, rfl⟩ | ⟨-, u, hu, rfl⟩⟩ := step_next s t h
  · exact hg
  · obtain ⟨hsp, hsegs, hports, hongoing, hsr, hnewQ⟩ := fetchExecute_phaseFrame hu
    exact hcycle _ u hg ⟨hsp, hsegs, hports, hongoing, hsr, hnewQ⟩

/-! ### The action handlers -/

/-- The three outcomes of a handler that finishes in one resolution: a fault and nothing else, *failed* and nothing
else, or a state that satisfies `P` with the flags written over it. -/
inductive HandlerEffect (s : State) (P : State → Prop) : State × Resolution → Prop
  | fault (k : FaultKind) (arg : BitVec 12) : HandlerEffect s P (s.setFault k arg, .complete)
  | failed : HandlerEffect s P (s, .failed)
  | done (u : State) (z c : Bool) (hu : P u) : HandlerEffect s P (u.setFlags z c, .complete)

variable (s : State)

theorem handleLoad_effect (addr : Word) (r : Reg) :
    HandlerEffect s (fun u => ∃ regs, u = { s with regs := regs }) (handleLoad addr r s) := by
  unfold handleLoad
  split
  · exact .fault _ _
  · split
    · exact .fault _ _
    · split
      · exact .failed
      · exact .done _ _ _ ⟨_, rfl⟩

theorem handleStore_effect (addr w : Word) :
    HandlerEffect s (fun u => ∃ mem, u = { s with mem := mem }) (handleStore addr w s) := by
  unfold handleStore
  split
  · exact .fault _ _
  · split
    · exact .fault _ _
    · split
      · exact .failed
      · exact .done _ _ _ ⟨_, rfl⟩

theorem handlePush_effect (m : BitVec 4) :
    HandlerEffect s
      (fun u => s.sp.toNat + maskBytes m ≤ s.segs.ss.len ∧
        ∃ mem, u = { s with mem := mem }.setSp (s.sp.toNat + maskBytes m))
      (handlePush m s) := by
  unfold handlePush
  split
  · exact .fault _ _
  · rename_i hb
    split
    · exact .failed
    · rw [pushWords_eq]
      exact .done _ _ _ ⟨by simpa [inSegment] using hb, _, rfl⟩

theorem handlePop_effect (m : BitVec 4) :
    HandlerEffect s
      (fun u => maskBytes m ≤ s.sp.toNat ∧ ∃ regs, u = { s with regs := regs }.setSp (s.sp.toNat - maskBytes m))
      (handlePop m s) := by
  unfold handlePop
  split
  · exact .fault _ _
  · rename_i hb
    split
    · exact .failed
    · dsimp only
      rw [popWords_eq]
      exact .done _ _ _ ⟨by omega, _, rfl⟩

theorem handleQuery_effect (port : Word) (k : QueryKind) :
    HandlerEffect s (fun u => u = s) (handleQuery port k s) :=
  .done s _ _ rfl

theorem handleRelinquish_effect (port : Word) :
    HandlerEffect s
      (fun u => ∃ p, s.lookupPort port = some p ∧ p.busy = false ∧ u = s.updatePort port programRelinquish)
      (handleRelinquish port s) := by
  unfold handleRelinquish
  split
  · exact .fault _ _
  · rename_i p hp
    split
    · exact .fault _ _
    · rename_i hb
      split
      · exact .fault _ _
      · exact .done _ _ _ ⟨p, hp, by simpa using hb, rfl⟩

theorem directRead_effect (port : Word) :
    HandlerEffect s
      (fun u => ∃ p m v, admission s port .read = some (p, m) ∧
        u = (s.updatePort port (fun q => q.withBytes (m.bytes.drop 2))).setX .lr v)
      (directRead port s) := by
  cases h : admission s port .read with
  | none =>
    rw [directRead_ido port s h]
    exact .fault _ _
  | some pm =>
    rw [directRead_ok port s pm.1 pm.2 h]
    exact .done _ _ _ ⟨_, _, _, rfl, rfl⟩

theorem directWrite_effect (port w : Word) :
    HandlerEffect s
      (fun u => ∃ p m, admission s port .write = some (p, m) ∧
        u = s.updatePort port (fun q => q.withBytes (m.bytes ++ directBytes m w)))
      (directWrite port w s) := by
  cases h : admission s port .write with
  | none =>
    rw [directWrite_ido port w s h]
    exact .fault _ _
  | some pm =>
    rw [directWrite_ok port w s pm.1 pm.2 h]
    exact .done _ _ _ ⟨_, _, rfl, rfl⟩

theorem handleSignal_effect (c : SignalCall) :
    HandlerEffect s (fun u => u = s.signalPlatform c) (handleSignal c s) := by
  cases h : s.signalValid c.arg0 with
  | false =>
    simp only [handleSignal, h]
    exact .fault _ _
  | true =>
    rw [handleSignal_accepted c s h]
    exact .done _ _ _ rfl

/-- One chunk changes memory and ports only (R255, R256). -/
theorem moveChunk_eq (t : Transfer) :
    (moveChunk t s).1 = { s with mem := (moveChunk t s).1.mem, ports := (moveChunk t s).1.ports } := by
  rcases moveChunk_cases t s with h | ⟨p, m, -, -, -, ⟨-, h⟩ | ⟨-, -, h⟩⟩ <;> rw [h]
  all_goals
    rw [memAfter_eq]
    rfl

/-- All that the first resolution of an indirect transfer does before its first chunk: a fault, or registers, flags,
the clamp's fault and the busy flag (R252 to R254). -/
theorem startIndirect_cases (t : Transfer) :
    (∃ k, startIndirect t s = (s.setFault k 0, .complete)) ∨
      ∃ p m regs fault written z c, admission s t.port t.dir = some (p, m) ∧
        startIndirect t s =
          moveChunk { t with started := true, remaining := transferTotal s t m }
            (({ s with regs := regs, fault := fault, faultWritten := written }.setFlags z c).updatePort t.port
              (fun q => q.withBusy true)) := by
  unfold startIndirect
  split
  · exact .inl ⟨.ido, rfl⟩
  · rename_i p m hadm
    split
    · exact .inl ⟨.algn, rfl⟩
    · dsimp only
      right
      by_cases hclamp : validLength s t.addr < t.len.toNat
      · rw [if_pos hclamp]
        exact ⟨p, m, _, _, _, _, _, hadm, rfl⟩
      · rw [if_neg hclamp]
        exact ⟨p, m, _, s.fault, s.faultWritten, _, _, hadm, rfl⟩

end Sys2Proof.Machine
end

/-! ## The bits of `SR` outside its flags (R25) -/

section

namespace Sys2Proof.Machine

variable {s t : State}

theorem StatusInv.of_sr (h : StatusInv s) (hsr : t.sr = s.sr ∨ ∃ z c, t.sr = flagsWord z c) : StatusInv t := by
  unfold StatusInv at *
  rcases hsr with hsr | ⟨z, c, hsr⟩ <;> rw [hsr]
  · exact h
  · exact flagsWord_high z c

theorem HandlerEffect.statusInv {P : State → Prop} {r : State × Resolution} (he : HandlerEffect s P r)
    (h : StatusInv s) : StatusInv r.1 := by
  cases he with
  | fault | failed => exact h
  | done u z c _ => exact h.of_sr (.inr ⟨z, c, rfl⟩)

theorem handle_statusInv (a : Action) (h : StatusInv s) : StatusInv (handle a s).1 := by
  have chunk {x : Transfer} {u : State} (hu : StatusInv u) : StatusInv (moveChunk x u).1 := by
    rw [moveChunk_eq]
    exact hu
  cases a with
  | load addr r => exact (handleLoad_effect s addr r).statusInv h
  | store addr w => exact (handleStore_effect s addr w).statusInv h
  | push m => exact (handlePush_effect s m).statusInv h
  | pop m => exact (handlePop_effect s m).statusInv h
  | query port k => exact (handleQuery_effect s port k).statusInv h
  | relinquish port => exact (handleRelinquish_effect s port).statusInv h
  | signal c => exact (handleSignal_effect s c).statusInv h
  | transfer x =>
    change StatusInv (handleTransfer x s).1
    unfold handleTransfer
    split
    · split
      · exact chunk h
      · rcases startIndirect_cases s x with ⟨k, hx⟩ | ⟨p, m, regs, f, w, z, c, -, hx⟩ <;> rw [hx]
        · exact h
        · exact chunk (h.of_sr (.inr ⟨z, c, rfl⟩))
    · split
      · exact (directRead_effect s x.port).statusInv h
      · exact (directWrite_effect s x.port x.word).statusInv h

theorem applyMove_statusInv (m : EnvMove) (h : StatusInv s) : StatusInv (applyMove m s) := by
  cases m with
  | device port d =>
    change StatusInv (s.deviceMove port d)
    rw [deviceMove_eq]
    exact h
  | hostClearFault | hostWritePc v => exact h
  | hostReset ports =>
    cases ports
    · exact (rfl : (0 : Word).extractLsb' 2 14 = 0)
    · exact (rfl : (0 : Word).extractLsb' 2 14 = 0)
  | hostLoad segs image => exact (rfl : (0 : Word).extractLsb' 2 14 = 0)

theorem resolveCycle_statusInv (h : StatusInv s) : StatusInv (resolveCycle s) :=
  resolveCycle_preserves StatusInv (fun _ h => h) (fun _ h => h) (fun a _ h => handle_statusInv a h) (fun _ _ _ h => h)
    s h

/-- Settles O56: every write of `SR` is a flags word or the reset value. -/
theorem everyStepKeepsStatusInv : Obligations.EveryStepKeepsStatusInv := by
  unfold Obligations.EveryStepKeepsStatusInv
  exact step_preserves StatusInv (fun m _ h => applyMove_statusInv m h) (fun _ h => h)
    (fun _ _ h hu => resolveCycle_statusInv (h.of_sr hu.sr))

end Sys2Proof.Machine
end

/-! ## `SP` even and inside the stack segment (R28, R168, R169) -/

section

namespace Sys2Proof.Machine

variable {s t : State}

theorem StackInv.of_sp (h : StackInv s) (hsp : t.sp = s.sp) (hsegs : t.segs = s.segs) : StackInv t := by
  unfold StackInv
  rw [hsp, hsegs]
  exact h

theorem stackInv_empty (hsp : s.sp = 0) : StackInv s := by
  unfold StackInv
  rw [hsp]
  exact ⟨rfl, Nat.zero_le _⟩

/-- An even number of bytes up to the segment's length is a stack pointer, also where it is reduced to 0 (entry 12). -/
theorem stackInv_setSp {n : Nat} (heven : n % 2 = 0) (hle : n ≤ s.segs.ss.len) : StackInv (s.setSp n) := by
  have hval : (s.setSp n).sp.toNat = n % 65536 := BitVec.toNat_ofNat n 16
  have hlen : (s.setSp n).segs.ss.len = s.segs.ss.len := rfl
  unfold StackInv
  rw [hval, hlen]
  omega

theorem HandlerEffect.stackInv {P : State → Prop} {r : State × Resolution} (he : HandlerEffect s P r)
    (h : StackInv s) (hP : ∀ u, P u → StackInv u) : StackInv r.1 := by
  cases he with
  | fault | failed => exact h
  | done u z c hu => exact hP u hu

theorem handlePush_stackInv (m : BitVec 4) (h : StackInv s) : StackInv (handlePush m s).1 := by
  refine (handlePush_effect s m).stackInv h ?_
  rintro u ⟨hb, mem, rfl⟩
  have heven := h.1
  exact stackInv_setSp (by unfold maskBytes; omega) hb

theorem handlePop_stackInv (m : BitVec 4) (h : StackInv s) : StackInv (handlePop m s).1 := by
  refine (handlePop_effect s m).stackInv h ?_
  rintro u ⟨hb, regs, rfl⟩
  obtain ⟨heven, hle⟩ := h
  refine stackInv_setSp (by unfold maskBytes at *; omega) ?_
  change s.sp.toNat - maskBytes m ≤ s.segs.ss.len
  omega

theorem handle_stackInv (a : Action) (h : StackInv s) : StackInv (handle a s).1 := by
  have chunk {x : Transfer} {u : State} (hu : StackInv u) : StackInv (moveChunk x u).1 := by
    rw [moveChunk_eq]
    exact hu
  cases a with
  | load addr r => exact (handleLoad_effect s addr r).stackInv h (by rintro u ⟨regs, rfl⟩; exact h)
  | store addr w => exact (handleStore_effect s addr w).stackInv h (by rintro u ⟨mem, rfl⟩; exact h)
  | push m => exact handlePush_stackInv m h
  | pop m => exact handlePop_stackInv m h
  | query port k => exact (handleQuery_effect s port k).stackInv h (by rintro u rfl; exact h)
  | relinquish port =>
    exact (handleRelinquish_effect s port).stackInv h (by rintro u ⟨p, -, -, rfl⟩; exact h)
  | signal c =>
    refine (handleSignal_effect s c).stackInv h ?_
    rintro u rfl
    rw [signalPlatform_eq]
    exact h
  | transfer x =>
    change StackInv (handleTransfer x s).1
    unfold handleTransfer
    split
    · split
      · exact chunk h
      · rcases startIndirect_cases s x with ⟨k, hx⟩ | ⟨p, m, regs, f, w, z, c, -, hx⟩ <;> rw [hx]
        · exact h
        · exact chunk h
    · split
      · exact (directRead_effect s x.port).stackInv h (by rintro u ⟨p, m, v, -, rfl⟩; exact h)
      · exact (directWrite_effect s x.port x.word).stackInv h (by rintro u ⟨p, m, -, rfl⟩; exact h)

theorem applyMove_stackInv (m : EnvMove) (h : StackInv s) : StackInv (applyMove m s) := by
  cases m with
  | device port d =>
    change StackInv (s.deviceMove port d)
    rw [deviceMove_eq]
    exact h
  | hostClearFault | hostWritePc v => exact h
  | hostReset ports =>
    cases ports
    · exact stackInv_empty rfl
    · exact stackInv_empty rfl
  | hostLoad segs image => exact stackInv_empty rfl

theorem resolveCycle_stackInv (h : StackInv s) : StackInv (resolveCycle s) :=
  resolveCycle_preserves StackInv (fun _ h => h) (fun _ h => h) (fun a _ h => handle_stackInv a h) (fun _ _ _ h => h)
    s h

/-- Settles O57: only Push, Pop and reset write `SP`, the first two after their bounds checks. -/
theorem everyStepKeepsStackInv : Obligations.EveryStepKeepsStackInv := by
  unfold Obligations.EveryStepKeepsStackInv
  exact step_preserves StackInv (fun m _ h => applyMove_stackInv m h) (fun _ h => h)
    (fun _ _ h hu => resolveCycle_stackInv (h.of_sp hu.sp hu.segs))

end Sys2Proof.Machine
end

/-! ## Ports and transfers in flight (R32, R214, R230 to R234) -/

section

namespace Sys2Proof.Machine

/-! ### What keeps a port as required (R231, R234) -/

section Ports

variable {p : Port}

theorem portOk_withBytes {bytes : List Byte} (h : PortOk p) (hb : ∀ m, p.mailbox = some m → bytes.length ≤ m.cap) :
    PortOk (p.withBytes bytes) := by
  obtain ⟨-, hmailbox, hbusy⟩ := h
  refine ⟨fun m hm => ?_, fun hc => by simpa using hmailbox hc, hbusy⟩
  obtain ⟨n, hn, rfl⟩ := Option.map_eq_some_iff.mp hm
  exact hb n hn

theorem portOk_withBusy {b : Bool} (h : PortOk p) (hb : b = true → p.controller = .program) : PortOk (p.withBusy b) :=
  ⟨h.1, h.2.1, hb⟩

theorem portOk_initial (p : Port) : PortOk p.initial :=
  ⟨nofun, nofun, nofun⟩

theorem portOk_programRelinquish (h : PortOk p) (hidle : p.busy = false) : PortOk (programRelinquish p) := by
  unfold programRelinquish
  split
  · exact ⟨(portOk_withBytes h (bytes := []) fun _ _ => Nat.zero_le _).1, nofun, fun hb => by simp [hidle] at hb⟩
  · exact ⟨h.1, nofun, fun hb => by simp [hidle] at hb⟩

theorem PortOk.idle_of_device (h : PortOk p) (hc : p.controller = .device) : p.busy = false := by
  cases hb : p.busy with
  | false => rfl
  | true => rw [h.2.2 hb] at hc; cases hc

/-- A legal operation of the device neither over-fills the mailbox nor hands over a port without one (R240 to R244). -/
theorem portOk_effect {m : DeviceMove} (h : PortOk p) (hl : m.legal p = true) : PortOk (m.effect p) := by
  have hc := legal_controller m p hl
  have hidle := h.idle_of_device hc
  have hbusy : (m.effect p).busy = true → (m.effect p).controller = .program := by simp [hidle]
  obtain ⟨hcap, hmailbox, -⟩ := h
  cases m with
  | allocate size =>
    refine ⟨fun n hn => ?_, fun _ => rfl, hbusy⟩
    cases hn
    exact Nat.zero_le _
  | deallocate => exact ⟨nofun, fun hp => (nomatch hc.symm.trans hp), hbusy⟩
  | relinquish => exact ⟨hcap, fun _ => (legal_relinquish hc).symm.trans hl, hbusy⟩
  | push b =>
    refine ⟨fun n hn => ?_, fun hp => (nomatch hc.symm.trans hp), hbusy⟩
    obtain ⟨q, hq, rfl⟩ := Option.map_eq_some_iff.mp hn
    rw [legal_push hc hq, decide_eq_true_eq] at hl
    simpa [Mailbox.used] using hl
  | pop =>
    refine ⟨fun n hn => ?_, fun hp => (nomatch hc.symm.trans hp), hbusy⟩
    obtain ⟨q, hq, rfl⟩ := Option.map_eq_some_iff.mp hn
    have := hcap q hq
    simp only [Mailbox.used, List.length_drop] at *
    omega

end Ports

/-! ### The invariant of ports and a list of transfers in flight -/

/-- The part of `DeviceInv` that a resolution keeps, for the transfers `q` that are queued besides the one resolved. -/
def TransfersInv (s : State) (q : List Action) : Prop :=
  PortsInv s ∧ (∀ a ∈ q, ∃ t, a = .transfer t ∧ InFlight s t) ∧ (q.map transferPort).Nodup

theorem deviceInv_iff (s : State) : DeviceInv s ↔ s.newQ = [] ∧ TransfersInv s s.ongoing := by
  unfold DeviceInv QueueInv TransfersInv
  tauto

/-- What a transfer in flight needs of its port (R234). -/
def Transferring (p : Port) : Prop :=
  p.busy = true ∧ p.controller = .program ∧ p.mailbox.isSome = true

variable {s u : State} {q q' : List Action}

theorem transfersInv_nil (h : PortsInv s) : TransfersInv s [] :=
  ⟨h, nofun, List.nodup_nil⟩

theorem TransfersInv.perm (h : TransfersInv s q) (hq : q.Perm q') : TransfersInv s q' := by
  obtain ⟨hports, hflight, hnodup⟩ := h
  exact ⟨hports, fun a ha => hflight a (hq.mem_iff.mpr ha), (hq.map _).nodup_iff.mp hnodup⟩

theorem TransfersInv.tail {a : Action} (h : TransfersInv s (a :: q)) : TransfersInv s q := by
  obtain ⟨hports, hflight, hnodup⟩ := h
  exact ⟨hports, fun b hb => hflight b (List.mem_cons_of_mem _ hb), (List.nodup_cons.mp hnodup).2⟩

theorem TransfersInv.cons {t : Transfer} (h : TransfersInv s q) (ht : InFlight s t)
    (hfree : some t.port ∉ q.map transferPort) : TransfersInv s (.transfer t :: q) := by
  obtain ⟨hports, hflight, hnodup⟩ := h
  exact ⟨hports, List.forall_mem_cons.mpr ⟨⟨t, rfl, ht⟩, hflight⟩, List.nodup_cons.mpr ⟨hfree, hnodup⟩⟩

/-- The invariant reads the ports and the segment table only. -/
theorem TransfersInv.congr (h : TransfersInv s q) (hports : u.ports = s.ports) (hsegs : u.segs = s.segs) :
    TransfersInv u q := by
  unfold TransfersInv PortsInv InFlight State.lookupPort at *
  rw [hports, hsegs]
  exact h

/-- The port of a queued transfer is busy, so an idle port has none. -/
theorem TransfersInv.not_queued_of_idle {a : Word} {p : Port} (h : TransfersInv s q) (hp : s.lookupPort a = some p)
    (hidle : p.busy = false) : some a ∉ q.map transferPort := by
  intro hmem
  obtain ⟨b, hb, hport⟩ := List.mem_map.mp hmem
  obtain ⟨t, rfl, -, -, -, -, r, hr, hbusy, -⟩ := h.2.1 b hb
  cases hport
  rw [hp] at hr
  cases hr
  rw [hidle] at hbusy
  cases hbusy

/-- Addresses being unique, every port is the one found at its address (R230). -/
theorem PortsInv.lookupPort_eq {p : Port} (h : PortsInv s) (hp : p ∈ s.ports) : s.lookupPort p.addr = some p := by
  have hsome : (s.lookupPort p.addr).isSome = true := List.find?_isSome.mpr ⟨p, hp, beq_self_eq_true _⟩
  obtain ⟨r, hr⟩ := Option.isSome_iff_exists.mp hsome
  rw [hr, List.inj_on_of_nodup_map h.1 (lookupPort_mem s _ r hr) hp (lookupPort_addr s _ r hr)]

/-- A change of one port keeps the invariant if it leaves the port as required, and in transfer where one is queued. -/
theorem TransfersInv.updatePort {a : Word} {p : Port} {f : Port → Port} (h : TransfersInv s q)
    (hp : s.lookupPort a = some p) (hf : ∀ r, (f r).addr = r.addr) (hok : PortOk p → PortOk (f p))
    (hbusy : some a ∈ q.map transferPort → Transferring p → Transferring (f p)) :
    TransfersInv (s.updatePort a f) q := by
  obtain ⟨hports, hflight, hnodup⟩ := h
  obtain ⟨hsame, hother, haddrs⟩ := portsChangedAt_updatePort s a p f hf hp
  refine ⟨⟨haddrs ▸ hports.1, fun r hr => ?_⟩, fun b hb => ?_, hnodup⟩
  · obtain ⟨r, hmem, rfl⟩ := List.mem_map.mp hr
    split
    · rename_i ha
      rw [beq_iff_eq] at ha
      subst ha
      rw [hports.lookupPort_eq hmem] at hp
      cases hp
      exact hok (hports.2 _ hmem)
    · exact hports.2 r hmem
  · obtain ⟨t, rfl, hi, hs, hrem, hin, r, hr, hr'⟩ := hflight b hb
    refine ⟨t, rfl, hi, hs, hrem, hin, ?_⟩
    by_cases ha : t.port = a
    · subst ha
      rw [hp] at hr
      cases hr
      exact ⟨f p, hsame, hbusy (List.mem_map_of_mem hb) hr'⟩
    · exact ⟨r, (hother _ ha).trans hr, hr'⟩

/-- New bytes that fit the mailbox leave every transfer in flight (R231). -/
theorem TransfersInv.withBytes {a : Word} {p : Port} {m : Mailbox} {bytes : List Byte} (h : TransfersInv s q)
    (hp : s.lookupPort a = some p) (hm : p.mailbox = some m) (hfit : m.used ≤ m.cap → bytes.length ≤ m.cap) :
    TransfersInv (s.updatePort a (fun r => r.withBytes bytes)) q := by
  refine h.updatePort hp (fun _ => rfl) (fun hok => portOk_withBytes hok fun n hn => ?_)
    fun _ ⟨hb, hc, hsome⟩ => ⟨hb, hc, by simpa using hsome⟩
  rw [hm] at hn
  cases hn
  exact hfit (hok.1 m hm)

/-! ### Devices, and the platform's answer to a signal -/

theorem TransfersInv.deviceMove (h : TransfersInv s q) (a : Word) (m : DeviceMove) :
    TransfersInv (s.deviceMove a m) q := by
  rcases deviceMove_cases s a m with hm | hm | ⟨p, hp, -, hl, hm⟩ <;> rw [hm]
  · exact h
  · exact h
  · refine h.updatePort hp (effect_addr m) (fun hok => portOk_effect hok hl) ?_
    rintro - ⟨-, hc, -⟩
    cases (legal_controller m p hl).symm.trans hc

theorem TransfersInv.applyPlatformMoves (ms : List PlatformMove) (h : TransfersInv s q) :
    TransfersInv (applyPlatformMoves ms s) q := by
  induction ms generalizing s with
  | nil => exact h
  | cons m rest ih =>
    refine ih (s := applyPlatformMove m s) ?_
    cases m with
    | device a d => exact h.deviceMove a d
    | storeByte a v =>
      change TransfersInv (s.storePlatformByte a v) q
      rcases storePlatformByte_cases s a v with hm | ⟨-, -, hm⟩ <;> rw [hm] <;> exact h

/-! ### One resolution -/

/-- What a resolution leaves queued of its action (R201). -/
def Resolution.queued : Resolution → List Action
  | .ongoing a => [a]
  | .complete | .failed => []

theorem HandlerEffect.transfersInv {P : State → Prop} {r : State × Resolution} (he : HandlerEffect s P r)
    (h : TransfersInv s q) (hP : ∀ u, P u → TransfersInv u q) : TransfersInv r.1 (r.2.queued ++ q) := by
  cases he with
  | fault | failed => exact h
  | done u z c hu => exact hP u hu

/-- A chunk neither over-fills the mailbox nor takes what it does not hold (R255). -/
theorem length_bytesAfter_le {m : Mailbox} {t : Transfer} {n : Nat} (hm : m.used ≤ m.cap) (hn : n ≤ available t.dir m) :
    (bytesAfter s m t n).length ≤ m.cap := by
  unfold bytesAfter
  cases hd : t.dir <;> rw [hd] at hn
  · simp only [List.length_drop, Mailbox.used] at *
    omega
  · simp only [List.length_append, Memory.length_readBytes, Mailbox.used, available, Mailbox.free] at *
    omega

theorem length_append_directBytes_le {m : Mailbox} {w : Word} (hm : m.used ≤ m.cap) :
    (m.bytes ++ directBytes m w).length ≤ m.cap := by
  simp only [directBytes, Mailbox.free, Mailbox.used, List.length_append, List.length_take] at *
  omega

/-- An address advanced by `n`, reduced or not, leaves the rest of a range inside the bound (R255). -/
theorem advance_inside {t : Transfer} {n len : Nat} (h : t.addr.toNat + t.remaining ≤ len) (hn : n ≤ t.remaining) :
    (t.advance n).addr.toNat + (t.advance n).remaining ≤ len := by
  have ha : (t.advance n).addr.toNat ≤ t.addr.toNat + n := by
    have hmod := Nat.mod_le (t.addr.toNat + (BitVec.ofNat 16 n).toNat) 65536
    have hofNat : (BitVec.ofNat 16 n).toNat ≤ n := by
      rw [BitVec.toNat_ofNat]
      exact Nat.mod_le n _
    change (t.addr + BitVec.ofNat 16 n).toNat ≤ _
    rw [BitVec.toNat_add]
    omega
  change _ + (t.remaining - n) ≤ len
  omega

/-- One chunk of a started transfer keeps the invariant, and the transfer is in flight afterwards if bytes are left. -/
theorem TransfersInv.moveChunk {t : Transfer} {p : Port} (h : TransfersInv s q)
    (hfree : some t.port ∉ q.map transferPort) (hi : t.indirect = true) (hs : t.started = true)
    (hin : 0 < t.remaining → t.addr.toNat + t.remaining ≤ s.segs.ds.len) (hp : s.lookupPort t.port = some p)
    (hbusy : Transferring p) : TransfersInv (moveChunk t s).1 ((moveChunk t s).2.queued ++ q) := by
  rcases moveChunk_cases t s with hm | ⟨p', m, hp', hmail, -, hm⟩
  · rw [hm]
    exact h
  · rw [hp] at hp'
    cases hp'
    obtain ⟨hle, hav⟩ := chunkSize_le p m t
    generalize chunkSize p m t = n at hle hav hm
    have hmem : TransfersInv (memAfter s m t n) q := by
      rw [memAfter_eq]
      exact h
    have hlook : (memAfter s m t n).lookupPort t.port = some p := by
      rw [memAfter_eq]
      exact hp
    set bytes := bytesAfter s m t n
    have hmoved : TransfersInv ((memAfter s m t n).updatePort t.port (fun r => r.withBytes bytes)) q :=
      hmem.withBytes hlook hmail fun hcap => length_bytesAfter_le hcap hav
    have hnew := (portsChangedAt_updatePort _ _ p (fun r => r.withBytes bytes) (fun _ => rfl) hlook).1
    rcases hm with ⟨-, hm⟩ | ⟨hrem, -, hm⟩ <;> rw [hm]
    · exact hmoved.updatePort hnew (fun _ => rfl) (fun hok => portOk_withBusy hok nofun) (absurd · hfree)
    · refine hmoved.cons ⟨hi, hs, hrem, ?_, p.withBytes bytes, hnew, hbusy.1, hbusy.2.1, ?_⟩ hfree
      · rw [memAfter_eq]
        exact advance_inside (hin (by omega)) hle
      · simpa using hbusy.2.2

theorem TransfersInv.startIndirect {t : Transfer} (h : TransfersInv s q) (hi : t.indirect = true) :
    TransfersInv (startIndirect t s).1 ((startIndirect t s).2.queued ++ q) := by
  rcases startIndirect_cases s t with ⟨k, hx⟩ | ⟨p, m, regs, f, w, z, c, hadm, hx⟩ <;> rw [hx]
  · exact h
  · obtain ⟨hp, hmail, hidle, hstate⟩ := admission_some s t.port t.dir p m hadm
    have hc : p.controller = .program := admitted_controller p t.dir hstate
    set s1 : State := { s with regs := regs, fault := f, faultWritten := w }.setFlags z c
    have h1 : TransfersInv s1 q := h
    have hp1 : s1.lookupPort t.port = some p := hp
    have hfree : some t.port ∉ q.map transferPort := h.not_queued_of_idle hp hidle
    have hbusy : TransfersInv (s1.updatePort t.port (fun r => r.withBusy true)) q :=
      h1.updatePort hp1 (fun _ => rfl) (fun hok => portOk_withBusy hok fun _ => hc) (absurd · hfree)
    have hnew := (portsChangedAt_updatePort s1 _ p (fun r => r.withBusy true) (fun _ => rfl) hp1).1
    refine hbusy.moveChunk hfree hi rfl ?_ hnew ⟨rfl, hc, ?_⟩
    · change 0 < transferTotal s t m → t.addr.toNat + transferTotal s t m ≤ s.segs.ds.len
      unfold transferTotal validLength
      omega
    · simp [hmail]

/-- The handler of an action from the new queue. -/
theorem TransfersInv.handle_fresh {a : Action} (h : TransfersInv s q) (ha : FreshAction a) :
    TransfersInv (handle a s).1 ((handle a s).2.queued ++ q) := by
  cases a with
  | load addr r => exact (handleLoad_effect s addr r).transfersInv h (by rintro u ⟨regs, rfl⟩; exact h)
  | store addr w => exact (handleStore_effect s addr w).transfersInv h (by rintro u ⟨mem, rfl⟩; exact h)
  | push m => exact (handlePush_effect s m).transfersInv h (by rintro u ⟨-, mem, rfl⟩; exact h)
  | pop m => exact (handlePop_effect s m).transfersInv h (by rintro u ⟨-, regs, rfl⟩; exact h)
  | query port k => exact (handleQuery_effect s port k).transfersInv h (by rintro u rfl; exact h)
  | relinquish port =>
    refine (handleRelinquish_effect s port).transfersInv h ?_
    rintro u ⟨p, hp, hidle, rfl⟩
    exact h.updatePort hp programRelinquish_addr (fun hok => portOk_programRelinquish hok hidle)
      (absurd · (h.not_queued_of_idle hp hidle))
  | signal c =>
    refine (handleSignal_effect s c).transfersInv h ?_
    rintro u rfl
    exact TransfersInv.applyPlatformMoves _ (s := s.recordSignal c) h
  | transfer x =>
    change TransfersInv (handleTransfer x s).1 ((handleTransfer x s).2.queued ++ q)
    have hx : x.started = false := ha
    unfold handleTransfer
    rw [hx]
    split
    · rename_i hi
      exact h.startIndirect hi
    · split
      · refine (directRead_effect s x.port).transfersInv h ?_
        rintro u ⟨p, m, v, hadm, rfl⟩
        obtain ⟨hp, hmail, hidle, -⟩ := admission_some s _ _ p m hadm
        refine h.withBytes hp hmail fun hcap => ?_
        simp only [List.length_drop, Mailbox.used] at *
        omega
      · refine (directWrite_effect s x.port x.word).transfersInv h ?_
        rintro u ⟨p, m, hadm, rfl⟩
        obtain ⟨hp, hmail, hidle, -⟩ := admission_some s _ _ p m hadm
        exact h.withBytes hp hmail fun hcap => length_append_directBytes_le hcap

/-- The handler of an action from the ongoing queue: one more chunk. -/
theorem TransfersInv.handle_queued {a : Action} (h : TransfersInv s (a :: q)) :
    TransfersInv (handle a s).1 ((handle a s).2.queued ++ q) := by
  obtain ⟨t, rfl, hi, hs, -, hin, p, hp, hbusy⟩ := h.2.1 a List.mem_cons_self
  have hfree : some t.port ∉ q.map transferPort := (List.nodup_cons.mp h.2.2).1
  have hchunk : handle (.transfer t) s = Machine.moveChunk t s := by simp [handle, handleTransfer, hi, hs]
  rw [hchunk]
  exact h.tail.moveChunk hfree hi hs (fun _ => hin) hp hbusy

/-- A resolution keeps the invariant if its handler does: *failed* by `ACTION_FAILS` changes nothing (R206). -/
theorem TransfersInv.resolve {a : Action} (h : TransfersInv s q)
    (hh : TransfersInv (handle a s.dropAnswer).1 ((handle a s.dropAnswer).2.queued ++ q)) :
    TransfersInv (resolve a s).1 ((resolve a s).2.queued ++ q) := by
  rcases resolve_cases a s with ⟨-, hr⟩ | ⟨-, hr⟩ <;> rw [hr]
  · exact h
  · exact hh

/-! ### The resolution pass (R205, R209) -/

theorem TransfersInv.resolveNew {as : List Action} (h : TransfersInv s q) (has : ∀ a ∈ as, FreshAction a) (k r : Nat) :
    TransfersInv (resolveNew as k r s).1 ((resolveNew as k r s).2.1 ++ q) := by
  induction as generalizing k r s q with
  | nil => exact h
  | cons a rest ih =>
    obtain ⟨ha, hrest⟩ := List.forall_mem_cons.mp has
    cases k with
    | zero => exact h
    | succ k =>
      have hd : TransfersInv s.dropAnswer q := h
      have hres := h.resolve (hd.handle_fresh ha)
      rcases hr : Machine.resolve a s with ⟨u, res⟩
      rw [hr] at hres
      cases res with
      | complete =>
        rw [resolveNew_complete a rest k r s u hr]
        exact ih hres hrest k r
      | failed =>
        rw [resolveNew_failed a rest k r s u hr]
        exact hres
      | ongoing a' =>
        cases r with
        | zero =>
          rw [resolveNew_noRoom a a' rest k s u hr]
          exact h
        | succ r =>
          rw [resolveNew_ongoing a a' rest k r s u hr]
          exact (ih hres hrest k r).perm List.perm_middle

/-- The pass over the ongoing queue `as`, behind the transfers `q` already resolved in this cycle. -/
theorem TransfersInv.resolveOngoing {as : List Action} (h : TransfersInv s (q ++ as)) :
    TransfersInv (resolveOngoing as s).1 (q ++ (resolveOngoing as s).2) := by
  induction as generalizing s q with
  | nil => exact h
  | cons a rest ih =>
    have hfront : TransfersInv s (a :: (q ++ rest)) := h.perm List.perm_middle
    have hd : TransfersInv s.dropAnswer (a :: (q ++ rest)) := hfront
    have hres := hfront.tail.resolve hd.handle_queued
    rcases hr : Machine.resolve a s with ⟨u, res⟩
    rw [hr] at hres
    cases res with
    | complete =>
      rw [resolveOngoing_complete a rest s u hr]
      exact ih hres
    | failed =>
      rw [resolveOngoing_failed a rest s u hr]
      exact hres
    | ongoing a' =>
      rw [resolveOngoing_ongoing a a' rest s u hr]
      have hdone : TransfersInv u ((a' :: q) ++ rest) := hres
      exact (ih hdone).perm List.perm_middle.symm

/-- The pass, from any new queue of actions as execute phases queue them, ends between cycles (R31, R214). -/
theorem resolveCycle_deviceInv (h : TransfersInv s s.ongoing) (hnew : ∀ a ∈ s.newQ, FreshAction a) :
    DeviceInv (resolveCycle s) := by
  have hblock := h.resolveNew hnew s.cfg.newQDepth (s.ongoingCapacity - s.ongoing.length)
  refine (deviceInv_iff _).mpr ⟨resolveCycle_newQ s, ?_⟩
  unfold resolveCycle
  dsimp only
  split
  · exact hblock
  · exact hblock.resolveOngoing

/-! ### The gap and the step -/

theorem portsInv_resetPorts (h : PortsInv s) : PortsInv s.resetPorts := by
  refine ⟨?_, fun p hp => ?_⟩
  · rw [State.resetPorts_ports, List.map_map]
    exact h.1
  · obtain ⟨r, -, rfl⟩ := List.mem_map.mp hp
    exact portOk_initial r

theorem applyMove_deviceInv (m : EnvMove) (h : DeviceInv s) : DeviceInv (applyMove m s) := by
  obtain ⟨hnew, hinv⟩ := (deviceInv_iff s).mp h
  refine (deviceInv_iff _).mpr ?_
  cases m with
  | device port d =>
    have hmoved := hinv.deviceMove port d
    change (s.deviceMove port d).newQ = [] ∧ TransfersInv (s.deviceMove port d) (s.deviceMove port d).ongoing
    rw [deviceMove_eq] at hmoved ⊢
    exact ⟨hnew, hmoved⟩
  | hostClearFault | hostWritePc v => exact ⟨hnew, hinv⟩
  | hostReset ports =>
    cases ports
    · exact ⟨rfl, transfersInv_nil (s := s.resetBlock) hinv.1⟩
    · exact ⟨rfl, transfersInv_nil (portsInv_resetPorts (s := s.resetBlock) hinv.1)⟩
  | hostLoad segs image => exact ⟨rfl, transfersInv_nil (s := (s.loadProgram segs image).resetBlock) hinv.1⟩

theorem cycle_deviceInv (h : DeviceInv s) (hu : PhaseFrame s u) : DeviceInv (resolveCycle u) := by
  obtain ⟨hnew, hinv⟩ := (deviceInv_iff s).mp h
  refine resolveCycle_deviceInv (hu.ongoing ▸ hinv.congr hu.ports hu.segs) ?_
  rcases hu.newQ with hq | ⟨a, ha, hq⟩ <;> rw [hq, hnew]
  · exact nofun
  · exact List.forall_mem_singleton.mpr ha

/-- Settles O59: whatever resolves or moves in a gap changes a port with a transfer in flight only by that transfer's
own chunk. -/
theorem everyStepKeepsDeviceInv : Obligations.EveryStepKeepsDeviceInv := by
  unfold Obligations.EveryStepKeepsDeviceInv
  exact step_preserves DeviceInv (fun m _ h => applyMove_deviceInv m h) (fun _ h => h) fun _ _ => cycle_deviceInv

end Sys2Proof.Machine
end

/-! ## Reset (R39, R310, R313) -/

section

namespace Sys2Proof.Machine

/-- Settles O54: at reset the two queues, the port list and the memory list are empty and the registers zero. -/
theorem resetMeetsInvariants : Obligations.ResetMeetsInvariants := by
  unfold Obligations.ResetMeetsInvariants
  have hports : PortsInv State.reset := ⟨List.nodup_nil, nofun⟩
  have hstatus : StatusInv State.reset := (rfl : (0 : Word).extractLsb' 2 14 = 0)
  have hfault : FaultInv State.reset := Nat.zero_le 11
  exact ⟨⟨Memory.reset_wf, nofun⟩, hstatus, stackInv_empty rfl, hfault,
    (deviceInv_iff _).mpr ⟨rfl, transfersInv_nil hports⟩, by decide⟩

/-- The word at an address, from its two bytes, low byte first (R54). -/
theorem readWord_eq_ofNat (s : State) (a : Nat) :
    s.readWord a = BitVec.ofNat 16 ((s.readByte a).toNat + 256 * (s.readByte (a + 1)).toNat) := by
  rw [← readWord_toNat, BitVec.ofNat_toNat, BitVec.setWidth_eq]

/-- Where `PC` is even and a word fits the code segment, that word executes with `PC` advanced (R212). -/
theorem fetchExecute_inside {s : State} (hsegs : s.segsOk = true) (heven : isOdd (s.x .pc) = false)
    (hin : (s.x .pc).toNat + 2 ≤ s.segs.cs.len) :
    fetchExecute s = execute (s.readWord (s.codeAddr (s.x .pc))) (s.setX .pc (s.x .pc + 2)) := by
  have hstore := code_inStore s (s.x .pc) hsegs hin
  rcases fetchExecute_cases s with ⟨hodd, -⟩ | ⟨-, hout, -⟩ | ⟨-, -, hout, -⟩ | ⟨-, -, -, hf⟩
  · rw [heven] at hodd
    cases hodd
  · omega
  · omega
  · exact hf

/-- Settles O4: a reset leaves `PC` at 0, so the first fetch is the word at `CS.base`. -/
theorem hostResetThenFirstFetch : Obligations.HostResetThenFirstFetch := by
  unfold Obligations.HostResetThenFirstFetch
  intro s hsegs hlen w r
  refine ⟨rfl, ?_⟩
  have hpc : s.resetBlock.x .pc = 0 := rfl
  have hfetch := fetchExecute_inside (s := s.resetBlock) hsegs (by rw [hpc]; decide) (by rw [hpc]; exact hlen)
  have hword : s.resetBlock.readWord (s.resetBlock.codeAddr (s.resetBlock.x .pc)) = w := readWord_eq_ofNat s _
  rw [hword] at hfetch
  exact hfetch

end Sys2Proof.Machine
end

/-! ## Opcodes 0x4 to 0x6: their decoding, and the bits of a bitwise result (R85 to R88, R131 to R138) -/

section

namespace Sys2Proof

/-! ### The register form and the operation field -/

/-- The form is chosen by the register fields as bits (R85, R87, R88). -/
theorem ofBits_eq_iff (m n : BitVec 2) : Reg.ofBits m = Reg.ofBits n ↔ m = n := by
  rw [← bits_inj, bits_ofBits, bits_ofBits]

/-- The operation field of `BITW`, from its two bits (R88). -/
theorem field_bitw_operation (w : Word) : field w 6 2 = BitVec.ofBool (bit w 7) ++ BitVec.ofBool (bit w 6) := by
  apply BitVec.eq_of_getLsbD_eq
  intro i hi
  rw [getLsbD_field, BitVec.getLsbD_append]
  obtain rfl | rfl : i = 0 ∨ i = 1 := by omega
  · simp
  · simp

section Opcodes

variable {w : Word}

theorem decodeWord_asgn (h : field w 12 4 = 0x4) :
    decodeWord w = .ok
      (if field w 10 2 = field w 8 2 then .asgnL (Reg.ofBits (field w 8 2)) (field w 0 8)
        else .asgnR (Reg.ofBits (field w 10 2)) (Reg.ofBits (field w 8 2)) (field w 0 8)) := by
  obtain ⟨h15, h14, h13, h12⟩ := opcode_bits w _ h
  simp [decodeWord, h15, h14, h13, h12, ofBits_eq_iff]

theorem decodeWord_shft (h : field w 12 4 = 0x5) :
    decodeWord w = .ok
      (if field w 10 2 = field w 8 2 then .shftL (Reg.ofBits (field w 8 2)) (field w 5 3) (field w 0 5)
        else .shftR (Reg.ofBits (field w 10 2)) (Reg.ofBits (field w 8 2)) (field w 0 8)) := by
  obtain ⟨h15, h14, h13, h12⟩ := opcode_bits w _ h
  simp [decodeWord, h15, h14, h13, h12, ofBits_eq_iff]

theorem decodeWord_bitw (h : field w 12 4 = 0x6) : decodeWord w = .ok (decodeBitw w) := by
  obtain ⟨h15, h14, h13, h12⟩ := opcode_bits w _ h
  simp [decodeWord, h15, h14, h13, h12]

end Opcodes

/-- `decodeBitw` by the operation field as a number; `NOT` has no mask form (R88). -/
theorem decodeBitw_eq (w : Word) (a b : Reg) (ha : Reg.ofBits (field w 10 2) = a) (hb : Reg.ofBits (field w 8 2) = b) :
    decodeBitw w =
      if field w 6 2 = 3 then .not a b (field w 0 6)
      else if a = b then
        (if field w 6 2 = 0 then .andM b (bit w 5) (bit w 4) (field w 0 4)
          else if field w 6 2 = 1 then .orM b (bit w 5) (bit w 4) (field w 0 4)
          else .xorM b (bit w 5) (bit w 4) (field w 0 4))
      else
        (if field w 6 2 = 0 then .andR a b (field w 0 6)
          else if field w 6 2 = 1 then .orR a b (field w 0 6)
          else .xorR a b (field w 0 6)) := by
  rw [field_bitw_operation]
  -- the values of the two operation bits are the four arms of `decodeBitw`
  cases h7 : bit w 7 <;> cases h6 : bit w 6 <;> simp [decodeBitw, h7, h6, ha, hb]

/-! ### Bits of a bitwise result -/

section Bits

variable (x y : Word) (k : Nat)

theorem bit_and : bit (x &&& y) k = (bit x k && bit y k) := by
  simp [bit]

theorem bit_xor : bit (x ^^^ y) k = (bit x k != bit y k) := by
  simp [bit]

theorem bit_not (hk : k < 16) : bit (~~~x) k = !bit x k := by
  simp [bit, hk]

end Bits

end Sys2Proof
end

/-! ## `ASGN` and `BITW` (R131, R136, R138) -/

section

namespace Sys2Proof.Machine

/-! ### The one-bit mask (R136) -/

theorem bit_oneBit (n : BitVec 4) (k : Nat) : bit (1#16 <<< n.toNat) k = decide (k = n.toNat) := by
  rw [← BitVec.twoPow_eq, bit, BitVec.getLsbD_twoPow, decide_eq_true n.isLt, Bool.true_and]
  exact decide_eq_decide.mpr eq_comm

/-- The mask of R136, bit by bit. -/
theorem bit_bitMask (inv : Bool) (n : BitVec 4) {k : Nat} (hk : k < 16) :
    bit (bitMask inv n) k = (decide (k = n.toNat) != inv) := by
  cases inv with
  | false => simp [bitMask, bit_oneBit n k]
  | true => simp [bitMask, bit_not _ k hk, bit_oneBit n k]

/-! ### The reserved-encoding check, and the write of a value -/

theorem guardReserved_of_ne {n : Nat} {v : BitVec n} (hv : v ≠ 0) (s : State) (r : Result) :
    guardReserved (v != 0) s r = .next (s.setFault .res 0) := by
  rw [bne_iff_ne.mpr hv, guardReserved_true]

theorem isZero_eq (v : Word) : isZero v = decide (v.toNat = 0) := by
  rw [isZero, Bool.beq_eq_decide_eq]
  exact decide_eq_decide.mpr BitVec.toNat_eq

/-- `writeValue` by the value as a number. -/
theorem writeValue_of_toNat {v : Word} {n : Nat} (hv : v.toNat = n) (b : Reg) (s : State) :
    writeValue b v s =
      { s with regs := s.regs.set b (BitVec.ofNat 16 n), sr := flagsWord (decide (n = 0)) false } := by
  subst hv
  rw [BitVec.ofNat_toNat, BitVec.setWidth_eq, ← isZero_eq]
  rfl

/-- `writeValue` by the bits of the value. -/
theorem writeValue_of_bits {v : Word} {f : Nat → Bool} {r : Result} {b : Reg} {s : State}
    (hr : r = .next (writeValue b v s)) (hv : ∀ k, k < 16 → bit v k = f k) :
    ∃ t, r = .next t ∧ (∀ k, k < 16 → bit (t.x b) k = f k) ∧
      t = { s with regs := s.regs.set b (t.x b), sr := flagsWord (decide ((t.x b).toNat = 0)) false } := by
  have hx : (writeValue b v s).x b = v := by simp [writeValue]
  refine ⟨_, hr, ?_, ?_⟩
  · rwa [hx]
  · rw [hx, ← isZero_eq]
    rfl

/-- The sign-extended literal as a number (R10, R131). -/
theorem sext16_toNat (l : BitVec 8) :
    (sext16 l).toNat = if l.toNat < 128 then l.toNat else l.toNat + 65280 := by
  have hl := l.isLt
  rw [sext16, BitVec.toNat_signExtend, BitVec.msb_eq_decide]
  simp
  split <;> split <;> omega

/-! ### The two instructions -/

/-- Settles O21: both forms are `writeValue`, of the source register or of the sign-extended literal. -/
theorem asgnRule : Obligations.AsgnRule := by
  unfold Obligations.AsgnRule
  intro assigned
  refine ⟨fun w => decodeWord_asgn, fun a b v s hv => guardReserved_of_ne hv s _, fun l s => rfl, ?_, ?_⟩
  · intro a b s _
    exact congrArg Host.Outcome.next (writeValue_of_toNat rfl b s)
  · intro b l s hb
    have hexec : exec (.asgnL b l) s = guardReserved (b == .pc) s (.next (writeValue b (sext16 l) s)) := rfl
    rw [hexec, beq_false_of_ne hb, guardReserved_false, writeValue_of_toNat (sext16_toNat l)]

/-- Settles O23: each form writes one value, whose bits are those of its two operands. -/
theorem bitwiseRule : Obligations.BitwiseRule := by
  unfold Obligations.BitwiseRule
  intro writes mask
  refine ⟨?decode, ?reserved, fun b inv n s => ⟨rfl, rfl, rfl⟩, ?register, ?mask, ?not⟩
  case decode =>
    intro w h a b
    rw [decodeWord_bitw h, decodeBitw_eq w a b rfl rfl]
  case reserved =>
    intro a b v s hv
    exact ⟨guardReserved_of_ne hv s _, guardReserved_of_ne hv s _, guardReserved_of_ne hv s _,
      guardReserved_of_ne hv s _⟩
  case register =>
    intro a b s _
    exact ⟨writeValue_of_bits rfl fun k _ => bit_and _ _ k, writeValue_of_bits rfl fun k _ => bit_or _ _ k,
      writeValue_of_bits rfl fun k _ => bit_xor _ _ k⟩
  case mask =>
    intro b inv n s
    refine ⟨writeValue_of_bits rfl fun k hk => ?_, writeValue_of_bits rfl fun k hk => ?_,
      writeValue_of_bits rfl fun k hk => ?_⟩
    · rw [bit_and, bit_bitMask inv n hk]
    · rw [bit_or, bit_bitMask inv n hk]
    · rw [bit_xor, bit_bitMask inv n hk]
  case not => exact fun a b s => writeValue_of_bits rfl fun k hk => bit_not _ k hk

end Sys2Proof.Machine
end

/-! ## `SHFT` (R132, R134, R135) -/

section

namespace Sys2Proof.Machine

/-! ### A shift in numbers (R132, R134) -/

/-- A 16-bit value shifted by a 5-bit amount: left below 16, right by `32 - m` from there (R134). -/
def shiftResult (v m : Nat) : Nat :=
  if m < 16 then v * 2 ^ m % 65536 else v / 2 ^ (32 - m)

/-- The bits a shift by a 5-bit amount moves out of the value (R132). -/
def shiftOut (v m : Nat) : Nat :=
  if m < 16 then v / 2 ^ (16 - m) else v % 2 ^ (32 - m)

theorem shiftOut_zero (v : Word) : shiftOut v.toNat 0 = 0 :=
  Nat.div_eq_of_lt v.isLt

theorem shiftResult_zero (v : Word) : shiftResult v.toNat 0 = v.toNat := by
  rw [shiftResult, if_pos (by omega), Nat.pow_zero, Nat.mul_one, Nat.mod_eq_of_lt v.isLt]

/-- `shiftWord`, which goes by the sign of its amount, as R134 has it by the amount's five bits. -/
theorem shiftWord_eq (v : Word) (m : BitVec 5) :
    shiftWord v m = (BitVec.ofNat 16 (shiftResult v.toNat m.toNat), decide (shiftOut v.toNat m.toNat ≠ 0)) := by
  have hm := m.isLt
  have hsigned := BitVec.toInt_eq_toNat_cond m
  rcases Nat.eq_zero_or_pos m.toNat with hzero | hpos
  · have hint : m.toInt = 0 := by omega
    simp [shiftWord, hint, hzero, shiftOut_zero, shiftResult_zero]
  · rcases Nat.lt_or_ge m.toNat 16 with hleft | hright
    · have hint : m.toInt = m.toNat := by omega
      have hword : shl v m.toNat = BitVec.ofNat 16 (shiftResult v.toNat m.toNat) :=
        BitVec.eq_of_toNat_eq (by simp [shl, shiftResult, hleft])
      have hout : outLeft v m.toNat = shiftOut v.toNat m.toNat := (if_pos hleft).symm
      rw [shiftWord, if_pos (by omega), hint, Int.toNat_natCast, hword, hout, bne, Bool.beq_eq_decide_eq, decide_not]
    · have hneg : m.toInt < 0 := by omega
      have hamount : (-m.toInt).toNat = 32 - m.toNat := by omega
      have hword : shr v (32 - m.toNat) = BitVec.ofNat 16 (shiftResult v.toNat m.toNat) :=
        congrArg (BitVec.ofNat 16) (if_neg hright.not_gt).symm
      have hout : outRight v (32 - m.toNat) = shiftOut v.toNat m.toNat := (if_neg hright.not_gt).symm
      rw [shiftWord, if_neg hneg.not_gt, if_pos hneg, hamount, hword, hout, bne, Bool.beq_eq_decide_eq, decide_not]

theorem shiftResult_lt (v : Word) (m : Nat) : shiftResult v.toNat m < 65536 := by
  unfold shiftResult
  split
  · exact Nat.mod_lt _ (by omega)
  · exact (Nat.div_le_self _ _).trans_lt v.isLt

/-- `shiftBy` by the destination's value and the amount as numbers. -/
theorem shiftBy_eq (b : Reg) (m : BitVec 5) (s : State) :
    shiftBy b m s =
      { s with
        regs := s.regs.set b (BitVec.ofNat 16 (shiftResult (s.x b).toNat m.toNat))
        sr := flagsWord (decide (shiftResult (s.x b).toNat m.toNat = 0))
          (decide (shiftOut (s.x b).toNat m.toNat ≠ 0)) } := by
  have hlt := shiftResult_lt (s.x b) m.toNat
  have hzero : isZero (BitVec.ofNat 16 (shiftResult (s.x b).toNat m.toNat)) =
      decide (shiftResult (s.x b).toNat m.toNat = 0) := by
    rw [isZero_eq, BitVec.toNat_ofNat, Nat.mod_eq_of_lt hlt]
  rw [← hzero, shiftBy, shiftWord_eq]
  rfl

theorem shiftField_toNat (v : Word) : (shiftField v).toNat = v.toNat % 32 := by
  simp [shiftField, BitVec.extractLsb'_toNat]

/-- Settles O22: both forms are `shiftBy`, with the literal amount or the low five bits of the source. -/
theorem shiftRule : Obligations.ShiftRule := by
  unfold Obligations.ShiftRule
  intro shifted
  refine ⟨fun w => decodeWord_shft, fun a b v s hv => guardReserved_of_ne hv s _,
    fun b v m s hv => guardReserved_of_ne hv s _, ?_, ?_⟩
  · intro a b s _
    rw [← shiftField_toNat]
    exact congrArg Host.Outcome.next (shiftBy_eq b _ s)
  · intro b m s
    exact congrArg Host.Outcome.next (shiftBy_eq b m s)

/-! ### Left and back (R135) -/

theorem shiftBy_x (b : Reg) (m : BitVec 5) (s : State) :
    ((shiftBy b m s).x b).toNat = shiftResult (s.x b).toNat m.toNat := by
  have hlt := shiftResult_lt (s.x b) m.toNat
  rw [shiftBy_eq]
  simpa using hlt

theorem shiftBy_carry (b : Reg) (m : BitVec 5) (s : State) :
    bit (shiftBy b m s).sr 1 = decide (shiftOut (s.x b).toNat m.toNat ≠ 0) := by
  rw [shiftBy_eq]
  exact flagsWord_c _ _

/-- What a left shift keeps of a value: its low `16 - k` bits, moved up. -/
theorem shiftResult_left (v : Nat) {k : Nat} (hk : k < 16) : shiftResult v k = v % 2 ^ (16 - k) * 2 ^ k := by
  have hsplit : 65536 = 2 ^ (16 - k) * 2 ^ k := by
    rw [← Nat.pow_add, Nat.sub_add_cancel hk.le]
  rw [shiftResult, if_pos hk, hsplit, Nat.mul_mod_mul_right]

/-- Shifting right by `k` undoes a multiplication by `2 ^ k`, and only zeros leave. -/
theorem shift_right_of_mul (n : Nat) {k : Nat} (hk : 0 < k) (hk' : k < 16) :
    shiftResult (n * 2 ^ k) (32 - k) = n ∧ shiftOut (n * 2 ^ k) (32 - k) = 0 := by
  have hright : ¬32 - k < 16 := by omega
  have hback : 32 - (32 - k) = k := by omega
  rw [shiftResult, shiftOut, if_neg hright, if_neg hright, hback]
  exact ⟨Nat.mul_div_cancel n (Nat.two_pow_pos k), Nat.mul_mod_left n _⟩

/-- The two shifts of R135 on a value. -/
theorem shift_left_then_right (v : Word) {k : BitVec 5} (hk : k.toNat < 16) :
    shiftResult (shiftResult v.toNat k.toNat) (-k).toNat = v.toNat % 2 ^ (16 - k.toNat) ∧
      shiftOut (shiftResult v.toNat k.toNat) (-k).toNat = 0 := by
  have hneg := BitVec.toNat_neg k
  rcases Nat.eq_zero_or_pos k.toNat with hzero | hpos
  · have hnone : (-k).toNat = 0 := by omega
    rw [hnone, hzero, shiftResult_zero, shiftResult_zero, shiftOut_zero, Nat.mod_eq_of_lt v.isLt]
    exact ⟨rfl, rfl⟩
  · have hright : (-k).toNat = 32 - k.toNat := by omega
    rw [hright, shiftResult_left _ hk]
    exact shift_right_of_mul _ hpos hk

/-- Settles O52: the first shift leaves a multiple of `2 ^ k`, so the second drops only zeros. -/
theorem shiftRoundTrip : Obligations.ShiftRoundTrip := by
  unfold Obligations.ShiftRoundTrip
  intro b k s t hk ht
  obtain rfl : shiftBy b k s = t := Host.Outcome.next.inj ht
  obtain ⟨hvalue, hout⟩ := shift_left_then_right (s.x b) hk
  refine ⟨shiftBy b (-k) (shiftBy b k s), rfl, ?_, ?_, ?_⟩
  · rw [shiftBy_x, shiftBy_x, hvalue]
  · rw [shiftBy_carry, shiftBy_x, hout]
    rfl
  · rw [shiftBy_carry, decide_eq_true_iff, shiftOut, if_pos hk]

end Sys2Proof.Machine
end

/-! ## `CBX` and the status register (R150, R151) -/

section

namespace Sys2Proof

theorem decodeWord_cbx {w : Word} (h : field w 12 4 = 0x7) :
    decodeWord w = .ok
      (if bit w 11 then .cbxRel (bit w 10) (bit w 9) (bit w 8) (field w 0 8)
        else .cbxLr (bit w 10) (bit w 9) (field w 0 9)) := by
  obtain ⟨h15, h14, h13, h12⟩ := opcode_bits w _ h
  simp [decodeWord, h15, h14, h13, h12]

end Sys2Proof

namespace Sys2Proof.Machine

/-! ### The branch (R151) -/

/-- The relative target in integers, whatever number `n` the offset field is read as (R10, R151). -/
theorem relativeTarget_eq_ofInt (pc : Word) {f : BitVec 8} {n : Int} (hn : f.toInt = n) :
    relativeTarget pc f = BitVec.ofInt 16 (pc.toNat + 2 * n) := by
  subst hn
  calc relativeTarget pc f
      = pc + (BitVec.ofInt 16 f.toInt + BitVec.ofInt 16 f.toInt) := rfl
    _ = BitVec.ofInt 16 (pc.toNat + 2 * f.toInt) := by
      rw [BitVec.ofInt_add, BitVec.ofInt_natCast, BitVec.ofNat_toNat, BitVec.setWidth_eq, Int.two_mul,
        BitVec.ofInt_add]

/-- `branchTo` by the condition: `PC` only if taken, and one of two values in `SR` (R151). -/
theorem branchTo_eq (z c : Bool) (target : Word) (s : State) :
    branchTo z c target s =
      { s with
        regs := if branchTaken z c s then s.regs.set .pc target else s.regs
        sr := if branchTaken z c s then 0x0000 else 0x0001 } := by
  unfold branchTo
  cases branchTaken z c s with
  | false => rfl
  | true => rfl

/-- Settles O24: both forms are `branchTo`, to `LR` or to the relative target. -/
theorem branchRule : Obligations.BranchRule := by
  unfold Obligations.BranchRule
  intro branched offset
  refine ⟨fun w => decodeWord_cbx, fun z c v s hv => guardReserved_of_ne hv s _, fun z c f s => rfl, ?_, ?_⟩
  · intro z c s
    exact congrArg Host.Outcome.next (branchTo_eq z c _ s)
  · intro z c f s
    have hoffset : f.toInt = offset f := by
      have hsigned := BitVec.toInt_eq_toNat_cond f
      simp only [offset]
      omega
    rw [← relativeTarget_eq_ofInt _ hoffset]
    exact congrArg Host.Outcome.next (branchTo_eq z c _ s)

/-! ### Every other instruction is blind to `SR` (R150) -/

/-- How the outcomes of two runs from `s`, the second with `v` put into `SR`, may compare when nothing reads `SR`: they
are refused alike, they reach one state, or both left `SR` as it was. -/
inductive StatusBlind (v : Word) (s : State) : Result → Result → Prop
  | refused (r : Refusal) : StatusBlind v s (.refused r) (.refused r)
  | overwritten (t : State) : StatusBlind v s (.next t) (.next t)
  | untouched (t : State) (hsr : t.sr = s.sr) : StatusBlind v s (.next t) (.next (t.withSr v))

section Blind

variable {v : Word} {s : State} {body body' : Result}

theorem raise_blind (k : FaultKind) (arg : BitVec 12) : StatusBlind v s (s.raise k arg) ((s.withSr v).raise k arg) :=
  .untouched (s.setFault k arg) rfl

theorem enqueue_blind (a : Action) : StatusBlind v s (.next (s.enqueue a)) (.next ((s.withSr v).enqueue a)) :=
  .untouched (s.enqueue a) rfl

theorem guardReserved_blind (bad : Bool) (h : StatusBlind v s body body') :
    StatusBlind v s (guardReserved bad s body) (guardReserved bad (s.withSr v) body') := by
  cases bad with
  | false => exact h
  | true => exact raise_blind .res 0

/-- The channel check asks the configuration, which both runs share. -/
theorem require_blind (k : Channel) (h : StatusBlind v s body body') :
    StatusBlind v s (require k s body) (require k (s.withSr v) body') := by
  cases hk : s.channelPresent k with
  | false =>
    rw [require_absent k s body hk, require_absent k (s.withSr v) body' hk]
    exact .refused _
  | true => rwa [require_present k s body hk, require_present k (s.withSr v) body' hk]

theorem request_blind (k : Channel) (bad : Bool) (a : Action) :
    StatusBlind v s (request k bad a s) (request k bad a (s.withSr v)) :=
  require_blind k (guardReserved_blind bad (enqueue_blind a))

theorem divBy_blind (dest : Reg) (d : Word) : StatusBlind v s (divBy dest d s) (divBy dest d (s.withSr v)) := by
  unfold divBy
  split
  · exact raise_blind .div 0
  · exact .overwritten _

theorem execDpq_blind (u : BitVec 9) (q : BitVec 3) : StatusBlind v s (execDpq u q s) (execDpq u q (s.withSr v)) := by
  refine require_blind .dpq (guardReserved_blind _ ?_)
  cases queryKind q with
  | none => exact raise_blind .res 0
  | some k => exact enqueue_blind _

end Blind

/-- Outside `CBX` an execute phase either overwrites `SR` by values computed from registers, or leaves it alone. -/
theorem exec_blind (i : Instr) (v : Word) (s : State) (hi : isBranch i = false) :
    StatusBlind v s (exec i s) (exec i (s.withSr v)) := by
  cases i with
  | addL b l | subL b l => exact .overwritten _
  | addR a b u | subR a b u | asgnR a b u | asgnL b l | shftR a b u | shftL b u m | mulR d u | mulL d u l =>
    exact guardReserved_blind _ (.overwritten _)
  | andR a b u | orR a b u | xorR a b u | andM b f u k | orM b f u k | xorM b f u k | not a b u =>
    exact guardReserved_blind _ (.overwritten _)
  | divR d u | divL d u l => exact guardReserved_blind _ (divBy_blind _ _)
  | cbxLr z c u | cbxRel z c u f => cases hi
  | ld r u | st r u | pop u m | push u m | sig u => exact request_blind _ _ _
  | dpoRelq j u | dpoRd u | dpoWr u | dpoRdI u | dpoWrI u => exact request_blind _ _ _
  | dpq u q => exact execDpq_blind u q
  | ini0D u | ini0E u | hcf x => exact raise_blind _ _

/-- Settles O50: two runs that differ in `SR` alone end in one of the three ways of `StatusBlind`. -/
theorem onlyBranchReadsStatus : Obligations.OnlyBranchReadsStatus := by
  unfold Obligations.OnlyBranchReadsStatus
  intro i v s hi
  have hblind := exec_blind i v s hi
  generalize exec i s = here, exec i (s.withSr v) = there at hblind
  cases hblind with
  | refused r =>
    refine ⟨fun _ => Iff.rfl, fun t ht => ?_⟩
    cases ht
  | overwritten t => exact ⟨fun _ => Iff.rfl, fun _ ht => .inl ht⟩
  | untouched t hsr =>
    refine ⟨fun _ => iff_of_false nofun nofun, fun t' ht => ?_⟩
    cases ht
    exact .inr ⟨hsr, rfl⟩

end Sys2Proof.Machine
end

/-! ## `LDST` and `STK`, execute phase (R161, R166) -/

section

namespace Sys2Proof

section Opcodes

variable {w : Word}

theorem decodeWord_ldst (h : field w 12 4 = 0x8) :
    decodeWord w = .ok
      (if bit w 11 then .st (Reg.ofBits (field w 9 2)) (field w 0 9)
        else .ld (Reg.ofBits (field w 9 2)) (field w 0 9)) := by
  obtain ⟨h15, h14, h13, h12⟩ := opcode_bits w _ h
  simp [decodeWord, h15, h14, h13, h12]

theorem decodeWord_stk (h : field w 12 4 = 0xB) :
    decodeWord w = .ok
      (if bit w 11 then .push (field w 4 7) (field w 0 4) else .pop (field w 4 7) (field w 0 4)) := by
  obtain ⟨h15, h14, h13, h12⟩ := opcode_bits w _ h
  simp [decodeWord, h15, h14, h13, h12]

end Opcodes

end Sys2Proof

namespace Sys2Proof.Machine

section Request

variable {k : Channel} {bad : Bool} {a : Action} {s : State}

theorem request_absent (hk : s.channelPresent k = false) : request k bad a s = .refused (.notAttempted k) :=
  require_absent k s _ hk

theorem request_reserved (hk : s.channelPresent k = true) (hbad : bad = true) :
    request k bad a s = .next (s.setFault .res 0) := by
  subst hbad
  exact require_present k s _ hk

theorem request_accepted (hk : s.channelPresent k = true) (hbad : bad = false) :
    request k bad a s = .next { s with newQ := s.newQ ++ [a] } := by
  subst hbad
  exact request_ok k a s hk

end Request

/-- Settles O25: both forms are a `request`, reserved when bits 8:0 are not zero. -/
theorem loadStoreQueueRule : Obligations.LoadStoreQueueRule := by
  unfold Obligations.LoadStoreQueueRule
  refine ⟨fun w => decodeWord_ldst, ?absent, ?reserved, fun r s hk => request_accepted hk rfl,
    fun r s hk => request_accepted hk rfl⟩
  case absent => exact fun r v s => ⟨request_absent, request_absent⟩
  case reserved =>
    intro r v s hv
    have hbad : (v != 0) = true := bne_iff_ne.mpr hv
    exact ⟨fun hk => request_reserved hk hbad, fun hk => request_reserved hk hbad⟩

/-- The reserved encodings of `STK`: bits 10:4, and the empty mask (R166). -/
theorem stkReserved_iff (v : BitVec 7) (m : BitVec 4) : (v != 0 || m == 0) = true ↔ v ≠ 0 ∨ m = 0 := by
  simp

theorem stkReserved_false {m : BitVec 4} (hm : m ≠ 0) : ((0 : BitVec 7) != 0 || m == 0) = false := by
  simpa using hm

/-- Settles O29: both forms are a `request` that carries the mask alone. -/
theorem stackQueueRule : Obligations.StackQueueRule := by
  unfold Obligations.StackQueueRule
  refine ⟨fun w => decodeWord_stk, ?absent, ?reserved, fun m s hm hk => request_accepted hk (stkReserved_false hm),
    fun m s hm hk => request_accepted hk (stkReserved_false hm)⟩
  case absent => exact fun v m s => ⟨request_absent, request_absent⟩
  case reserved =>
    intro v m s h
    have hbad := (stkReserved_iff v m).mpr h
    exact ⟨fun hk => request_reserved hk hbad, fun hk => request_reserved hk hbad⟩

end Sys2Proof.Machine
end

/-! ## Load and Store handlers (R163, R164) -/

section

namespace Sys2Proof.Machine

theorem isOdd_eq (a : Word) : isOdd a = decide (a.toNat % 2 = 1) :=
  Nat.testBit_zero a.toNat

theorem isOdd_of_odd {a : Word} (h : a.toNat % 2 = 1) : isOdd a = true := by
  rw [isOdd_eq, decide_eq_true h]

theorem isOdd_of_even {a : Word} (h : a.toNat % 2 = 0) : isOdd a = false := by
  rw [isOdd_eq, decide_eq_false (by omega)]

/-! ### The bytes of a stored word (R51) -/

section Bytes

variable (s : State) (a : Nat) (v : Word)

theorem readByte_writeWord_low : ((s.writeWord a v).readByte a).toNat = v.toNat % 256 := by
  simp [readByte_eq, Memory.read_writeWord]

theorem readByte_writeWord_high : ((s.writeWord a v).readByte (a + 1)).toNat = v.toNat / 256 := by
  have hv := v.isLt
  rw [readByte_eq, State.writeWord_mem, Memory.read_writeWord, if_neg (by omega), if_pos rfl,
    BitVec.extractLsb'_toNat, Nat.shiftRight_eq_div_pow]
  exact Nat.mod_eq_of_lt (by omega)

theorem readByte_writeWord_ne {b : Nat} (hlow : b ≠ a) (hhigh : b ≠ a + 1) :
    (s.writeWord a v).readByte b = s.readByte b := by
  simp [readByte_eq, Memory.read_writeWord, hlow, hhigh]

theorem readWord_writeWord_same : (s.writeWord a v).readWord a = v :=
  Memory.readWord_writeWord s.mem a v

end Bytes

/-! ### The two handlers -/

/-- Settles O26: inside the data segment a load is `writeValue` of the word it reads. -/
theorem loadHandlerRule : Obligations.LoadHandlerRule := by
  unfold Obligations.LoadHandlerRule
  intro addr r s hs at0 w
  refine ⟨fun hodd => handleLoad_odd addr r s (isOdd_of_odd hodd),
    fun heven => handleLoad_outside addr r s (isOdd_of_even heven), fun heven hb => ?_⟩
  calc handleLoad addr r s
      = (writeValue r (s.readWord at0) s, .complete) :=
        handleLoad_ok addr r s (isOdd_of_even heven) hb (data_inStore s addr 2 hs hb)
    _ = _ := by rw [writeValue_of_toNat (readWord_toNat s at0)]

/-- Settles O27: inside the data segment a store is `writeWord` and the flags of the word. -/
theorem storeHandlerRule : Obligations.StoreHandlerRule := by
  unfold Obligations.StoreHandlerRule
  intro addr word s hs at0
  refine ⟨fun hodd => handleStore_odd addr word s (isOdd_of_odd hodd),
    fun heven => handleStore_outside addr word s (isOdd_of_even heven), fun heven hb => ?_⟩
  refine ⟨_, handleStore_ok addr word s (isOdd_of_even heven) hb (data_inStore s addr 2 hs hb), ?_,
    readByte_writeWord_low s at0 word, readByte_writeWord_high s at0 word,
    fun a => readByte_writeWord_ne s at0 word⟩
  rw [isZero_eq]
  rfl

end Sys2Proof.Machine
end

/-! ## Push and Pop handlers (R167 to R169) -/

section

namespace Sys2Proof.Machine

/-! ### The order of a mask's registers (R167) -/

section Masks

variable {m : BitVec 4} {r : Reg}

theorem maskBytes_eq (m : BitVec 4) : maskBytes m = 2 * popcount m := by
  revert m
  decide

theorem maskRegs_slotOf (h : inMask m r = true) : (maskRegs m)[slotOf m r]? = some r := by
  revert m
  cases r <;> decide

theorem not_mem_maskRegs (h : inMask m r = false) : r ∉ maskRegs m := by
  rw [mem_maskRegs]
  exact Bool.eq_false_iff.mp h

end Masks

/-! ### What a push leaves in memory and a pop in the registers -/

/-- The words of a push stand one after the other from the offset on. -/
theorem pushWords_readWord {rs : List Reg} {i : Nat} {r : Reg} (h : rs[i]? = some r) (off : Nat) (s : State) :
    (pushWords rs off s).readWord (s.stackAddr (off + 2 * i)) = s.x r := by
  induction rs generalizing off s i with
  | nil => cases h
  | cons q rest ih =>
    cases i with
    | zero =>
      obtain rfl : q = r := by simpa using h
      -- the later words lie above this one
      have hkept (b : Nat) (hb : b < s.stackAddr (off + 2)) :
          (pushWords (q :: rest) off s).readByte b = (s.writeWord (s.stackAddr off) (s.x q)).readByte b :=
        pushWords_readByte rest (off + 2) _ b (.inl hb)
      have hnext : s.stackAddr (off + 2) = s.stackAddr off + 2 := rfl
      calc (pushWords (q :: rest) off s).readWord (s.stackAddr off)
          = (s.writeWord (s.stackAddr off) (s.x q)).readWord (s.stackAddr off) := by
            rw [readWord_eq, readWord_eq, hkept _ (by omega), hkept _ (by omega)]
        _ = s.x q := readWord_writeWord_same s _ _
    | succ j =>
      have hoff : off + 2 * (j + 1) = off + 2 + 2 * j := by omega
      rw [hoff]
      exact ih (by simpa using h) (off + 2) (s.writeWord (s.stackAddr off) (s.x q))

/-- A pop leaves a register it does not name. -/
theorem popWords_x_of_not_mem {rs : List Reg} {r : Reg} (h : r ∉ rs) (off : Nat) (s : State) :
    (popWords rs off s).x r = s.x r := by
  induction rs generalizing off s with
  | nil => rfl
  | cons q rest ih =>
    obtain ⟨hne, hrest⟩ : r ≠ q ∧ r ∉ rest := by simpa using h
    rw [popWords, ih hrest, x_eq, State.setX_regs, regs_get_set, if_neg (Ne.symm hne), x_eq]

/-- A pop reads its registers from one word after the other from the offset on. -/
theorem popWords_x_of_getElem {rs : List Reg} {i : Nat} {r : Reg} (hnodup : rs.Nodup) (h : rs[i]? = some r) (off : Nat)
    (s : State) : (popWords rs off s).x r = s.readWord (s.stackAddr (off + 2 * i)) := by
  induction rs generalizing off s i with
  | nil => cases h
  | cons q rest ih =>
    obtain ⟨hq, hrest⟩ := List.nodup_cons.mp hnodup
    cases i with
    | zero =>
      obtain rfl : q = r := by simpa using h
      rw [popWords, popWords_x_of_not_mem hq, x_eq, State.setX_regs, regs_get_set, if_pos rfl]
      rfl
    | succ j =>
      have hoff : off + 2 * (j + 1) = off + 2 + 2 * j := by omega
      rw [hoff]
      exact ih hrest (by simpa using h) (off + 2) (s.setX q (s.readWord (s.stackAddr off)))

/-- R53 constrains the segment table and the size of the store alone. -/
theorem segsOk_of_eq {s t : State} (hsegs : t.segs = s.segs) (hcfg : t.cfg = s.cfg) (hs : s.segsOk = true) :
    t.segsOk = true := by
  rw [State.segsOk, hsegs, hcfg]
  exact hs

/-! ### The two handlers -/

/-- Settles O30: the pushed words follow the order of `maskRegs`, and `pushWords` changes memory only. -/
theorem pushHandlerRule : Obligations.PushHandlerRule := by
  unfold Obligations.PushHandlerRule
  intro m s hs n at0
  have hbytes : maskBytes m = 2 * n := maskBytes_eq m
  rw [← hbytes]
  refine ⟨handlePush_overflow m s, fun hb => ?_⟩
  refine ⟨_, handlePush_ok m s hb (stack_inStore s _ _ hs hb), ?state, ?words, ?frame⟩
  case state =>
    rw [pushWords_eq]
    rfl
  case words =>
    intro r hr
    have hplace : at0 + 2 * slotOf m r = s.stackAddr (s.sp.toNat + 2 * slotOf m r) := Nat.add_assoc _ _ _
    rw [hplace]
    exact pushWords_readWord (maskRegs_slotOf hr) s.sp.toNat s
  case frame => exact fun a ha => pushWords_readByte (maskRegs m) s.sp.toNat s a ha

/-- Settles O31: `popWords` changes registers only, those of the mask to the words at their slots. -/
theorem popHandlerRule : Obligations.PopHandlerRule := by
  unfold Obligations.PopHandlerRule
  intro m s hs hsp n off
  have hbytes : maskBytes m = 2 * n := maskBytes_eq m
  have hoff : off = s.sp.toNat - maskBytes m := by rw [hbytes]
  rw [← hbytes, hoff]
  refine ⟨handlePop_underflow m s, fun hb => ?_⟩
  refine ⟨_, handlePop_ok m s hb (stack_inStore s _ _ hs (by omega)), ?state, fun r => ?registers⟩
  case state =>
    rw [popWords_eq]
    rfl
  case registers =>
    cases hr : inMask m r with
    | false => exact popWords_x_of_not_mem (not_mem_maskRegs hr) _ _
    | true =>
      rw [if_pos rfl, Nat.add_assoc]
      exact popWords_x_of_getElem (maskRegs_nodup m) (maskRegs_slotOf hr) _ _

/-- Settles O32: short of byte 65536 the pop starts from the push's `SP`, so its slots are those of the push. -/
theorem popUndoesPush : Obligations.PopUndoesPush := by
  unfold Obligations.PopUndoesPush
  intro m s t regs sr hs hroom hwrap hpush
  obtain ⟨t', hpush', hstate, hwords, -⟩ := (pushHandlerRule m s hs).2 hroom
  obtain rfl : t' = t := congrArg Prod.fst (hpush'.symm.trans hpush)
  have hsegs : t'.segs = s.segs := by rw [hstate]
  have hcfg : t'.cfg = s.cfg := by rw [hstate]
  have hsp : t'.sp.toNat = s.sp.toNat + 2 * popcount m := by
    rw [hstate]
    exact Nat.mod_eq_of_lt hwrap
  have hoff : t'.sp.toNat - 2 * popcount m = s.sp.toNat := by omega
  have hinside : t'.sp.toNat ≤ t'.segs.ss.len := by
    rw [hsp, hsegs]
    exact hroom
  obtain ⟨u, hpop, hu, hregs⟩ :=
    (popHandlerRule m { t' with regs := regs, sr := sr } (segsOk_of_eq hsegs hcfg hs) hinside).2
      (hsp ▸ Nat.le_add_left _ _)
  simp only [hoff, hsegs] at hu hregs
  refine ⟨u, hpop, ?sp, fun r => ?registers, fun a => ?memory⟩
  case sp =>
    rw [hu]
    exact (BitVec.ofNat_toNat 16 s.sp).trans (BitVec.setWidth_eq s.sp)
  case registers =>
    rw [hregs]
    split
    · rename_i hr
      exact hwords r hr
    · rfl
  case memory =>
    rw [hu]
    rfl

end Sys2Proof.Machine
end

/-! ## The number of ports, and the room in the ongoing queue (R8, R214, R230) -/

section

namespace Sys2Proof.Machine

variable {s : State}

/-! ### No resolution adds or removes a port (R230) -/

@[simp] theorem updatePort_ports_length (s : State) (a : Word) (f : Port → Port) :
    (s.updatePort a f).ports.length = s.ports.length := by
  simp

theorem deviceMove_ports_length (s : State) (a : Word) (m : DeviceMove) :
    (s.deviceMove a m).ports.length = s.ports.length := by
  rcases deviceMove_cases s a m with h | h | ⟨-, -, -, -, h⟩ <;> rw [h]
  · rfl
  · exact updatePort_ports_length s a m.effect

theorem applyPlatformMoves_ports_length (ms : List PlatformMove) (s : State) :
    (applyPlatformMoves ms s).ports.length = s.ports.length := by
  induction ms generalizing s with
  | nil => rfl
  | cons m rest ih =>
    refine (ih (applyPlatformMove m s)).trans ?_
    cases m with
    | device a d => exact deviceMove_ports_length s a d
    | storeByte a v =>
      change (s.storePlatformByte a v).ports.length = _
      rcases storePlatformByte_cases s a v with h | ⟨-, -, h⟩ <;> rw [h]
      rfl

theorem moveChunk_ports_length (t : Transfer) (s : State) : (moveChunk t s).1.ports.length = s.ports.length := by
  rcases moveChunk_cases t s with h | ⟨p, m, -, -, -, ⟨-, h⟩ | ⟨-, -, h⟩⟩ <;> rw [h]
  all_goals
    rw [memAfter_eq]
    simp only [updatePort_ports_length]

theorem HandlerEffect.ports_length {P : State → Prop} {r : State × Resolution} (he : HandlerEffect s P r)
    (hP : ∀ u, P u → u.ports.length = s.ports.length) : r.1.ports.length = s.ports.length := by
  cases he with
  | fault | failed => rfl
  | done u z c hu => exact hP u hu

theorem handleTransfer_ports_length (t : Transfer) (s : State) :
    (handleTransfer t s).1.ports.length = s.ports.length := by
  unfold handleTransfer
  split
  · split
    · exact moveChunk_ports_length t s
    · rcases startIndirect_cases s t with ⟨k, h⟩ | ⟨p, m, regs, f, w, z, c, -, h⟩ <;> rw [h]
      · rfl
      · rw [moveChunk_ports_length, updatePort_ports_length]
        rfl
  · split
    · exact (directRead_effect s t.port).ports_length (by rintro u ⟨p, m, v, -, rfl⟩; exact updatePort_ports_length ..)
    · exact (directWrite_effect s t.port t.word).ports_length
        (by rintro u ⟨p, m, -, rfl⟩; exact updatePort_ports_length ..)

theorem handle_ports_length (a : Action) (s : State) : (handle a s).1.ports.length = s.ports.length := by
  cases a with
  | load addr r => exact (handleLoad_effect s addr r).ports_length (by rintro u ⟨regs, rfl⟩; rfl)
  | store addr w => exact (handleStore_effect s addr w).ports_length (by rintro u ⟨mem, rfl⟩; rfl)
  | push m => exact (handlePush_effect s m).ports_length (by rintro u ⟨-, mem, rfl⟩; rfl)
  | pop m => exact (handlePop_effect s m).ports_length (by rintro u ⟨-, regs, rfl⟩; rfl)
  | query port k => exact (handleQuery_effect s port k).ports_length (by rintro u rfl; rfl)
  | relinquish port =>
    exact (handleRelinquish_effect s port).ports_length
      (by rintro u ⟨p, -, -, rfl⟩; exact updatePort_ports_length ..)
  | signal c =>
    refine (handleSignal_effect s c).ports_length ?_
    rintro u rfl
    exact applyPlatformMoves_ports_length _ (s.recordSignal c)
  | transfer t => exact handleTransfer_ports_length t s

/-- The depths of both queues stay what they are while the pass runs: a resolution writes neither the parameters nor the
number of ports (R8). -/
theorem resolve_depths (a : Action) (s : State) :
    (resolve a s).1.cfg = s.cfg ∧ (resolve a s).1.ongoingCapacity = s.ongoingCapacity := by
  obtain ⟨hcfg, hlen⟩ := resolve_preserves (fun t => t.cfg = s.cfg ∧ t.ports.length = s.ports.length) (fun _ h => h)
    (fun b t h => ⟨(handle_keeps b t).1.trans h.1, (handle_ports_length b t).trans h.2⟩) a s ⟨rfl, rfl⟩
  unfold State.ongoingCapacity
  exact ⟨hcfg, by rw [hcfg, hlen]⟩

/-! ### The ongoing queue needs one place for each port (R214) -/

/-- Transfers in flight are on different ports that exist, so there are no more of them than ports. -/
theorem TransfersInv.length_le {q : List Action} (h : TransfersInv s q) : q.length ≤ s.ports.length := by
  obtain ⟨-, hflight, hnodup⟩ := h
  have hsub : q.map transferPort ⊆ s.ports.map (fun p => some p.addr) := by
    intro x hx
    obtain ⟨a, ha, rfl⟩ := List.mem_map.mp hx
    obtain ⟨t, rfl, -, -, -, -, p, hp, -⟩ := hflight a ha
    exact List.mem_map.mpr ⟨p, lookupPort_mem s _ p hp, congrArg some (lookupPort_addr s _ p hp)⟩
  simpa using (hnodup.subperm hsub).length_le

/-- Settles O48: a transfer that starts and answers *ongoing* is in flight besides those queued, among as many ports as
before. -/
theorem ongoingQueueFitsPorts : Obligations.OngoingQueueFitsPorts := by
  unfold Obligations.OngoingQueueFitsPorts
  intro s h
  obtain ⟨-, hinv⟩ := (deviceInv_iff s).mp h
  refine ⟨hinv.length_le, fun x a t hfresh hstart => ?_⟩
  have hafter := hinv.handle_fresh (a := .transfer x) hfresh
  have hports := handle_ports_length (.transfer x) s
  rw [hstart] at hafter hports
  calc s.ongoing.length < (a :: s.ongoing).length := Nat.lt_succ_self _
    _ ≤ t.ports.length := hafter.length_le
    _ = s.ports.length := hports

end Sys2Proof.Machine
end

/-! ## The resolution pass by index (R205, R207) -/

section

namespace Sys2Proof.Machine

/-- A resolution does the same whatever the queues hold (R205: the pass alone reads and writes them). -/
theorem resolve_withQueues (a : Action) (s : State) (n o : List Action) :
    resolve a (s.withQueues n o) = ((resolve a s).1.withQueues n o, (resolve a s).2) := by
  have hfails : (s.withQueues n o).nextActionFails = s.nextActionFails := rfl
  have hdrop : (s.withQueues n o).dropAnswer = s.dropAnswer.withQueues n o := rfl
  unfold resolve
  rw [hfails, hdrop, handle_withQueues]
  split <;> rfl

/-! ### Step (a) and (b): the block at the head of the ongoing queue -/

section PassNew

variable {a a' : Action} {s t : State} {k : Nat} (rest : List Action) (ins : Nat)

theorem passNew_noPlace (hk : s.cfg.newQDepth ≤ k) : passNew (a :: rest) k ins s = (s.setFault .spv 0, ins, true) := by
  rw [passNew, if_pos hk]

theorem passNew_complete (h : resolve a s = (t, .complete)) (hk : k < s.cfg.newQDepth) :
    passNew (a :: rest) k ins s = passNew rest (k + 1) ins t := by
  rw [passNew, if_neg (Nat.not_le.mpr hk), h]

theorem passNew_ongoing (h : resolve a s = (t, .ongoing a')) (hk : k < s.cfg.newQDepth)
    (hroom : t.ongoing.length < t.ongoingCapacity) :
    passNew (a :: rest) k ins s =
      passNew rest (k + 1) (ins + 1) { t with ongoing := t.ongoing.insertIdx ins a' } := by
  rw [passNew, if_neg (Nat.not_le.mpr hk), h]
  exact if_pos hroom

theorem passNew_noRoom (h : resolve a s = (t, .ongoing a')) (hk : k < s.cfg.newQDepth)
    (hfull : t.ongoingCapacity ≤ t.ongoing.length) :
    passNew (a :: rest) k ins s = (s.dropAnswer.setFault .spv 0, ins, true) := by
  rw [passNew, if_neg (Nat.not_le.mpr hk), h]
  exact if_neg (Nat.not_lt.mpr hfull)

theorem passNew_failed (h : resolve a s = (t, .failed)) (hk : k < s.cfg.newQDepth) :
    passNew (a :: rest) k ins s = (t.setFault .spv 0, ins, true) := by
  rw [passNew, if_neg (Nat.not_le.mpr hk), h]

end PassNew

/-- An entry inserted behind the first list of two. -/
theorem insertIdx_length_append (l r : List Action) (a : Action) :
    (l ++ r).insertIdx l.length a = l ++ [a] ++ r := by
  induction l with
  | nil => rfl
  | cons b l ih => exact congrArg (b :: ·) ih

/-- The pseudocode's run over the new queue, with `block` inserted so far in front of the carried-over `o`, ends with the
model's block inserted behind it. -/
theorem passNew_withQueues (q : List Action) (k : Nat) (block o n : List Action) (s : State) :
    let r := resolveNew q (s.cfg.newQDepth - k) (s.ongoingCapacity - (block ++ o).length) s
    passNew q k block.length (s.withQueues n (block ++ o)) =
      (r.1.withQueues n (block ++ r.2.1 ++ o), (block ++ r.2.1).length, r.2.2) := by
  induction q generalizing k block s with
  | nil => simp only [passNew, resolveNew_nil, List.append_nil]
  | cons a rest ih =>
    dsimp only at ih ⊢
    rcases Nat.lt_or_ge k s.cfg.newQDepth with hk | hk
    case inr =>
      rw [Nat.sub_eq_zero_of_le hk, resolveNew_noPlace, passNew_noPlace (s := s.withQueues n (block ++ o)) rest _ hk,
        List.append_nil]
      rfl
    obtain ⟨hcfg, hcap⟩ := resolve_depths a s
    have hpass := resolve_withQueues a s n (block ++ o)
    have hplaces : s.cfg.newQDepth - k = s.cfg.newQDepth - (k + 1) + 1 := by omega
    rw [hplaces]
    rcases hr : resolve a s with ⟨t, _ | a' | _⟩ <;> rw [hr] at hcfg hcap hpass <;> dsimp only at hcfg hcap hpass
    case complete =>
      rw [resolveNew_complete a rest _ _ s t hr, passNew_complete rest _ hpass hk, ih, hcfg, hcap]
    case failed =>
      rw [resolveNew_failed a rest _ _ s t hr, passNew_failed rest _ hpass hk, List.append_nil]
      rfl
    case ongoing =>
      have hsame : (t.withQueues n (block ++ o)).ongoingCapacity = s.ongoingCapacity := hcap
      rcases Nat.lt_or_ge (block ++ o).length s.ongoingCapacity with hroom | hfull
      case inr =>
        rw [Nat.sub_eq_zero_of_le hfull, resolveNew_noRoom a a' rest _ s t hr,
          passNew_noRoom rest _ hpass hk (hsame.trans_le hfull), List.append_nil]
        rfl
      have hleft : s.ongoingCapacity - (block ++ o).length = t.ongoingCapacity - (block ++ [a'] ++ o).length + 1 := by
        simp only [List.length_append, List.length_singleton] at *
        omega
      have hrest := ih (k + 1) (block ++ [a']) t
      rw [hcfg, List.length_append, List.length_singleton, List.append_assoc block [a'] (resolveNew _ _ _ t).2.1] at hrest
      rw [hleft, resolveNew_ongoing a a' rest _ _ s t hr, passNew_ongoing rest _ hpass hk (hroom.trans_eq hsame.symm),
        State.withQueues_ongoing, insertIdx_length_append]
      exact hrest

/-! ### Step (c) and (d): the carried-over actions -/

section PassOngoing

variable {a a' : Action} {s t : State} {i : Nat} (m : Nat)

theorem passOngoing_end (h : s.ongoing[i]? = none) : passOngoing m i s = s := by
  cases m with
  | zero => rfl
  | succ m => rw [passOngoing, h]

theorem passOngoing_complete (ha : s.ongoing[i]? = some a) (h : resolve a s = (t, .complete)) :
    passOngoing (m + 1) i s = passOngoing m i { t with ongoing := t.ongoing.eraseIdx i } := by
  simp only [passOngoing, ha, h]

theorem passOngoing_ongoing (ha : s.ongoing[i]? = some a) (h : resolve a s = (t, .ongoing a')) :
    passOngoing (m + 1) i s = passOngoing m (i + 1) { t with ongoing := t.ongoing.set i a' } := by
  simp only [passOngoing, ha, h]

theorem passOngoing_failed (ha : s.ongoing[i]? = some a) (h : resolve a s = (t, .failed)) :
    passOngoing (m + 1) i s = State.setFault { t with ongoing := t.ongoing.eraseIdx i } .spv 0 := by
  simp only [passOngoing, ha, h]

end PassOngoing

/-- The pseudocode's run from index `done.length` on, with `done` behind it and `q` still to come, leaves behind `done`
what the model's pass over `q` keeps. -/
theorem passOngoing_withQueues (q : List Action) (m : Nat) (done n : List Action) (s : State) (hm : q.length ≤ m) :
    passOngoing m done.length (s.withQueues n (done ++ q)) =
      (resolveOngoing q s).1.withQueues n (done ++ (resolveOngoing q s).2) := by
  induction q generalizing m done s with
  | nil => rw [passOngoing_end m (by simp), resolveOngoing_nil]
  | cons a rest ih =>
    obtain ⟨m, rfl⟩ : ∃ j, m = j + 1 := Nat.exists_eq_add_one.mpr (Nat.zero_lt_of_lt hm)
    have hrest : rest.length ≤ m := Nat.le_of_succ_le_succ hm
    have ha : (s.withQueues n (done ++ a :: rest)).ongoing[done.length]? = some a := by simp
    have herase : (done ++ a :: rest).eraseIdx done.length = done ++ rest := by
      simp [List.eraseIdx_append_of_length_le]
    have hpass := resolve_withQueues a s n (done ++ a :: rest)
    rcases hr : resolve a s with ⟨t, _ | a' | _⟩ <;> rw [hr] at hpass
    case complete =>
      rw [resolveOngoing_complete a rest s t hr, passOngoing_complete m ha hpass, State.withQueues_ongoing, herase]
      exact ih m done t hrest
    case failed =>
      rw [resolveOngoing_failed a rest s t hr, passOngoing_failed m ha hpass, State.withQueues_ongoing, herase]
      rfl
    case ongoing =>
      have hset : (done ++ a :: rest).set done.length a' = done ++ [a'] ++ rest := by simp
      have hnext := ih m (done ++ [a']) t hrest
      rw [List.length_append, List.length_singleton, List.append_assoc done [a'] (resolveOngoing rest t).2] at hnext
      rw [resolveOngoing_ongoing a a' rest s t hr, passOngoing_ongoing m ha hpass, State.withQueues_ongoing, hset]
      exact hnext

/-- Settles O46: the pseudocode's index always stands where the model's lists are cut, at the end of the inserted block
and then of the actions already looked at. -/
theorem resolutionPassFollowsPseudocode : Obligations.ResolutionPassFollowsPseudocode := by
  unfold Obligations.ResolutionPassFollowsPseudocode
  intro s
  have hnew : passNew s.newQ 0 0 s =
      ((newPass s).1.withQueues s.newQ ((newPass s).2.1 ++ s.ongoing), (newPass s).2.1.length, (newPass s).2.2) :=
    passNew_withQueues s.newQ 0 [] s.ongoing s.newQ s
  unfold passByIndex
  rw [hnew]
  dsimp only
  rcases hpass : newPass s with ⟨t, block, _ | _⟩
  case true => exact resolveCycle_stopped s t block hpass
  case false =>
    rw [resolveCycle_run s t block hpass]
    exact (passOngoing_withQueues s.ongoing _ block [] t (by simp)).symm

end Sys2Proof.Machine
end

/-! ## The fetch and cycle sequencers (R211, R212) -/

section

namespace Sys2Proof.Machine

variable {s : State}

theorem fetchExecute_odd (hodd : isOdd (s.x .pc) = true) : fetchExecute s = .next (s.setFault .algn 0) := by
  rw [fetchExecute, if_pos hodd]

theorem fetchExecute_outside (heven : isOdd (s.x .pc) = false) (hout : s.segs.cs.len < (s.x .pc).toNat + 2) :
    fetchExecute s = .next (s.setFault .seg 0) := by
  have hseg : inSegment s.segs.cs (s.x .pc).toNat 2 = false := decide_eq_false (Nat.not_le.mpr hout)
  rw [fetchExecute, heven, hseg]
  rfl

theorem cycle_of_fetch {t : State} (h : fetchExecute s.openFaultLatch = .next t) :
    cycle s = .next (resolveCycle t) := by
  rw [cycle, h]
  rfl

/-- Settles O5: the three branches of the fetch sequencer; opening the fault latch changes neither `PC` nor a
segment. -/
theorem fetchSequencerRule : Obligations.FetchSequencerRule := by
  unfold Obligations.FetchSequencerRule
  intro s hsegs pc start opened
  refine ⟨fun hodd => ?odd, fun heven hout => ?outside, fun heven hin => ?inside⟩
  case odd =>
    have h := isOdd_of_odd hodd
    exact ⟨fetchExecute_odd h, cycle_of_fetch (fetchExecute_odd (s := opened) h)⟩
  case outside =>
    have h := isOdd_of_even heven
    exact ⟨fetchExecute_outside h hout, cycle_of_fetch (fetchExecute_outside (s := opened) h hout)⟩
  case inside =>
    have hnext : s.x .pc + 2 = BitVec.ofNat 16 ((pc + 2) % 65536) :=
      BitVec.eq_of_toNat_eq (by simp [pc, BitVec.toNat_add])
    rw [fetchExecute_inside hsegs (isOdd_of_even heven) hin, readWord_eq_ofNat, hnext]
    rfl

/-- `FAULT[15:12]` as a number (R29). -/
theorem faultKind_toNat (s : State) : s.faultKind.toNat = s.fault.toNat / 4096 := by
  have hlt := s.fault.isLt
  rw [State.faultKind, BitVec.extractLsb'_toNat, Nat.shiftRight_eq_div_pow]
  omega

theorem halted_iff (s : State) : s.halted = true ↔ s.cfg.haltOnFault = true ∧ s.fault.toNat / 4096 ≠ 0 := by
  rw [State.halted, Bool.and_eq_true, bne_iff_ne, ← faultKind_toNat, Ne, Ne, ← BitVec.toNat_inj]
  rfl

theorem step_halted (hs : (applyGap s).segsOk = true) (hh : (applyGap s).halted = true) :
    step s = .next (applyGap s) := by
  simp [step, runSequencer, hs, hh]

/-- Settles O7: the two premises are the halted and the running block. -/
theorem sequencerStartsCycles : Obligations.SequencerStartsCycles := by
  unfold Obligations.SequencerStartsCycles
  intro s hs
  refine ⟨fun hhalt hfault => step_halted hs ((halted_iff _).mpr ⟨hhalt, hfault⟩), fun hrun => ?_⟩
  refine step_cycle s hs (Bool.eq_false_iff.mpr fun hh => ?_)
  obtain ⟨hhalt, hfault⟩ := (halted_iff _).mp hh
  rcases hrun with hnever | hclear
  · exact Bool.false_ne_true (hnever.symm.trans hhalt)
  · exact hfault hclear

end Sys2Proof.Machine
end

/-! ## Attempted and not attempted execute phases (R14, R208) -/

section

namespace Sys2Proof.Machine

variable {s : State}

/-! ### Execute phases that have a next state -/

theorem guardReserved_hasNext {body : Result} (bad : Bool) (h : ∃ t, body = .next t) :
    ∃ t, guardReserved bad s body = .next t := by
  cases bad with
  | false => exact h
  | true => exact ⟨_, rfl⟩

theorem require_hasNext {k : Channel} {body : Result} (hk : s.channelPresent k = true) (h : ∃ t, body = .next t) :
    ∃ t, require k s body = .next t := by
  rwa [require_present k s body hk]

theorem request_hasNext {k : Channel} (hk : s.channelPresent k = true) (bad : Bool) (a : Action) :
    ∃ t, request k bad a s = .next t :=
  require_hasNext hk (guardReserved_hasNext bad ⟨_, rfl⟩)

theorem divBy_hasNext (dest : Reg) (d : Word) : ∃ t, divBy dest d s = .next t := by
  unfold divBy
  split
  · exact ⟨_, rfl⟩
  · exact ⟨_, rfl⟩

theorem execDpq_hasNext (hk : s.channelPresent .dpq = true) (v : BitVec 9) (q : BitVec 3) :
    ∃ t, execDpq v q s = .next t := by
  refine require_hasNext hk (guardReserved_hasNext _ ?_)
  cases queryKind q with
  | none => exact ⟨_, rfl⟩
  | some k => exact ⟨_, rfl⟩

/-! ### By instruction -/

theorem exec_absent {i : Instr} {k : Channel} (hi : channelOf i = some k) (hk : s.channelPresent k = false) :
    exec i s = .refused (.notAttempted k) := by
  cases i with
  | ld | st | dpq | dpoRelq | dpoRd | dpoWr | dpoRdI | dpoWrI | pop | push | sig =>
    cases hi
    exact require_absent _ s _ hk
  | _ => cases hi

theorem exec_attempted {i : Instr} (hi : attempted i s) : ∃ t, exec i s = .next t := by
  cases i with
  | ld | st | dpoRelq | dpoRd | dpoWr | dpoRdI | dpoWrI | pop | push | sig => exact request_hasNext (hi _ rfl) _ _
  | dpq v q => exact execDpq_hasNext (hi _ rfl) v q
  | divR | divL => exact guardReserved_hasNext _ (divBy_hasNext _ _)
  | addL | subL | ini0D | ini0E | hcf => exact ⟨_, rfl⟩
  | addR | subR | mulR | mulL | asgnR | asgnL | shftR | shftL | cbxLr | cbxRel | not =>
    exact guardReserved_hasNext _ ⟨_, rfl⟩
  | andR | andM | orR | orM | xorR | xorM => exact guardReserved_hasNext _ ⟨_, rfl⟩

/-- Settles O16: the channel check comes first, and whatever follows it has a next state. -/
theorem notAttemptedExactlyWithoutChannel : Obligations.NotAttemptedExactlyWithoutChannel := by
  unfold Obligations.NotAttemptedExactlyWithoutChannel
  exact fun i s => ⟨fun _ hi hk => exec_absent hi hk, exec_attempted⟩

end Sys2Proof.Machine
end

/-! ## `FAULT` and its latch: what a phase of a cycle can make of them (R271, R274 to R277) -/

section

namespace Sys2Proof.Machine

variable {s t u : State}

/-! ### The fault word (R271) -/

theorem faultWord_eq_ofNat (k : FaultKind) (arg : BitVec 12) :
    faultWord k arg = BitVec.ofNat 16 (k.code.toNat * 4096 + arg.toNat) := by
  have hword : (faultWord k arg).toNat = k.code.toNat * 4096 + arg.toNat := by
    rw [faultWord, BitVec.toNat_append, Nat.shiftLeft_eq, Nat.mul_comm, ← Nat.two_pow_add_eq_or_of_lt arg.isLt]
  rw [← hword, BitVec.ofNat_toNat, BitVec.setWidth_eq]

/-! ### `FAULT` and its latch as before, or as `SetFault` leaves them -/

/-- `FAULT` and its latch are the same in two states. -/
def SameFault (s t : State) : Prop :=
  t.fault = s.fault ∧ t.faultWritten = s.faultWritten

theorem SameFault.trans (h : SameFault s t) (h' : SameFault t u) : SameFault s u :=
  ⟨h'.1.trans h.1, h'.2.trans h.2⟩

theorem SameFault.setFault (h : SameFault s t) (k : FaultKind) (arg : BitVec 12) :
    SameFault (s.setFault k arg) (t.setFault k arg) := by
  obtain ⟨hfault, hlatch⟩ := h
  exact ⟨by rw [State.setFault_fault, State.setFault_fault, hfault, hlatch], rfl⟩

/-- What one execute phase or one handler does to `FAULT` (R276): it records a fault and changes nothing else, or it
leaves `FAULT` and its latch alone. -/
inductive FaultOutcome (s t : State) : Prop
  | recorded (k : FaultKind) (arg : BitVec 12) (h : t = s.setFault k arg)
  | kept (h : SameFault s t)

/-- A fault recorded where the latch was clear is the only change. -/
theorem FaultOutcome.only_fault (h : FaultOutcome s t) (hclear : s.faultWritten = false)
    (hset : t.faultWritten = true) : t = { s with fault := t.fault, faultWritten := true } := by
  cases h with
  | recorded k arg h =>
    subst h
    rfl
  | kept h =>
    have hlatch : true = false := hset.symm.trans (h.2.trans hclear)
    cases hlatch

/-- What the phases of one cycle together do to `FAULT` and its latch: nothing, or the effect of one `SetFault`. -/
def FaultStep (s t : State) : Prop :=
  SameFault s t ∨ ∃ k arg, SameFault (s.setFault k arg) t

theorem FaultOutcome.faultStep (h : FaultOutcome s t) : FaultStep s t := by
  cases h with
  | recorded k arg h => exact .inr ⟨k, arg, h ▸ ⟨rfl, rfl⟩⟩
  | kept h => exact .inl h

/-- After a first fault a second one has no effect (R274). -/
theorem FaultStep.trans (h : FaultStep s t) (h' : FaultStep t u) : FaultStep s u := by
  rcases h' with hsame | ⟨k', arg', hset⟩
  · rcases h with h | ⟨k, arg, h⟩
    · exact .inl (h.trans hsame)
    · exact .inr ⟨k, arg, h.trans hsame⟩
  · rcases h with h | ⟨k, arg, h⟩
    · exact .inr ⟨k', arg', (h.setFault k' arg').trans hset⟩
    · rw [setFault_closed t k' arg' h.2] at hset
      exact .inr ⟨k, arg, h.trans hset⟩

/-- Without a fault recorded, `FAULT` is as before (R274). -/
theorem FaultStep.fault_eq (h : FaultStep s t) (hclear : t.faultWritten = false) : t.fault = s.fault := by
  rcases h with h | ⟨k, arg, h⟩
  · exact h.1
  · have hlatch : false = true := hclear.symm.trans h.2
    cases hlatch

theorem FaultInv.of_fault (h : FaultInv s) (hfault : t.fault = s.fault) : FaultInv t := by
  unfold FaultInv State.faultKind at *
  rwa [hfault]

theorem faultInv_setFault (h : FaultInv s) (k : FaultKind) (arg : BitVec 12) : FaultInv (s.setFault k arg) := by
  unfold FaultInv at *
  rw [faultKind_setFault]
  split
  · exact h
  · exact code_le k

theorem FaultStep.faultInv (h : FaultStep s t) (hinv : FaultInv s) : FaultInv t := by
  rcases h with h | ⟨k, arg, h⟩
  · exact hinv.of_fault h.1
  · exact (faultInv_setFault hinv k arg).of_fault h.1

/-! ### The fetch and execute phase -/

theorem ExecuteEffect.faultOutcome {i : Instr} (h : ExecuteEffect i s t) : FaultOutcome s t := by
  cases h with
  | fault k arg => exact .recorded k arg rfl
  | delegate a _ _ => exact .kept ⟨rfl, rfl⟩
  | compute regs z c _ => exact .kept ⟨rfl, rfl⟩

theorem rejectWord_faultOutcome {e : DecodeError} (h : rejectWord e s = .next t) : FaultOutcome s t := by
  cases e with
  | noDpoOperation =>
    cases require_next h
    exact .recorded .res 0 rfl
  | truncated =>
    cases h
    exact .recorded .res 0 rfl

theorem execute_faultOutcome {w : Word} (h : execute w s = .next t) : FaultOutcome (s.setIr w) t := by
  unfold execute at h
  dsimp only at h
  split at h
  · cases h
    exact .recorded _ _ rfl
  · split at h
    · exact (exec_effect h).faultOutcome
    · exact rejectWord_faultOutcome h

theorem fetchExecute_faultStep (h : fetchExecute s = .next t) : FaultStep s t := by
  rcases fetchExecute_cases s with ⟨-, hf⟩ | ⟨-, -, hf⟩ | ⟨-, -, -, hf⟩ | ⟨-, -, -, hf⟩ <;> rw [hf] at h
  · cases h
    exact .inr ⟨.algn, 0, rfl, rfl⟩
  · cases h
    exact .inr ⟨.seg, 0, rfl, rfl⟩
  · cases h
  · have hfetched : FaultStep s ((s.setX .pc (s.x .pc + 2)).setIr (s.readWord (s.codeAddr (s.x .pc)))) :=
      .inl ⟨rfl, rfl⟩
    exact hfetched.trans (execute_faultOutcome h).faultStep

/-! ### The action handlers and the resolve phase -/

theorem HandlerEffect.faultOutcome {P : State → Prop} {r : State × Resolution} (he : HandlerEffect s P r)
    (hP : ∀ u, P u → SameFault s u) : FaultOutcome s r.1 := by
  cases he with
  | fault k arg => exact .recorded k arg rfl
  | failed => exact .kept ⟨rfl, rfl⟩
  | done u z c hu => exact .kept (hP u hu)

theorem moveChunk_sameFault (x : Transfer) (s : State) : SameFault s (moveChunk x s).1 := by
  rw [moveChunk_eq]
  exact ⟨rfl, rfl⟩

/-- The first resolution of an indirect transfer is the one place where a recorded fault, the clamp's `SEG`, comes with
other changes (R254, R276). -/
theorem startIndirect_faultOutcome (x : Transfer) (s : State) :
    FaultOutcome s (startIndirect x s).1 ∨ SameFault (s.setFault .seg 0) (startIndirect x s).1 := by
  unfold startIndirect
  split
  · exact .inl (.recorded .ido 0 rfl)
  · split
    · exact .inl (.recorded .algn 0 rfl)
    · dsimp only
      split
      · exact .inr (SameFault.trans ⟨rfl, rfl⟩ (moveChunk_sameFault _ _))
      · exact .inl (.kept (SameFault.trans ⟨rfl, rfl⟩ (moveChunk_sameFault _ _)))

/-- All that a handler can do to `FAULT` (R276). -/
theorem handle_faultOutcome (a : Action) (s : State) :
    FaultOutcome s (handle a s).1 ∨ (isIndirect a = true ∧ SameFault (s.setFault .seg 0) (handle a s).1) := by
  cases a with
  | load addr r =>
    exact .inl ((handleLoad_effect s addr r).faultOutcome (by rintro u ⟨regs, rfl⟩; exact ⟨rfl, rfl⟩))
  | store addr w =>
    exact .inl ((handleStore_effect s addr w).faultOutcome (by rintro u ⟨mem, rfl⟩; exact ⟨rfl, rfl⟩))
  | push m => exact .inl ((handlePush_effect s m).faultOutcome (by rintro u ⟨-, mem, rfl⟩; exact ⟨rfl, rfl⟩))
  | pop m => exact .inl ((handlePop_effect s m).faultOutcome (by rintro u ⟨-, regs, rfl⟩; exact ⟨rfl, rfl⟩))
  | query port k => exact .inl ((handleQuery_effect s port k).faultOutcome (by rintro u rfl; exact ⟨rfl, rfl⟩))
  | relinquish port =>
    exact .inl ((handleRelinquish_effect s port).faultOutcome (by rintro u ⟨p, -, -, rfl⟩; exact ⟨rfl, rfl⟩))
  | signal c =>
    refine .inl ((handleSignal_effect s c).faultOutcome ?_)
    rintro u rfl
    rw [signalPlatform_eq]
    exact ⟨rfl, rfl⟩
  | transfer x =>
    change FaultOutcome s (handleTransfer x s).1 ∨
      (x.indirect = true ∧ SameFault (s.setFault .seg 0) (handleTransfer x s).1)
    unfold handleTransfer
    split
    · rename_i hi
      split
      · exact .inl (.kept (moveChunk_sameFault x s))
      · exact (startIndirect_faultOutcome x s).imp_right fun h => ⟨hi, h⟩
    · left
      split
      · exact (directRead_effect s x.port).faultOutcome (by rintro u ⟨p, m, v, -, rfl⟩; exact ⟨rfl, rfl⟩)
      · exact (directWrite_effect s x.port x.word).faultOutcome (by rintro u ⟨p, m, -, rfl⟩; exact ⟨rfl, rfl⟩)

theorem handle_faultStep (a : Action) (s : State) : FaultStep s (handle a s).1 := by
  rcases handle_faultOutcome a s with h | ⟨-, h⟩
  · exact h.faultStep
  · exact .inr ⟨.seg, 0, h⟩

theorem resolveCycle_faultStep (s : State) : FaultStep s (resolveCycle s) :=
  resolveCycle_preserves (FaultStep s) (fun _ h => h.trans (.inl ⟨rfl, rfl⟩))
    (fun _ h => h.trans (.inr ⟨.spv, 0, rfl, rfl⟩)) (fun a t h => h.trans (handle_faultStep a t))
    (fun _ _ _ h => h.trans (.inl ⟨rfl, rfl⟩)) s (.inl ⟨rfl, rfl⟩)

/-! ### The cycle and the step -/

/-- A cycle takes `FAULT` as it stands, with the latch clear (R210, R274). -/
theorem fetchExecute_resolve_faultStep (h : fetchExecute s.openFaultLatch = .next u) :
    FaultStep s.openFaultLatch (resolveCycle u) :=
  (fetchExecute_faultStep h).trans (resolveCycle_faultStep u)

theorem applyMove_faultInv (m : EnvMove) (h : FaultInv s) : FaultInv (applyMove m s) := by
  have cleared {t : State} (ht : t.fault = 0) : FaultInv t := by
    unfold FaultInv State.faultKind
    rw [ht]
    exact Nat.zero_le 11
  cases m with
  | device port d =>
    change FaultInv (s.deviceMove port d)
    rw [deviceMove_eq]
    exact h
  | hostClearFault => exact cleared rfl
  | hostWritePc v => exact h
  | hostReset ports =>
    cases ports
    · exact cleared rfl
    · exact cleared rfl
  | hostLoad segs image => exact cleared rfl

/-- Settles O58: a gap leaves `FAULT` alone or clears it, and a cycle makes at most one `SetFault` of it, whose code is
at most 11. -/
theorem everyStepKeepsFaultInv : Obligations.EveryStepKeepsFaultInv := by
  unfold Obligations.EveryStepKeepsFaultInv
  intro s t hs hstep
  have hgap : FaultInv (applyGap s) :=
    applyGap_preserves FaultInv (fun m _ h => applyMove_faultInv m h) (fun _ h => h) s hs
  obtain ⟨-, ⟨-, rfl⟩ | ⟨-, u, hu, rfl⟩⟩ := step_next s t hstep
  · exact hgap
  · have hopened : FaultInv (applyGap s).openFaultLatch := hgap
    exact (fetchExecute_resolve_faultStep hu).faultInv hopened

/-- Settles O10: the rule is `setFault_open` and `setFault_closed`, and a cycle opens the latch before anything else. -/
theorem setFaultRule : Obligations.SetFaultRule := by
  unfold Obligations.SetFaultRule
  intro code
  have hcode (k : FaultKind) : code k = k.code.toNat := by cases k <;> rfl
  refine ⟨fun s k arg => ⟨fun hclear => ?_, setFault_closed s k arg⟩, fun _ => rfl, fun s t hcycle hclear => ?_⟩
  · rw [setFault_open s k arg hclear, hcode, faultWord_eq_ofNat]
  · obtain ⟨u, hu, rfl⟩ := thenResolve_next _ t hcycle
    exact (fetchExecute_resolve_faultStep hu).fault_eq hclear

/-- Settles O15: of all execute phases and handlers only the clamp records a fault along with other changes, and its
fault is `SEG`. -/
theorem faultMeansNothingElseChanged : Obligations.FaultMeansNothingElseChanged := by
  unfold Obligations.FaultMeansNothingElseChanged
  refine ⟨fun i s t hclear hexec hset => (exec_effect hexec).faultOutcome.only_fault hclear hset, ?_⟩
  intro a s hclear hset hnoClamp
  rcases handle_faultOutcome a s with h | ⟨hindirect, hfault, -⟩
  · exact h.only_fault hclear hset
  · have hseg : (handle a s).1.faultKind = FaultKind.seg.code := by
      rw [State.faultKind, hfault, setFault_open s .seg 0 hclear]
      exact faultWord_kind .seg 0
    rcases hnoClamp with hdirect | hnotSeg
    · rw [hindirect] at hdirect
      cases hdirect
    · exact absurd hseg hnotSeg

theorem halted_of_fault_zero (h : s.fault = 0) : s.halted = false := by
  simp [State.halted, State.faultKind, h]

/-- Settles O8: the clear is the gap's only move, and with `FAULT` zero the block is not halted. -/
theorem clearedBlockRunsOn : Obligations.ClearedBlockRunsOn := by
  unfold Obligations.ClearedBlockRunsOn
  intro s later hsegs _
  have hgap : applyGap { s with env := [.hostClearFault] :: later } =
      { s with fault := 0, faultWritten := false, env := later } := rfl
  rw [← hgap]
  exact step_cycle _ hsegs (halted_of_fault_zero rfl)

end Sys2Proof.Machine
end

/-! ## A throttled transfer (R255, R286, R330) -/

section

namespace Sys2Proof.Machine

variable {s : State} {x : Transfer} {p : Port} {m : Mailbox} {v : Nat}

/-! ### One chunk, where the store answers -/

/-- A chunk with all the bytes still to move is the last one (R256). -/
theorem moveChunk_last (hp : s.lookupPort x.port = some p) (hm : p.mailbox = some m)
    (hstore : s.inStore (s.dataAddr x.addr) (chunkSize p m x) = true) (hall : chunkSize p m x = x.remaining) :
    (moveChunk x s).2 = .complete := by
  rw [hall] at hstore
  simp [moveChunk, hp, hm, hall, hstore, Transfer.advance]

/-- A chunk that leaves bytes to move, in a mailbox that still offers some, keeps the transfer queued (R255). -/
theorem moveChunk_more (hp : s.lookupPort x.port = some p) (hm : p.mailbox = some m)
    (hstore : s.inStore (s.dataAddr x.addr) (chunkSize p m x) = true) (hrem : chunkSize p m x < x.remaining)
    (hav : 0 < available x.dir { m with bytes := bytesAfter s m x (chunkSize p m x) }) :
    moveChunk x s =
      ((memAfter s m x (chunkSize p m x)).updatePort x.port
          (fun q => q.withBytes (bytesAfter s m x (chunkSize p m x))),
        .ongoing (.transfer (x.advance (chunkSize p m x)))) := by
  have hleft : ¬x.remaining ≤ chunkSize p m x := Nat.not_le.mpr hrem
  simp [moveChunk, hp, hm, hstore, Transfer.advance, Nat.sub_eq_zero_iff_le, hleft, hav.ne']

theorem chunkSize_throttled (hd : p.device = some ⟨v⟩) (hv : 0 < v) (hav : x.remaining ≤ available x.dir m) :
    chunkSize p m x = min v x.remaining := by
  have hspeed : deviceSpeed p = v := by rw [deviceSpeed, hd]
  rw [chunkSize, hspeed, if_neg hv.ne']
  omega

/-- A chunk takes from a mailbox's offer exactly the bytes it moves. -/
theorem available_bytesAfter (s : State) (m : Mailbox) (x : Transfer) (n : Nat) :
    available x.dir { m with bytes := bytesAfter s m x n } = available x.dir m - n := by
  cases hd : x.dir with
  | read => simp [bytesAfter, hd, available, Mailbox.used]
  | write => simp [bytesAfter, hd, available, Mailbox.free, Memory.length_readBytes, Nat.sub_sub]

/-! ### Chunk after chunk -/

/-- Speed `v` is the only limit on a transfer: its range lies inside the data segment, and its mailbox offers all the
bytes still to move. -/
structure Throttled (v : Nat) (x : Transfer) (s : State) : Prop where
  segsOk : s.segsOk = true
  inside : x.addr.toNat + x.remaining ≤ s.segs.ds.len
  port : ∃ p m, s.lookupPort x.port = some p ∧ p.mailbox = some m ∧ p.device = some ⟨v⟩ ∧
    x.remaining ≤ available x.dir m

/-- No more bytes than the speed: one more resolution. -/
theorem Throttled.last (h : Throttled v x s) (hv : 0 < v) (hle : x.remaining ≤ v) : (moveChunk x s).2 = .complete := by
  obtain ⟨hsegs, hin, p, m, hp, hm, hd, hav⟩ := h
  have hall : chunkSize p m x = x.remaining := by
    rw [chunkSize_throttled hd hv hav]
    exact Nat.min_eq_right hle
  have hstore := data_inStore s x.addr x.remaining hsegs hin
  exact moveChunk_last hp hm (by simp [State.inStore, hall, hstore]) hall

/-- More bytes than the speed: a resolution moves `v` of them, and the rest is throttled as before. -/
theorem Throttled.more (h : Throttled v x s) (hv : 0 < v) (hlt : v < x.remaining) :
    ∃ t, moveChunk x s = (t, .ongoing (.transfer (x.advance v))) ∧ Throttled v (x.advance v) t := by
  obtain ⟨hsegs, hin, p, m, hp, hm, hd, hav⟩ := h
  have hn : chunkSize p m x = v := by
    rw [chunkSize_throttled hd hv hav]
    exact Nat.min_eq_left hlt.le
  have hstore := data_inStore s x.addr v hsegs (by omega)
  have hoffer := available_bytesAfter s m x v
  have hmove := moveChunk_more hp hm (by simp [State.inStore, hn, hstore]) (by omega) (by rw [hn]; omega)
  rw [hn, memAfter_eq] at hmove
  refine ⟨_, hmove, segsOk_of_eq rfl rfl hsegs, advance_inside hin hlt.le, p.withBytes (bytesAfter s m x v),
    { m with bytes := bytesAfter s m x v }, ?_, ?_, hd, ?_⟩
  · exact (portsChangedAt_updatePort _ _ p (fun q => q.withBytes (bytesAfter s m x v)) (fun _ => rfl) hp).1
  · simp [hm]
  · change x.remaining - v ≤ available x.dir { m with bytes := bytesAfter s m x v }
    omega

theorem resolutionsToEnd_last (n : Nat) (h : (moveChunk x s).2 = .complete) :
    resolutionsToEnd (n + 1) x s = some 1 := by
  rw [resolutionsToEnd]
  split <;> simp_all

theorem resolutionsToEnd_more {t : State} {y : Transfer} (n : Nat) (h : moveChunk x s = (t, .ongoing (.transfer y))) :
    resolutionsToEnd (n + 1) x s = (resolutionsToEnd n y t).map (· + 1) := by
  rw [resolutionsToEnd, h]

/-- Each resolution but the last moves `v` bytes. -/
theorem Throttled.resolutionsToEnd_eq (hv : 0 < v) {bound : Nat} (h : Throttled v x s) (hpos : 0 < x.remaining)
    (hbound : x.remaining ≤ bound) : resolutionsToEnd bound x s = some ((x.remaining + v - 1) / v) := by
  induction bound generalizing x s with
  | zero => omega
  | succ n ih =>
    by_cases hle : x.remaining ≤ v
    · have hone : (x.remaining + v - 1) / v = 1 := Nat.div_eq_of_lt_le (by omega) (by omega)
      rw [resolutionsToEnd_last n (h.last hv hle), hone]
    · obtain ⟨t, hmove, hrest⟩ := h.more hv (by omega)
      have hrem : (x.advance v).remaining = x.remaining - v := rfl
      have hstep : (x.remaining + v - 1) / v = (x.remaining - v + v - 1) / v + 1 := by
        rw [← Nat.add_div_right _ hv]
        congr 1
        omega
      rw [resolutionsToEnd_more n hmove, ih hrest (by omega) (by omega), hrem, hstep]
      rfl

/-- Settles O41: the premises make the speed the only limit. -/
theorem throttledTransferTakesCeilCycles : Obligations.ThrottledTransferTakesCeilCycles := by
  unfold Obligations.ThrottledTransferTakesCeilCycles
  intro x p m v s _ _ hsegs hp hm hd hv hpos hin hoffer
  have hav : x.remaining ≤ available x.dir m := by
    cases hdir : x.dir <;> rw [hdir] at hoffer
    · exact hoffer
    · exact Nat.le_sub_of_add_le' hoffer
  exact Throttled.resolutionsToEnd_eq hv ⟨hsegs, hin, p, m, hp, hm, hd, hav⟩ hpos le_rfl

end Sys2Proof.Machine
end

/-! ## Decoding and encoding (R80 to R99) -/

section

namespace Sys2Proof

/-! ### Decoding by opcode (R83, R85, R86, R91 to R95) -/

section Opcodes

variable {w : Word}

theorem decodeWord_add (h : field w 12 4 = 0x0) :
    decodeWord w = .ok
      (if field w 10 2 = field w 8 2 then .addL (Reg.ofBits (field w 8 2)) (field w 0 8)
        else .addR (Reg.ofBits (field w 10 2)) (Reg.ofBits (field w 8 2)) (field w 0 8)) := by
  obtain ⟨h15, h14, h13, h12⟩ := opcode_bits w _ h
  simp [decodeWord, h15, h14, h13, h12, ofBits_eq_iff]

theorem decodeWord_sub (h : field w 12 4 = 0x1) :
    decodeWord w = .ok
      (if field w 10 2 = field w 8 2 then .subL (Reg.ofBits (field w 8 2)) (field w 0 8)
        else .subR (Reg.ofBits (field w 10 2)) (Reg.ofBits (field w 8 2)) (field w 0 8)) := by
  obtain ⟨h15, h14, h13, h12⟩ := opcode_bits w _ h
  simp [decodeWord, h15, h14, h13, h12, ofBits_eq_iff]

theorem decodeWord_mul (h : field w 12 4 = 0x2) :
    decodeWord w = .ok
      (if bit w 10 then .mulL (GenReg.ofBit (bit w 11)) (field w 8 2) (field w 0 8)
        else .mulR (GenReg.ofBit (bit w 11)) (field w 0 10)) := by
  obtain ⟨h15, h14, h13, h12⟩ := opcode_bits w _ h
  simp [decodeWord, h15, h14, h13, h12]

theorem decodeWord_div (h : field w 12 4 = 0x3) :
    decodeWord w = .ok
      (if bit w 10 then .divL (GenReg.ofBit (bit w 11)) (field w 8 2) (field w 0 8)
        else .divR (GenReg.ofBit (bit w 11)) (field w 0 10)) := by
  obtain ⟨h15, h14, h13, h12⟩ := opcode_bits w _ h
  simp [decodeWord, h15, h14, h13, h12]

theorem decodeWord_dpq (h : field w 12 4 = 0x9) : decodeWord w = .ok (.dpq (field w 3 9) (field w 0 3)) := by
  obtain ⟨h15, h14, h13, h12⟩ := opcode_bits w _ h
  simp [decodeWord, h15, h14, h13, h12]

theorem decodeWord_dpo (h : field w 12 4 = 0xA) : decodeWord w = decodeDpo w := by
  obtain ⟨h15, h14, h13, h12⟩ := opcode_bits w _ h
  simp [decodeWord, h15, h14, h13, h12]

theorem decodeWord_sig (h : field w 12 4 = 0xC) : decodeWord w = .ok (.sig (field w 0 12)) := by
  obtain ⟨h15, h14, h13, h12⟩ := opcode_bits w _ h
  simp [decodeWord, h15, h14, h13, h12]

theorem decodeWord_ini0D (h : field w 12 4 = 0xD) : decodeWord w = .ok (.ini0D (field w 0 12)) := by
  obtain ⟨h15, h14, h13, h12⟩ := opcode_bits w _ h
  simp [decodeWord, h15, h14, h13, h12]

theorem decodeWord_ini0E (h : field w 12 4 = 0xE) : decodeWord w = .ok (.ini0E (field w 0 12)) := by
  obtain ⟨h15, h14, h13, h12⟩ := opcode_bits w _ h
  simp [decodeWord, h15, h14, h13, h12]

theorem decodeWord_hcf (h : field w 12 4 = 0xF) : decodeWord w = .ok (.hcf (field w 0 12)) := by
  obtain ⟨h15, h14, h13, h12⟩ := opcode_bits w _ h
  simp [decodeWord, h15, h14, h13, h12]

/-- The type field of `DPO`, from its two bits (R92). -/
theorem field_dpo_type (w : Word) : field w 0 2 = BitVec.ofBool (bit w 1) ++ BitVec.ofBool (bit w 0) := by
  apply BitVec.eq_of_getLsbD_eq
  intro i hi
  rw [getLsbD_field, BitVec.getLsbD_append]
  obtain rfl | rfl : i = 0 ∨ i = 1 := by omega
  · simp
  · simp

/-- A `DPO` word of type 0 is a word of no row (R84). -/
theorem decodeDpo_type0 (h : field w 0 2 = 0) : decodeDpo w = .error .noDpoOperation := by
  rw [field_dpo_type] at h
  cases h1 : bit w 1 <;> cases h0 : bit w 0 <;> simp [h1, h0] at h
  simp [decodeDpo, h1, h0]

theorem decodeDpo_typed (h : field w 0 2 ≠ 0) :
    decodeDpo w = .ok
      (if field w 0 2 = 1 then .dpoRelq (bit w 11) (field w 2 9)
        else if field w 0 2 = 2 then (if bit w 11 then .dpoRdI (field w 2 9) else .dpoRd (field w 2 9))
        else (if bit w 11 then .dpoWrI (field w 2 9) else .dpoWr (field w 2 9))) := by
  rw [field_dpo_type] at h ⊢
  -- the values of the two type bits and of the indirect bit are the arms of `decodeDpo`
  cases h1 : bit w 1 <;> cases h0 : bit w 0 <;> simp [h1, h0] at h <;>
    cases h11 : bit w 11 <;> simp [decodeDpo, h1, h0, h11]

end Opcodes

/-! ### The fields of a written word, format by format (R85 to R95) -/

section Formats

variable (op : BitVec 4) (a b r : Reg) (d : GenReg)

@[simp] theorem fields_regs (v : BitVec 8) :
    field (putRegs op a b ||| put 0 v) 12 4 = op ∧ field (putRegs op a b ||| put 0 v) 10 2 = a.bits ∧
      field (putRegs op a b ||| put 0 v) 8 2 = b.bits ∧ field (putRegs op a b ||| put 0 v) 0 8 = v := by
  simp [putRegs, field_or, field_put_same, field_put_apart]

@[simp] theorem fields_mulDiv_register (v : BitVec 10) :
    field (putMulDiv op d false ||| put 0 v) 12 4 = op ∧
      GenReg.ofBit (bit (putMulDiv op d false ||| put 0 v) 11) = d ∧
      bit (putMulDiv op d false ||| put 0 v) 10 = false ∧ field (putMulDiv op d false ||| put 0 v) 0 10 = v := by
  refine ⟨?_, ?_, ?_, ?_⟩
  · simp [putMulDiv, putBit, field_or, field_put_same, field_put_apart]
  · cases d <;> simp [putMulDiv, putBit, GenReg.bit, GenReg.ofBit, bit_or, bit_put]
  · simp [putMulDiv, putBit, bit_or, bit_put]
  · simp [putMulDiv, putBit, field_or, field_put_same, field_put_apart]

@[simp] theorem fields_mulDiv_literal (v : BitVec 2) (l : BitVec 8) :
    field (putMulDiv op d true ||| put 8 v ||| put 0 l) 12 4 = op ∧
      GenReg.ofBit (bit (putMulDiv op d true ||| put 8 v ||| put 0 l) 11) = d ∧
      bit (putMulDiv op d true ||| put 8 v ||| put 0 l) 10 = true ∧
      field (putMulDiv op d true ||| put 8 v ||| put 0 l) 8 2 = v ∧
      field (putMulDiv op d true ||| put 8 v ||| put 0 l) 0 8 = l := by
  refine ⟨?_, ?_, ?_, ?_, ?_⟩
  · simp [putMulDiv, putBit, field_or, field_put_same, field_put_apart]
  · cases d <;> simp [putMulDiv, putBit, GenReg.bit, GenReg.ofBit, bit_or, bit_put]
  · simp [putMulDiv, putBit, bit_or, bit_put]
  · simp [putMulDiv, putBit, field_or, field_put_same, field_put_apart]
  · simp [putMulDiv, putBit, field_or, field_put_same, field_put_apart]

@[simp] theorem fields_shift_literal (v : BitVec 3) (m : BitVec 5) :
    field (putRegs op a b ||| put 5 v ||| put 0 m) 12 4 = op ∧
      field (putRegs op a b ||| put 5 v ||| put 0 m) 10 2 = a.bits ∧
      field (putRegs op a b ||| put 5 v ||| put 0 m) 8 2 = b.bits ∧
      field (putRegs op a b ||| put 5 v ||| put 0 m) 5 3 = v ∧
      field (putRegs op a b ||| put 5 v ||| put 0 m) 0 5 = m := by
  simp [putRegs, field_or, field_put_same, field_put_apart]

@[simp] theorem fields_bitw_register (o : BitVec 2) (v : BitVec 6) :
    field (putRegs op a b ||| put 6 o ||| put 0 v) 12 4 = op ∧
      field (putRegs op a b ||| put 6 o ||| put 0 v) 10 2 = a.bits ∧
      field (putRegs op a b ||| put 6 o ||| put 0 v) 8 2 = b.bits ∧
      field (putRegs op a b ||| put 6 o ||| put 0 v) 6 2 = o ∧
      field (putRegs op a b ||| put 6 o ||| put 0 v) 0 6 = v := by
  simp [putRegs, field_or, field_put_same, field_put_apart]

@[simp] theorem fields_bitw_mask (o : BitVec 2) (f v : Bool) (s : BitVec 4) :
    field (putRegs op a b ||| putMask o f v s) 12 4 = op ∧
      field (putRegs op a b ||| putMask o f v s) 10 2 = a.bits ∧
      field (putRegs op a b ||| putMask o f v s) 8 2 = b.bits ∧
      field (putRegs op a b ||| putMask o f v s) 6 2 = o ∧ bit (putRegs op a b ||| putMask o f v s) 5 = f ∧
      bit (putRegs op a b ||| putMask o f v s) 4 = v ∧ field (putRegs op a b ||| putMask o f v s) 0 4 = s := by
  simp [putRegs, putMask, putBit, field_or, field_put_same, field_put_apart, bit_or, bit_put]

@[simp] theorem fields_branch_lr (z c : Bool) (v : BitVec 9) :
    field (put 12 op ||| putBit 10 z ||| putBit 9 c ||| put 0 v) 12 4 = op ∧
      bit (put 12 op ||| putBit 10 z ||| putBit 9 c ||| put 0 v) 11 = false ∧
      bit (put 12 op ||| putBit 10 z ||| putBit 9 c ||| put 0 v) 10 = z ∧
      bit (put 12 op ||| putBit 10 z ||| putBit 9 c ||| put 0 v) 9 = c ∧
      field (put 12 op ||| putBit 10 z ||| putBit 9 c ||| put 0 v) 0 9 = v := by
  simp [putBit, field_or, field_put_same, field_put_apart, bit_or, bit_put]

@[simp] theorem fields_branch_relative (z c v : Bool) (f : BitVec 8) :
    field (put 12 op ||| putBit 11 true ||| putBit 10 z ||| putBit 9 c ||| putBit 8 v ||| put 0 f) 12 4 = op ∧
      bit (put 12 op ||| putBit 11 true ||| putBit 10 z ||| putBit 9 c ||| putBit 8 v ||| put 0 f) 11 = true ∧
      bit (put 12 op ||| putBit 11 true ||| putBit 10 z ||| putBit 9 c ||| putBit 8 v ||| put 0 f) 10 = z ∧
      bit (put 12 op ||| putBit 11 true ||| putBit 10 z ||| putBit 9 c ||| putBit 8 v ||| put 0 f) 9 = c ∧
      bit (put 12 op ||| putBit 11 true ||| putBit 10 z ||| putBit 9 c ||| putBit 8 v ||| put 0 f) 8 = v ∧
      field (put 12 op ||| putBit 11 true ||| putBit 10 z ||| putBit 9 c ||| putBit 8 v ||| put 0 f) 0 8 = f := by
  simp [putBit, field_or, field_put_same, field_put_apart, bit_or, bit_put]

@[simp] theorem fields_load (v : BitVec 9) :
    field (put 12 op ||| put 9 r.bits ||| put 0 v) 12 4 = op ∧
      bit (put 12 op ||| put 9 r.bits ||| put 0 v) 11 = false ∧
      field (put 12 op ||| put 9 r.bits ||| put 0 v) 9 2 = r.bits ∧
      field (put 12 op ||| put 9 r.bits ||| put 0 v) 0 9 = v := by
  simp [field_or, field_put_same, field_put_apart, bit_or, bit_put]

@[simp] theorem fields_store (v : BitVec 9) :
    field (put 12 op ||| putBit 11 true ||| put 9 r.bits ||| put 0 v) 12 4 = op ∧
      bit (put 12 op ||| putBit 11 true ||| put 9 r.bits ||| put 0 v) 11 = true ∧
      field (put 12 op ||| putBit 11 true ||| put 9 r.bits ||| put 0 v) 9 2 = r.bits ∧
      field (put 12 op ||| putBit 11 true ||| put 9 r.bits ||| put 0 v) 0 9 = v := by
  simp [putBit, field_or, field_put_same, field_put_apart, bit_or, bit_put]

@[simp] theorem fields_query (v : BitVec 9) (q : BitVec 3) :
    field (put 12 op ||| put 3 v ||| put 0 q) 12 4 = op ∧ field (put 12 op ||| put 3 v ||| put 0 q) 3 9 = v ∧
      field (put 12 op ||| put 3 v ||| put 0 q) 0 3 = q := by
  simp [field_or, field_put_same, field_put_apart]

@[simp] theorem fields_deviceOp (j : Bool) (v : BitVec 9) (t : BitVec 2) :
    field (putDpo j v t) 12 4 = 0xA ∧ bit (putDpo j v t) 11 = j ∧ field (putDpo j v t) 2 9 = v ∧
      field (putDpo j v t) 0 2 = t := by
  simp [putDpo, putBit, field_or, field_put_same, field_put_apart, bit_or, bit_put]

@[simp] theorem fields_pop (v : BitVec 7) (m : BitVec 4) :
    field (put 12 op ||| put 4 v ||| put 0 m) 12 4 = op ∧ bit (put 12 op ||| put 4 v ||| put 0 m) 11 = false ∧
      field (put 12 op ||| put 4 v ||| put 0 m) 4 7 = v ∧ field (put 12 op ||| put 4 v ||| put 0 m) 0 4 = m := by
  simp [field_or, field_put_same, field_put_apart, bit_or, bit_put]

@[simp] theorem fields_push (v : BitVec 7) (m : BitVec 4) :
    field (put 12 op ||| putBit 11 true ||| put 4 v ||| put 0 m) 12 4 = op ∧
      bit (put 12 op ||| putBit 11 true ||| put 4 v ||| put 0 m) 11 = true ∧
      field (put 12 op ||| putBit 11 true ||| put 4 v ||| put 0 m) 4 7 = v ∧
      field (put 12 op ||| putBit 11 true ||| put 4 v ||| put 0 m) 0 4 = m := by
  simp [putBit, field_or, field_put_same, field_put_apart, bit_or, bit_put]

@[simp] theorem fields_operand (x : BitVec 12) :
    field (put 12 op ||| put 0 x) 12 4 = op ∧ field (put 12 op ||| put 0 x) 0 12 = x := by
  simp [field_or, field_put_same, field_put_apart]

end Formats

/-! ### Decoding a written word -/

/-- The word written for a term of its row decodes to the term: its fields are the term's operands, and the opcode, the
form bits and, where two register fields choose the form, their being equal or not select the term's constructor. -/
theorem decodeWord_encode (i : Instr) (h : i.inRow = true) : decodeWord (encode i) = .ok i := by
  cases i with
  | addR a b v | subR a b v | asgnR a b v | shftR a b v =>
    have hne : a ≠ b := bne_iff_ne.mp h
    simp [encode, decodeWord_add, decodeWord_sub, decodeWord_asgn, decodeWord_shft, bits_inj, hne]
  | addL b l | subL b l | asgnL b l | shftL b v m =>
    simp [encode, decodeWord_add, decodeWord_sub, decodeWord_asgn, decodeWord_shft]
  | mulR d v | mulL d v l | divR d v | divL d v l => simp [encode, decodeWord_mul, decodeWord_div]
  | andR a b v | orR a b v | xorR a b v =>
    have hne : a ≠ b := bne_iff_ne.mp h
    simp [encode, decodeWord_bitw, decodeBitw_eq _ a b, hne]
  | not a b v => simp [encode, decodeWord_bitw, decodeBitw_eq _ a b]
  | andM b f v k | orM b f v k | xorM b f v k => simp [encode, decodeWord_bitw, decodeBitw_eq _ b b]
  | cbxLr z c v | cbxRel z c v f => simp [encode, decodeWord_cbx]
  | ld r v | st r v => simp [encode, decodeWord_ldst]
  | dpq v q => simp [encode, decodeWord_dpq]
  | dpoRelq j v | dpoRd v | dpoWr v | dpoRdI v | dpoWrI v => simp [encode, decodeWord_dpo, decodeDpo_typed]
  | pop v m | push v m => simp [encode, decodeWord_stk]
  | sig v | ini0D u | ini0E u | hcf x =>
    simp [encode, decodeWord_sig, decodeWord_ini0D, decodeWord_ini0E, decodeWord_hcf]

/-- The two bytes of a word, low byte first, make up the word (R54). -/
theorem highByte_append_lowByte (w : Word) : w.extractLsb' 8 8 ++ w.extractLsb' 0 8 = w := by
  apply BitVec.eq_of_getLsbD_eq
  intro i hi
  rw [BitVec.getLsbD_append]
  split
  · rename_i hlow
    simp [hlow]
  · rename_i hhigh
    have h8 : i - 8 < 8 := by omega
    have hi' : 8 + (i - 8) = i := by omega
    simp [h8, hi']

/-- The head of a byte list is read as the word its first two bytes make up (R54, R80). -/
theorem decode_wordBytes {w : Word} {i : Instr} (h : decodeWord w = .ok i) (rest : List Byte) :
    decode (wordBytes w ++ rest) = .ok (i, rest) := by
  have hbytes : wordBytes w ++ rest = w.extractLsb' 0 8 :: w.extractLsb' 8 8 :: rest := rfl
  simp only [hbytes, decode, highByte_append_lowByte, h]

/-- Settles O1: the fields of the written word are the term's operands, format by format. -/
theorem decodeInvertsEncode : Obligations.DecodeInvertsEncode := by
  unfold Obligations.DecodeInvertsEncode
  intro i rest h
  have hword := decodeWord_encode i h
  exact ⟨hword, decode_wordBytes hword rest⟩

end Sys2Proof
end

/-! ## Encoding a decoded word (R84, R99) -/

section

namespace Sys2Proof

/-! ### A word from its parts -/

/-- Bits `hi - 1` down to `lo` of a word in their places, every other bit 0. -/
def slice (w : Word) (lo hi : Nat) : Word :=
  put lo (field w lo (hi - lo))

theorem bit_slice (w : Word) (lo hi i : Nat) :
    bit (slice w lo hi) i = (decide (lo ≤ i ∧ i < hi) && decide (i < 16) && bit w i) := by
  rw [slice, bit_put, getLsbD_field]
  by_cases hlo : lo ≤ i
  · have hpos : lo + (i - lo) = i := by omega
    have hwidth : i - lo < hi - lo ↔ i < hi := by omega
    simp [hlo, hpos, hwidth, Bool.and_left_comm, Bool.and_assoc]
  · simp [hlo]

/-- Two parts that meet are one part. -/
theorem slice_or (w : Word) {lo mid hi : Nat} (hlo : lo ≤ mid) (hhi : mid ≤ hi) :
    slice w mid hi ||| slice w lo mid = slice w lo hi := by
  refine word_ext _ _ fun i hi16 => ?_
  rw [bit_or, bit_slice, bit_slice, bit_slice, ← Bool.and_or_distrib_right, ← Bool.and_or_distrib_right]
  have hmeet : (lo ≤ i ∧ i < hi) ↔ (mid ≤ i ∧ i < hi) ∨ (lo ≤ i ∧ i < mid) := by omega
  rw [← Bool.decide_or, decide_eq_decide.mpr hmeet]

@[simp] theorem slice_all (w : Word) : slice w 0 16 = w := by
  refine word_ext _ _ fun i hi => ?_
  simp [bit_slice, hi]

@[simp] theorem put_field (w : Word) (lo n : Nat) : put lo (field w lo n) = slice w lo (lo + n) := by
  rw [slice, Nat.add_sub_cancel_left]

section Parts

variable {w : Word} {op : BitVec 4}

theorem putBit_eq_slice {x : Bool} (lo : Nat) (hx : bit w lo = x) : putBit lo x = slice w lo (lo + 1) := by
  have hfield : BitVec.ofBool x = field w lo 1 := by
    apply BitVec.eq_of_getLsbD_eq
    intro i hi
    obtain rfl : i = 0 := by omega
    have hbit : (field w lo 1).getLsbD 0 = bit w lo := (bit_eq_field w lo 1 0 (by omega)).symm
    simp only [hbit, hx, BitVec.getLsbD_ofBool, decide_true, Bool.true_and]
  rw [putBit, hfield, put_field]

theorem put_op_eq_slice (hop : field w 12 4 = op) : put 12 op = slice w 12 16 := by
  rw [← hop, put_field]

theorem put_regBits_eq_slice {r : Reg} (lo : Nat) (hr : Reg.ofBits (field w lo 2) = r) :
    put lo r.bits = slice w lo (lo + 2) := by
  rw [← hr, bits_ofBits, put_field]

theorem putRegs_eq_slice {a b : Reg} (hop : field w 12 4 = op) (ha : Reg.ofBits (field w 10 2) = a)
    (hb : Reg.ofBits (field w 8 2) = b) : putRegs op a b = slice w 8 16 := by
  rw [putRegs, put_op_eq_slice hop, put_regBits_eq_slice 10 ha, put_regBits_eq_slice 8 hb,
    slice_or w (by omega) (by omega), slice_or w (by omega) (by omega)]

theorem put_genRegBit (x : Bool) : put 11 (GenReg.ofBit x).bit = putBit 11 x := by
  cases x <;> rfl

theorem putMulDiv_eq_slice {s : Bool} (hop : field w 12 4 = op) (hs : bit w 10 = s) :
    putMulDiv op (GenReg.ofBit (bit w 11)) s = slice w 10 16 := by
  rw [putMulDiv, put_op_eq_slice hop, put_genRegBit, putBit_eq_slice 11 rfl, putBit_eq_slice 10 hs,
    slice_or w (by omega) (by omega), slice_or w (by omega) (by omega)]

/-! ### Each format's fields make up the word -/

theorem word_regs {a b : Reg} (hop : field w 12 4 = op) (ha : Reg.ofBits (field w 10 2) = a)
    (hb : Reg.ofBits (field w 8 2) = b) : putRegs op a b ||| put 0 (field w 0 8) = w := by
  simp [putRegs_eq_slice hop ha hb, slice_or]

theorem word_shift_literal {a b : Reg} (hop : field w 12 4 = op) (ha : Reg.ofBits (field w 10 2) = a)
    (hb : Reg.ofBits (field w 8 2) = b) : putRegs op a b ||| put 5 (field w 5 3) ||| put 0 (field w 0 5) = w := by
  simp [putRegs_eq_slice hop ha hb, slice_or]

theorem word_mulDiv_register (hop : field w 12 4 = op) (hs : bit w 10 = false) :
    putMulDiv op (GenReg.ofBit (bit w 11)) false ||| put 0 (field w 0 10) = w := by
  simp [putMulDiv_eq_slice hop hs, slice_or]

theorem word_mulDiv_literal (hop : field w 12 4 = op) (hs : bit w 10 = true) :
    putMulDiv op (GenReg.ofBit (bit w 11)) true ||| put 8 (field w 8 2) ||| put 0 (field w 0 8) = w := by
  simp [putMulDiv_eq_slice hop hs, slice_or]

theorem word_bitw_register {a b : Reg} {o : BitVec 2} (hop : field w 12 4 = op) (ha : Reg.ofBits (field w 10 2) = a)
    (hb : Reg.ofBits (field w 8 2) = b) (ho : field w 6 2 = o) :
    putRegs op a b ||| put 6 o ||| put 0 (field w 0 6) = w := by
  simp [putRegs_eq_slice hop ha hb, ← ho, slice_or]

theorem word_bitw_mask {a b : Reg} {o : BitVec 2} (hop : field w 12 4 = op) (ha : Reg.ofBits (field w 10 2) = a)
    (hb : Reg.ofBits (field w 8 2) = b) (ho : field w 6 2 = o) :
    putRegs op a b ||| putMask o (bit w 5) (bit w 4) (field w 0 4) = w := by
  have hmask : putMask o (bit w 5) (bit w 4) (field w 0 4) = slice w 0 8 := by
    simp [putMask, ← ho, putBit_eq_slice 5 rfl, putBit_eq_slice 4 rfl, slice_or]
  simp [putRegs_eq_slice hop ha hb, hmask, slice_or]

theorem put_op_eq_slice_of_clear (hop : field w 12 4 = op) (h11 : bit w 11 = false) : put 12 op = slice w 11 16 := by
  have hbit : slice w 11 12 = 0#16 := by
    rw [← putBit_eq_slice 11 h11]
    rfl
  rw [← slice_or w (show 11 ≤ 12 by omega) (by omega), hbit, BitVec.or_zero, put_op_eq_slice hop]

theorem word_branch_lr (hop : field w 12 4 = op) (h11 : bit w 11 = false) :
    put 12 op ||| putBit 10 (bit w 10) ||| putBit 9 (bit w 9) ||| put 0 (field w 0 9) = w := by
  simp [put_op_eq_slice_of_clear hop h11, putBit_eq_slice 10 rfl, putBit_eq_slice 9 rfl, slice_or]

theorem word_branch_relative (hop : field w 12 4 = op) (h11 : bit w 11 = true) :
    put 12 op ||| putBit 11 true ||| putBit 10 (bit w 10) ||| putBit 9 (bit w 9) ||| putBit 8 (bit w 8) |||
      put 0 (field w 0 8) = w := by
  simp [put_op_eq_slice hop, putBit_eq_slice 11 h11, putBit_eq_slice 10 rfl, putBit_eq_slice 9 rfl,
    putBit_eq_slice 8 rfl, slice_or]

theorem word_load (hop : field w 12 4 = op) (h11 : bit w 11 = false) :
    put 12 op ||| put 9 (Reg.ofBits (field w 9 2)).bits ||| put 0 (field w 0 9) = w := by
  simp [put_op_eq_slice_of_clear hop h11, slice_or]

theorem word_store (hop : field w 12 4 = op) (h11 : bit w 11 = true) :
    put 12 op ||| putBit 11 true ||| put 9 (Reg.ofBits (field w 9 2)).bits ||| put 0 (field w 0 9) = w := by
  simp [put_op_eq_slice hop, putBit_eq_slice 11 h11, slice_or]

theorem word_query (hop : field w 12 4 = op) : put 12 op ||| put 3 (field w 3 9) ||| put 0 (field w 0 3) = w := by
  simp [put_op_eq_slice hop, slice_or]

theorem word_deviceOp {j : Bool} {t : BitVec 2} (hop : field w 12 4 = 0xA) (hj : bit w 11 = j) (ht : field w 0 2 = t) :
    putDpo j (field w 2 9) t = w := by
  have hopcode : put 12 0xA#4 = slice w 12 16 := put_op_eq_slice hop
  simp [putDpo, hopcode, ← ht, putBit_eq_slice 11 hj, slice_or]

theorem word_pop (hop : field w 12 4 = op) (h11 : bit w 11 = false) :
    put 12 op ||| put 4 (field w 4 7) ||| put 0 (field w 0 4) = w := by
  simp [put_op_eq_slice_of_clear hop h11, slice_or]

theorem word_push (hop : field w 12 4 = op) (h11 : bit w 11 = true) :
    put 12 op ||| putBit 11 true ||| put 4 (field w 4 7) ||| put 0 (field w 0 4) = w := by
  simp [put_op_eq_slice hop, putBit_eq_slice 11 h11, slice_or]

theorem word_operand (hop : field w 12 4 = op) : put 12 op ||| put 0 (field w 0 12) = w := by
  simp [put_op_eq_slice hop, slice_or]

end Parts

/-! ### Encoding what was decoded -/

/-- The term is one of its row, and the word written for it is `w`. -/
def WrittenAs (i : Instr) (w : Word) : Prop :=
  i.inRow = true ∧ encode i = w

section Opcodes

variable {w : Word}

/-- A choice between two forms, each the word's own where it is chosen. -/
theorem writtenAs_ite {c : Prop} [Decidable c] {i j : Instr} (hi : c → WrittenAs i w) (hj : ¬c → WrittenAs j w) :
    WrittenAs (if c then i else j) w := by
  split
  · rename_i h
    exact hi h
  · rename_i h
    exact hj h

/-- A choice by one bit of the word. -/
theorem writtenAs_ite_bit {k : Nat} {i j : Instr} (hi : bit w k = true → WrittenAs i w)
    (hj : bit w k = false → WrittenAs j w) : WrittenAs (if bit w k then i else j) w :=
  writtenAs_ite hi fun h => hj (Bool.eq_false_iff.mpr h)

/-- A register form has two different registers where its two fields differ (R85). -/
theorem bne_ofBits {m n : BitVec 2} (h : m ≠ n) : (Reg.ofBits m != Reg.ofBits n) = true :=
  bne_iff_ne.mpr (mt (ofBits_eq_iff m n).mp h)

theorem two_bits_eq_two {t : BitVec 2} (h3 : t ≠ 3) (h0 : t ≠ 0) (h1 : t ≠ 1) : t = 2 := by
  revert t
  decide

theorem two_bits_eq_three {t : BitVec 2} (h0 : t ≠ 0) (h1 : t ≠ 1) (h2 : t ≠ 2) : t = 3 := by
  revert t
  decide

theorem writtenAs_decodeBitw (h : field w 12 4 = 0x6) : WrittenAs (decodeBitw w) w := by
  rw [decodeBitw_eq w _ _ rfl rfl]
  refine writtenAs_ite (fun ho => ⟨rfl, word_bitw_register h rfl rfl ho⟩) fun h3 =>
    writtenAs_ite (fun hab => ?mask) fun hab => ?register
  case mask =>
    exact writtenAs_ite (fun ho => ⟨rfl, word_bitw_mask h hab rfl ho⟩) fun h0 =>
      writtenAs_ite (fun ho => ⟨rfl, word_bitw_mask h hab rfl ho⟩) fun h1 =>
        ⟨rfl, word_bitw_mask h hab rfl (two_bits_eq_two h3 h0 h1)⟩
  case register =>
    have hrow := bne_iff_ne.mpr hab
    exact writtenAs_ite (fun ho => ⟨hrow, word_bitw_register h rfl rfl ho⟩) fun h0 =>
      writtenAs_ite (fun ho => ⟨hrow, word_bitw_register h rfl rfl ho⟩) fun h1 =>
        ⟨hrow, word_bitw_register h rfl rfl (two_bits_eq_two h3 h0 h1)⟩

theorem decodeDpo_written (h : field w 12 4 = 0xA) (ht : field w 0 2 ≠ 0) :
    ∃ i, decodeDpo w = .ok i ∧ WrittenAs i w := by
  refine ⟨_, decodeDpo_typed ht, writtenAs_ite (fun h1 => ⟨rfl, word_deviceOp h rfl h1⟩) fun h1 => ?_⟩
  refine writtenAs_ite (fun h2 => ?read) fun h2 => ?write
  case read =>
    exact writtenAs_ite_bit (fun h11 => ⟨rfl, word_deviceOp h h11 h2⟩) fun h11 => ⟨rfl, word_deviceOp h h11 h2⟩
  case write =>
    have h3 := two_bits_eq_three ht h1 h2
    exact writtenAs_ite_bit (fun h11 => ⟨rfl, word_deviceOp h h11 h3⟩) fun h11 => ⟨rfl, word_deviceOp h h11 h3⟩

theorem opcode_cases (op : BitVec 4) :
    op = 0x0 ∨ op = 0x1 ∨ op = 0x2 ∨ op = 0x3 ∨ op = 0x4 ∨ op = 0x5 ∨ op = 0x6 ∨ op = 0x7 ∨ op = 0x8 ∨ op = 0x9 ∨
      op = 0xA ∨ op = 0xB ∨ op = 0xC ∨ op = 0xD ∨ op = 0xE ∨ op = 0xF := by
  revert op
  decide

/-- Every word but a `DPO` word of type 0 is read as a term that it is the word of (R84, R99). -/
theorem decodeWord_written (h : ¬(field w 12 4 = 0xA ∧ field w 0 2 = 0)) :
    ∃ i, decodeWord w = .ok i ∧ WrittenAs i w := by
  rcases opcode_cases (field w 12 4) with
    h' | h' | h' | h' | h' | h' | h' | h' | h' | h' | h' | h' | h' | h' | h' | h'
  · exact ⟨_, decodeWord_add h', writtenAs_ite (fun heq => ⟨rfl, word_regs h' (congrArg _ heq) rfl⟩)
      fun hne => ⟨bne_ofBits hne, word_regs h' rfl rfl⟩⟩
  · exact ⟨_, decodeWord_sub h', writtenAs_ite (fun heq => ⟨rfl, word_regs h' (congrArg _ heq) rfl⟩)
      fun hne => ⟨bne_ofBits hne, word_regs h' rfl rfl⟩⟩
  · exact ⟨_, decodeWord_mul h', writtenAs_ite_bit (fun hs => ⟨rfl, word_mulDiv_literal h' hs⟩)
      fun hs => ⟨rfl, word_mulDiv_register h' hs⟩⟩
  · exact ⟨_, decodeWord_div h', writtenAs_ite_bit (fun hs => ⟨rfl, word_mulDiv_literal h' hs⟩)
      fun hs => ⟨rfl, word_mulDiv_register h' hs⟩⟩
  · exact ⟨_, decodeWord_asgn h', writtenAs_ite (fun heq => ⟨rfl, word_regs h' (congrArg _ heq) rfl⟩)
      fun hne => ⟨bne_ofBits hne, word_regs h' rfl rfl⟩⟩
  · exact ⟨_, decodeWord_shft h', writtenAs_ite (fun heq => ⟨rfl, word_shift_literal h' (congrArg _ heq) rfl⟩)
      fun hne => ⟨bne_ofBits hne, word_regs h' rfl rfl⟩⟩
  · exact ⟨_, decodeWord_bitw h', writtenAs_decodeBitw h'⟩
  · exact ⟨_, decodeWord_cbx h', writtenAs_ite_bit (fun h11 => ⟨rfl, word_branch_relative h' h11⟩)
      fun h11 => ⟨rfl, word_branch_lr h' h11⟩⟩
  · exact ⟨_, decodeWord_ldst h', writtenAs_ite_bit (fun h11 => ⟨rfl, word_store h' h11⟩)
      fun h11 => ⟨rfl, word_load h' h11⟩⟩
  · exact ⟨_, decodeWord_dpq h', rfl, word_query h'⟩
  · rw [decodeWord_dpo h']
    exact decodeDpo_written h' fun ht => h ⟨h', ht⟩
  · exact ⟨_, decodeWord_stk h', writtenAs_ite_bit (fun h11 => ⟨rfl, word_push h' h11⟩)
      fun h11 => ⟨rfl, word_pop h' h11⟩⟩
  · exact ⟨_, decodeWord_sig h', rfl, word_operand h'⟩
  · exact ⟨_, decodeWord_ini0D h', rfl, word_operand h'⟩
  · exact ⟨_, decodeWord_ini0E h', rfl, word_operand h'⟩
  · exact ⟨_, decodeWord_hcf h', rfl, word_operand h'⟩

/-- The words of no row (R84, R98). -/
theorem decodeWord_noRow (hop : field w 12 4 = 0xA) (ht : field w 0 2 = 0) :
    decodeWord w = .error .noDpoOperation := by
  rw [decodeWord_dpo hop, decodeDpo_type0 ht]

theorem writtenAs_of_decodeWord {i : Instr} (h : decodeWord w = .ok i) : WrittenAs i w := by
  by_cases hrow : field w 12 4 = 0xA ∧ field w 0 2 = 0
  · rw [decodeWord_noRow hrow.1 hrow.2] at h
    cases h
  · obtain ⟨j, hj, hw⟩ := decodeWord_written hrow
    rw [h] at hj
    cases hj
    exact hw

theorem decodeWord_error_iff : (∃ e, decodeWord w = .error e) ↔ field w 12 4 = 0xA ∧ field w 0 2 = 0 := by
  constructor
  · rintro ⟨e, he⟩
    by_contra hrow
    obtain ⟨i, hi, -⟩ := decodeWord_written hrow
    rw [he] at hi
    cases hi
  · rintro ⟨hop, ht⟩
    exact ⟨_, decodeWord_noRow hop ht⟩

end Opcodes

/-- Settles O2: opcode by opcode, the fields the decoder reads are the parts the encoder puts together. -/
theorem encodeInvertsDecode : Obligations.EncodeInvertsDecode := by
  unfold Obligations.EncodeInvertsDecode
  exact fun w => ⟨fun _ h => writtenAs_of_decodeWord h, decodeWord_error_iff⟩

/-- Settles O3: each word is evaluated. -/
theorem exampleWordsDecode : Obligations.ExampleWordsDecode := by
  unfold Obligations.ExampleWordsDecode
  exact ⟨rfl, rfl, rfl, rfl, rfl, rfl, rfl, rfl, rfl, rfl, rfl, rfl, rfl, rfl, rfl⟩

end Sys2Proof
end

/-! ## Writes to memory (R50, R66) -/

section

namespace Sys2Proof.Machine

variable {s t u : State} {R R' : Nat → Prop}

/-! ### The fetch and execute phase writes no memory -/

theorem execute_eq {w : Word} (h : execute w s = .next t) :
    t = { s with
      ir := w, regs := t.regs, sr := t.sr, fault := t.fault, faultWritten := t.faultWritten, newQ := t.newQ } := by
  unfold execute at h
  dsimp only at h
  split at h
  · cases h
    rfl
  · split at h
    · cases exec_effect h with
      | fault k arg => rfl
      | delegate a _ _ => rfl
      | compute regs z c _ => rfl
    · rename_i e _
      cases e with
      | noDpoOperation =>
        cases require_next h
        rfl
      | truncated =>
        cases h
        rfl

/-- All that a fetch and execute phase can change (R38, R212). -/
theorem fetchExecute_eq (h : fetchExecute s = .next t) :
    t = { s with
      regs := t.regs, sr := t.sr, ir := t.ir, fault := t.fault, faultWritten := t.faultWritten, newQ := t.newQ } := by
  rcases fetchExecute_cases s with ⟨-, hf⟩ | ⟨-, -, hf⟩ | ⟨-, -, -, hf⟩ | ⟨-, -, -, hf⟩ <;> rw [hf] at h
  · cases h
    rfl
  · cases h
    rfl
  · cases h
  · rw [execute_eq h]
    rfl

/-! ### The effect of a phase on memory -/

/-- From `s` to `t` at most bytes at addresses in `R` are written, and no effect of a signal comes to be pending. -/
structure MemoryEffect (R : Nat → Prop) (s t : State) : Prop where
  wf : Memory.wf s.mem → Memory.wf t.mem
  listed : ∀ c ∈ t.mem, R c.1 ∨ c ∈ s.mem
  read : ∀ a, ¬R a → t.readByte a = s.readByte a
  pending : s.signalEffects = [] → t.signalEffects = []

theorem MemoryEffect.of_eq (hmem : t.mem = s.mem) (hpending : t.signalEffects = s.signalEffects) :
    MemoryEffect R s t where
  wf h := hmem ▸ h
  listed c hc := .inr (hmem ▸ hc)
  read a _ := by rw [readByte_eq, readByte_eq, hmem]
  pending h := hpending.trans h

theorem MemoryEffect.mono (h : MemoryEffect R s t) (hR : ∀ a, R a → R' a) : MemoryEffect R' s t where
  wf := h.wf
  listed c hc := (h.listed c hc).imp_left (hR c.1)
  read a ha := h.read a (mt (hR a) ha)
  pending := h.pending

theorem MemoryEffect.trans (h : MemoryEffect R s t) (h' : MemoryEffect R t u) : MemoryEffect R s u where
  wf hs := h'.wf (h.wf hs)
  listed c hc := (h'.listed c hc).elim .inl (h.listed c)
  read a ha := (h'.read a ha).trans (h.read a ha)
  pending hs := h'.pending (h.pending hs)

theorem memoryEffect_writeBytes (s : State) (a : Nat) (vs : List Byte) :
    MemoryEffect (fun b => a ≤ b ∧ b < a + vs.length) s (s.writeBytes a vs) where
  wf := Memory.wf_writeBytes vs s.mem a
  listed c hc := Memory.mem_writeBytes vs s.mem a c hc
  read b hb := by rw [readByte_eq, State.writeBytes_mem, Memory.read_writeBytes, if_neg hb, readByte_eq]
  pending h := h

theorem memoryEffect_writeWord (s : State) (a : Nat) (v : Word) :
    MemoryEffect (fun b => a ≤ b ∧ b < a + 2) s (s.writeWord a v) where
  wf := Memory.wf_writeWord s.mem a v
  listed c hc := (Memory.mem_writeWord s.mem a v c hc).elim (fun h => .inl ⟨by omega, by omega⟩)
    fun h => h.imp_left fun h => ⟨by omega, by omega⟩
  read b hb := readByte_writeWord_ne s a v (by omega) (by omega)
  pending h := h

theorem HandlerEffect.memoryEffect {P : State → Prop} {r : State × Resolution} (he : HandlerEffect s P r)
    (hP : ∀ u, P u → MemoryEffect R s u) : MemoryEffect R s r.1 := by
  cases he with
  | fault k arg => exact .of_eq rfl rfl
  | failed => exact .of_eq rfl rfl
  | done u z c hu => exact (hP u hu).trans (.of_eq rfl rfl)

/-! ### What each handler writes (R163 to R169, R187, R255) -/

/-- The addresses an action's handler may write: a store's word in the data segment, a push's words in the stack
segment, the rest of a transfer's range, for a signal the store outside the segments. -/
def actionRegion (s : State) (a : Action) (b : Nat) : Prop :=
  match a with
  | .store _ _ => inRange s.segs.ds b = true
  | .push _ => inRange s.segs.ss b = true
  | .transfer t =>
    if t.started then s.dataAddr t.addr ≤ b ∧ b < s.dataAddr t.addr + t.remaining else inRange s.segs.ds b = true
  | .signal _ => s.inSegments b = false ∧ s.signalEffects ≠ []
  | .load _ _ | .pop _ | .query _ _ | .relinquish _ => False

theorem actionRegion_transfer (s : State) (t : Transfer) (b : Nat) :
    actionRegion s (.transfer t) b =
      if t.started then s.dataAddr t.addr ≤ b ∧ b < s.dataAddr t.addr + t.remaining
      else inRange s.segs.ds b = true := rfl

theorem inRange_iff (g : Segment) (a : Nat) : inRange g a = true ↔ g.base ≤ a ∧ a < g.base + g.len := by
  simp [inRange]

theorem handleStore_memoryEffect (addr w : Word) (s : State) :
    MemoryEffect (fun b => b < s.cfg.memSize ∧ inRange s.segs.ds b = true) s (handleStore addr w s).1 := by
  unfold handleStore
  split
  · exact .of_eq rfl rfl
  · split
    · exact .of_eq rfl rfl
    · rename_i hseg
      split
      · exact .of_eq rfl rfl
      · rename_i hstore
        have hseg' : addr.toNat + 2 ≤ s.segs.ds.len := by simpa [inSegment] using hseg
        have hstore' : s.dataAddr addr + 2 ≤ s.cfg.memSize := by simpa [State.inStore] using hstore
        have hwrite := memoryEffect_writeWord s (s.dataAddr addr) w
        refine (hwrite.mono fun b hb => ?_).trans (.of_eq rfl rfl)
        unfold State.dataAddr at *
        exact ⟨by omega, (inRange_iff _ _).mpr (by omega)⟩

theorem pushWords_memoryEffect (rs : List Reg) (off : Nat) (s : State) :
    MemoryEffect (fun b => s.stackAddr off ≤ b ∧ b < s.stackAddr off + 2 * rs.length) s (pushWords rs off s) := by
  induction rs generalizing off s with
  | nil => exact .of_eq rfl rfl
  | cons r rest ih =>
    have hnext : s.stackAddr (off + 2) = s.stackAddr off + 2 := rfl
    have hrest := ih (off + 2) (s.writeWord (s.stackAddr off) (s.x r))
    refine ((memoryEffect_writeWord s (s.stackAddr off) (s.x r)).mono fun b hb => ?_).trans
      (hrest.mono fun b hb => ?_)
    · rw [List.length_cons]
      omega
    · change s.stackAddr (off + 2) ≤ b ∧ b < s.stackAddr (off + 2) + _ at hb
      rw [List.length_cons]
      omega

theorem handlePush_memoryEffect (m : BitVec 4) (s : State) :
    MemoryEffect (fun b => b < s.cfg.memSize ∧ inRange s.segs.ss b = true) s (handlePush m s).1 := by
  unfold handlePush
  split
  · exact .of_eq rfl rfl
  · rename_i hseg
    split
    · exact .of_eq rfl rfl
    · rename_i hstore
      have hseg' : s.sp.toNat + maskBytes m ≤ s.segs.ss.len := by simpa [inSegment] using hseg
      have hstore' : maskBytes m = 0 ∨ s.stackAddr s.sp.toNat + maskBytes m ≤ s.cfg.memSize := by
        simpa [State.inStore, or_iff_not_imp_left] using hstore
      have hpush := pushWords_memoryEffect (maskRegs m) s.sp.toNat s
      refine (hpush.mono fun b hb => ?_).trans (.of_eq rfl rfl)
      unfold State.stackAddr maskBytes at *
      exact ⟨by omega, (inRange_iff _ _).mpr (by omega)⟩

theorem moveChunk_memoryEffect (x : Transfer) (s : State) :
    MemoryEffect
      (fun b => b < s.cfg.memSize ∧ s.dataAddr x.addr ≤ b ∧ b < s.dataAddr x.addr + x.remaining) s
      (moveChunk x s).1 := by
  have hmoved {p : Port} {m : Mailbox}
      (hstore : chunkSize p m x = 0 ∨ s.dataAddr x.addr + chunkSize p m x ≤ s.cfg.memSize) :
      MemoryEffect (fun b => b < s.cfg.memSize ∧ s.dataAddr x.addr ≤ b ∧ b < s.dataAddr x.addr + x.remaining) s
        (memAfter s m x (chunkSize p m x)) := by
    have hle := (chunkSize_le p m x).1
    unfold memAfter
    split
    · refine (memoryEffect_writeBytes s _ _).mono fun b hb => ?_
      rw [List.length_take] at hb
      omega
    · exact .of_eq rfl rfl
  rcases moveChunk_cases x s with h | ⟨p, m, -, -, hstore, ⟨-, h⟩ | ⟨-, -, h⟩⟩ <;> rw [h]
  · exact .of_eq rfl rfl
  · exact (hmoved hstore).trans (.of_eq rfl rfl)
  · exact (hmoved hstore).trans (.of_eq rfl rfl)

theorem startIndirect_memoryEffect (x : Transfer) (s : State) :
    MemoryEffect (fun b => b < s.cfg.memSize ∧ inRange s.segs.ds b = true) s (startIndirect x s).1 := by
  rcases startIndirect_cases s x with ⟨k, h⟩ | ⟨p, m, regs, f, w, z, c, -, h⟩ <;> rw [h]
  · exact .of_eq rfl rfl
  · set s1 : State :=
      ({ s with regs := regs, fault := f, faultWritten := w }.setFlags z c).updatePort x.port (fun q => q.withBusy true)
    have hstart : MemoryEffect (fun b => b < s.cfg.memSize ∧ inRange s.segs.ds b = true) s s1 := .of_eq rfl rfl
    refine hstart.trans ((moveChunk_memoryEffect _ s1).mono fun b hb => ?_)
    obtain ⟨hstore, hlow, hhigh⟩ := hb
    refine ⟨hstore, (inRange_iff _ _).mpr ?_⟩
    change s.segs.ds.base + x.addr.toNat ≤ b at hlow
    change b < s.segs.ds.base + x.addr.toNat + transferTotal s x m at hhigh
    unfold transferTotal validLength at hhigh
    omega

theorem applyPlatformMoves_memoryEffect (ms : List PlatformMove) (s : State) :
    MemoryEffect (fun b => b < s.cfg.memSize ∧ s.inSegments b = false ∧ ms ≠ []) s (applyPlatformMoves ms s) := by
  induction ms generalizing s with
  | nil => exact .of_eq rfl rfl
  | cons m rest ih =>
    have hrest := ih (applyPlatformMove m s)
    rw [applyPlatformMove_eq] at hrest
    have hfirst : MemoryEffect (fun b => b < s.cfg.memSize ∧ s.inSegments b = false ∧ m :: rest ≠ []) s
        (applyPlatformMove m s) := by
      cases m with
      | device a d =>
        change MemoryEffect _ s (s.deviceMove a d)
        rw [deviceMove_eq]
        exact .of_eq rfl rfl
      | storeByte a v =>
        change MemoryEffect _ s (s.storePlatformByte a v)
        rcases storePlatformByte_cases s a v with h | ⟨hseg, hstore, h⟩ <;> rw [h]
        · exact .of_eq rfl rfl
        · refine (memoryEffect_writeBytes s a [v]).mono fun b hb => ?_
          obtain rfl : b = a := by
            simp only [List.length_cons, List.length_nil] at hb
            omega
          exact ⟨hstore, hseg, nofun⟩
    rw [applyPlatformMove_eq] at hfirst
    have hall := hfirst.trans (hrest.mono fun b hb => ⟨hb.1, hb.2.1, nofun⟩)
    rwa [← applyPlatformMove_eq] at hall

theorem signalPlatform_memoryEffect (s : State) (c : SignalCall) :
    MemoryEffect (fun b => b < s.cfg.memSize ∧ s.inSegments b = false ∧ s.signalEffects ≠ []) s (s.signalPlatform c) := by
  have hrecord : MemoryEffect (fun b => b < s.cfg.memSize ∧ s.inSegments b = false ∧ s.signalEffects ≠ []) s
      (s.recordSignal c) := ⟨id, fun _ => .inr, fun _ _ => rfl, fun h => congrArg List.tail h⟩
  refine hrecord.trans ((applyPlatformMoves_memoryEffect _ _).mono fun b hb => ⟨hb.1, hb.2.1, fun h => hb.2.2 ?_⟩)
  rw [h]
  rfl

/-- All that a handler can do to memory: it writes inside the store and inside its action's region. -/
theorem handle_memoryEffect (a : Action) (s : State) :
    MemoryEffect (fun b => b < s.cfg.memSize ∧ actionRegion s a b) s (handle a s).1 := by
  cases a with
  | load addr r => exact (handleLoad_effect s addr r).memoryEffect (by rintro u ⟨regs, rfl⟩; exact .of_eq rfl rfl)
  | store addr w => exact handleStore_memoryEffect addr w s
  | push m => exact handlePush_memoryEffect m s
  | pop m => exact (handlePop_effect s m).memoryEffect (by rintro u ⟨-, regs, rfl⟩; exact .of_eq rfl rfl)
  | query port k => exact (handleQuery_effect s port k).memoryEffect (by rintro u rfl; exact .of_eq rfl rfl)
  | relinquish port =>
    exact (handleRelinquish_effect s port).memoryEffect (by rintro u ⟨p, -, -, rfl⟩; exact .of_eq rfl rfl)
  | signal c =>
    refine (handleSignal_effect s c).memoryEffect ?_
    rintro u rfl
    exact signalPlatform_memoryEffect s c
  | transfer x =>
    change MemoryEffect _ s (handleTransfer x s).1
    unfold handleTransfer
    split
    · split
      · rename_i hs
        exact (moveChunk_memoryEffect x s).mono fun b hb => ⟨hb.1, by simpa [actionRegion_transfer, hs] using hb.2⟩
      · rename_i hs
        exact (startIndirect_memoryEffect x s).mono fun b hb => ⟨hb.1, by simpa [actionRegion_transfer, hs] using hb.2⟩
    · split
      · exact (directRead_effect s x.port).memoryEffect (by rintro u ⟨p, m, v, -, rfl⟩; exact .of_eq rfl rfl)
      · exact (directWrite_effect s x.port x.word).memoryEffect (by rintro u ⟨p, m, -, rfl⟩; exact .of_eq rfl rfl)

/-! ### Memory stays inside the store -/

theorem MemoryInv.of_eq (h : MemoryInv s) (hmem : t.mem = s.mem) (hcfg : t.cfg = s.cfg) : MemoryInv t := by
  unfold MemoryInv
  rw [hmem, hcfg]
  exact h

theorem MemoryInv.of_effect (h : MemoryInv s) (ht : MemoryEffect R s t) (hcfg : t.cfg = s.cfg)
    (hR : ∀ a, R a → a < s.cfg.memSize) : MemoryInv t := by
  obtain ⟨hwf, hlisted⟩ := h
  refine ⟨ht.wf hwf, fun c hc => ?_⟩
  rw [hcfg]
  exact (ht.listed c hc).elim (hR c.1) (hlisted c)

theorem handle_memoryInv (a : Action) (h : MemoryInv s) : MemoryInv (handle a s).1 :=
  h.of_effect (handle_memoryEffect a s) (handle_keeps a s).1 fun _ hb => hb.1

theorem resolveCycle_memoryInv (h : MemoryInv s) : MemoryInv (resolveCycle s) :=
  resolveCycle_preserves MemoryInv (fun _ h => h) (fun _ h => h) (fun a _ h => handle_memoryInv a h) (fun _ _ _ h => h)
    s h

/-- A load lists no byte outside the store (R50, R312). -/
theorem imageMemory_inside (n : Nat) (image : List Host.Cell) : ∀ c ∈ imageMemory n image, c.1 < n := by
  suffices h : ∀ m : List Host.Cell, (∀ c ∈ m, c.1 < n) →
      ∀ c ∈ image.foldl (fun m c => if c.1 < n then Memory.write m c.1 c.2 else m) m, c.1 < n from
    h [] nofun
  induction image with
  | nil => exact fun m hm => hm
  | cons d rest ih =>
    intro m hm
    rw [List.foldl_cons]
    refine ih _ fun c hc => ?_
    split at hc
    · rename_i hd
      rcases Memory.mem_write m d.1 d.2 c hc with h | h
      · rwa [h]
      · exact hm c h
    · exact hm c hc

theorem applyMove_memoryInv (m : EnvMove) (h : MemoryInv s) : MemoryInv (applyMove m s) := by
  cases m with
  | device port d =>
    change MemoryInv (s.deviceMove port d)
    rw [deviceMove_eq]
    exact h
  | hostClearFault | hostWritePc v => exact h
  | hostReset ports =>
    cases ports
    · exact h
    · exact h
  | hostLoad segs image => exact ⟨imageMemory_wf _ image, imageMemory_inside _ image⟩

/-- Settles O55: a gap rewrites memory only by a load of an image, an execute phase not at all, and every handler writes
inside the store. -/
theorem everyStepKeepsMemoryInv : Obligations.EveryStepKeepsMemoryInv := by
  unfold Obligations.EveryStepKeepsMemoryInv
  intro s t hs h
  have hgap : MemoryInv (applyGap s) :=
    applyGap_preserves MemoryInv (fun m _ h => applyMove_memoryInv m h) (fun _ h => h) s hs
  obtain ⟨-, ⟨-, rfl⟩ | ⟨-, u, hu, rfl⟩⟩ := step_next s t h
  · exact hgap
  · refine resolveCycle_memoryInv ?_
    rw [fetchExecute_eq hu]
    exact hgap

end Sys2Proof.Machine
end

/-! ## The code segment (R66) -/

section

namespace Sys2Proof.Machine

/-! ### A property kept by the handlers of the queued actions -/

section Preserve

variable (P : State → Prop) (Q : Action → Prop) (hdrop : ∀ s, P s → P s.dropAnswer)
  (hspv : ∀ s, P s → P (s.setFault .spv 0)) (hhandle : ∀ a s, Q a → P s → P (handle a s).1)
include hdrop hhandle

theorem resolve_preserves_of (a : Action) (s : State) (ha : Q a) (h : P s) : P (resolve a s).1 := by
  rcases resolve_cases a s with ⟨-, hr⟩ | ⟨-, hr⟩ <;> rw [hr]
  · exact hdrop s h
  · exact hhandle a _ ha (hdrop s h)

include hspv

theorem resolveNew_preserves_of (q : List Action) (hq : ∀ a ∈ q, Q a) (k r : Nat) (s : State) (h : P s) :
    P (resolveNew q k r s).1 := by
  induction q generalizing k r s with
  | nil => exact h
  | cons a rest ih =>
    obtain ⟨ha, hrest⟩ := List.forall_mem_cons.mp hq
    cases k with
    | zero => exact hspv s h
    | succ k =>
      have hres := resolve_preserves_of P Q hdrop hhandle a s ha h
      rcases hr : resolve a s with ⟨t, _ | a' | _⟩ <;> rw [hr] at hres
      case complete =>
        rw [resolveNew_complete a rest k r s t hr]
        exact ih hrest k r t hres
      case ongoing =>
        cases r with
        | zero =>
          rw [resolveNew_noRoom a a' rest k s t hr]
          exact hspv _ (hdrop s h)
        | succ r =>
          rw [resolveNew_ongoing a a' rest k r s t hr]
          exact ih hrest k r t hres
      case failed =>
        rw [resolveNew_failed a rest k r s t hr]
        exact hspv t hres

theorem resolveOngoing_preserves_of (q : List Action) (hq : ∀ a ∈ q, Q a) (s : State) (h : P s) :
    P (resolveOngoing q s).1 := by
  induction q generalizing s with
  | nil => exact h
  | cons a rest ih =>
    obtain ⟨ha, hrest⟩ := List.forall_mem_cons.mp hq
    have hres := resolve_preserves_of P Q hdrop hhandle a s ha h
    rcases hr : resolve a s with ⟨t, _ | a' | _⟩ <;> rw [hr] at hres
    case complete =>
      rw [resolveOngoing_complete a rest s t hr]
      exact ih hrest t hres
    case ongoing =>
      rw [resolveOngoing_ongoing a a' rest s t hr]
      exact ih hrest t hres
    case failed =>
      rw [resolveOngoing_failed a rest s t hr]
      exact hspv t hres

/-- A property that the handler of every action of a class keeps is kept by a pass over queues of that class. -/
theorem resolveCycle_preserves_of (hq : ∀ s q o, P s → P (s.withQueues q o)) (s : State) (hnew : ∀ a ∈ s.newQ, Q a)
    (hongoing : ∀ a ∈ s.ongoing, Q a) (h : P s) : P (resolveCycle s) := by
  have hblock := resolveNew_preserves_of P Q hdrop hspv hhandle s.newQ hnew s.cfg.newQDepth
    (s.ongoingCapacity - s.ongoing.length) s h
  rcases hpass : newPass s with ⟨t, block, _ | _⟩
  all_goals
    have ht : P t := by
      unfold newPass at hpass
      rwa [hpass] at hblock
  · rw [resolveCycle_run s t block hpass]
    exact hq _ _ _ (resolveOngoing_preserves_of P Q hdrop hspv hhandle s.ongoing hongoing t ht)
  · rw [resolveCycle_stopped s t block hpass]
    exact hq _ _ _ ht

end Preserve

/-! ### The bytes no action writes -/

variable {s t u : State} {a : Nat}

/-- A byte that no handler is to write: outside the data and stack segments, and either of the code segment or with no
effect of a signal pending. -/
def Protected (s : State) (a : Nat) : Prop :=
  inRange s.segs.ds a = false ∧ inRange s.segs.ss a = false ∧ (s.inSegments a = true ∨ s.signalEffects = [])

/-- A started transfer of the class has the rest of its range inside the data segment (R255). -/
def StaysInside (g : SegTable) : Action → Prop
  | .transfer t => t.started = true → t.addr.toNat + t.remaining ≤ g.ds.len
  | .load _ _ | .store _ _ | .push _ | .pop _ | .query _ _ | .relinquish _ | .signal _ => True

theorem staysInside_of_fresh {x : Action} (g : SegTable) (h : FreshAction x) : StaysInside g x := by
  cases x with
  | transfer t =>
    have hfresh : t.started = false := h
    exact fun hs => by simp [hfresh] at hs
  | _ => trivial

theorem Protected.not_region {x : Action} (h : Protected s a) (hx : StaysInside s.segs x) : ¬actionRegion s x a := by
  obtain ⟨hds, hss, hseg⟩ := h
  cases x with
  | store addr w => exact Bool.eq_false_iff.mp hds
  | push m => exact Bool.eq_false_iff.mp hss
  | signal c =>
    rintro ⟨hout, hpending⟩
    rcases hseg with hin | hnone
    · rw [hin] at hout
      cases hout
    · exact hpending hnone
  | transfer t =>
    rw [actionRegion_transfer]
    split
    · rename_i hs
      have hin := hx hs
      rw [← Bool.not_eq_true, inRange_iff] at hds
      unfold State.dataAddr
      omega
    · exact Bool.eq_false_iff.mp hds
  | load | pop | query | relinquish => exact id

/-- What the resolve phase keeps of a protected byte. -/
def Untouched (s : State) (a : Nat) (t : State) : Prop :=
  t.segs = s.segs ∧ Protected t a ∧ t.readByte a = s.readByte a

theorem Untouched.handle {x : Action} (h : Untouched s a t) (hx : StaysInside s.segs x) :
    Untouched s a (handle x t).1 := by
  obtain ⟨hsegs, hprot, hread⟩ := h
  have heffect := handle_memoryEffect x t
  have hkeep : (Machine.handle x t).1.segs = t.segs := (handle_keeps x t).2.1
  have hout : ¬actionRegion t x a := hprot.not_region (hsegs ▸ hx)
  refine ⟨hkeep.trans hsegs, ?_, (heffect.read a fun hb => hout hb.2).trans hread⟩
  obtain ⟨hds, hss, hseg⟩ := hprot
  unfold Protected State.inSegments
  rw [hkeep]
  exact ⟨hds, hss, hseg.imp_right heffect.pending⟩

theorem protected_of_inCode (hs : s.segsOk = true) (ha : s.inCode a) : Protected s a := by
  obtain ⟨-, -, -, hds, hss, -⟩ := (segsOk_iff s).mp hs
  rw [segmentsDisjoint_iff] at hds hss
  obtain ⟨hlow, hhigh⟩ := ha
  have hcs : inRange s.segs.cs a = true := (inRange_iff _ _).mpr ⟨hlow, hhigh⟩
  refine ⟨?_, ?_, .inl (by simp [State.inSegments, hcs])⟩
  · rw [← Bool.not_eq_true, inRange_iff]
    omega
  · rw [← Bool.not_eq_true, inRange_iff]
    omega

theorem protected_of_outside (hpending : s.signalEffects = [])
    (hds : a < s.segs.ds.base ∨ s.segs.ds.base + s.segs.ds.len ≤ a)
    (hss : a < s.segs.ss.base ∨ s.segs.ss.base + s.segs.ss.len ≤ a) : Protected s a := by
  refine ⟨?_, ?_, .inr hpending⟩
  · rw [← Bool.not_eq_true, inRange_iff]
    omega
  · rw [← Bool.not_eq_true, inRange_iff]
    omega

theorem resolveCycle_untouched (hnew : ∀ x ∈ t.newQ, StaysInside s.segs x)
    (hongoing : ∀ x ∈ t.ongoing, StaysInside s.segs x) (h : Untouched s a t) : Untouched s a (resolveCycle t) :=
  resolveCycle_preserves_of (Untouched s a) (StaysInside s.segs) (fun _ h => h) (fun _ h => h)
    (fun _ _ hx h => h.handle hx) (fun _ _ _ h => h) t hnew hongoing h

/-- Settles O51: a protected byte is outside the region of every action in the two queues, the started transfers being
in flight. -/
theorem codeSegmentNeverWritten : Obligations.CodeSegmentNeverWritten := by
  unfold Obligations.CodeSegmentNeverWritten
  intro s t a hs hinv hcycle ha
  obtain ⟨hempty, hports⟩ := (deviceInv_iff s).mp hinv
  obtain ⟨u, hu, rfl⟩ := thenResolve_next _ t hcycle
  have hframe := fetchExecute_eq hu
  have hphase := fetchExecute_phaseFrame hu
  have hprot : Protected s a := by
    rcases ha with hcode | ⟨hpending, hds, hss⟩
    · exact protected_of_inCode hs hcode
    · exact protected_of_outside hpending hds hss
  have hstart : Untouched s a u := by
    rw [hframe]
    exact ⟨rfl, hprot, rfl⟩
  refine (resolveCycle_untouched ?_ ?_ hstart).2.2
  · have hfresh : ∀ x ∈ u.newQ, FreshAction x := by
      rcases hphase.newQ with hq | ⟨x, hx, hq⟩
      · rw [hq]
        simp [hempty]
      · rw [hq]
        simpa [hempty] using hx
    exact fun x hx => staysInside_of_fresh _ (hfresh x hx)
  · intro x hx
    rw [hphase.ongoing] at hx
    obtain ⟨y, rfl, -, -, -, hin, -⟩ := hports.2.1 x hx
    exact fun _ => hin

end Sys2Proof.Machine
end

/-! ## Busy ports and the ongoing queue (R234 (b)) -/

section

namespace Sys2Proof.Machine

variable {s u : State} {q q' : List Action}

/-! ### Ports that are busy, and the transfers queued for them -/

/-- Every busy port has a transfer among `q`. -/
def BusyIn (s : State) (q : List Action) : Prop :=
  ∀ p ∈ s.ports, p.busy = true → ∃ t, .transfer t ∈ q ∧ t.port = p.addr

theorem busyInv_iff (s : State) : BusyInv s ↔ BusyIn s s.ongoing := Iff.rfl

theorem BusyIn.of_ports (h : BusyIn s q) (hports : u.ports = s.ports) : BusyIn u q := by
  unfold BusyIn
  rw [hports]
  exact h

theorem BusyIn.mono (h : BusyIn s q) (hq : ∀ a ∈ q, a ∈ q') : BusyIn s q' := fun p hp hb => by
  obtain ⟨t, ht, hport⟩ := h p hp hb
  exact ⟨t, hq _ ht, hport⟩

/-- A port after a change of one port is a port before it, changed if it has the address. -/
theorem mem_updatePort {a : Word} {f : Port → Port} {p : Port} (hp : p ∈ (s.updatePort a f).ports) :
    ∃ r ∈ s.ports, p = if r.addr = a then f r else r := by
  obtain ⟨r, hr, rfl⟩ := List.mem_map.mp hp
  exact ⟨r, hr, by simp⟩

/-- A change that makes no port busy. -/
theorem BusyIn.updatePort {a : Word} {f : Port → Port} (h : BusyIn s q) (hf : ∀ r, (f r).addr = r.addr)
    (hbusy : ∀ r, (f r).busy = true → r.busy = true) : BusyIn (s.updatePort a f) q := by
  intro p hp hb
  obtain ⟨r, hr, rfl⟩ := mem_updatePort hp
  split at hb
  · rename_i ha
    rw [if_pos ha, hf]
    exact h r hr (hbusy r hb)
  · rename_i ha
    rw [if_neg ha]
    exact h r hr hb

/-- The port of a transfer becomes busy. -/
theorem BusyIn.claim (h : BusyIn s q) (t : Transfer) :
    BusyIn (s.updatePort t.port (fun r => r.withBusy true)) (.transfer t :: q) := by
  intro p hp hb
  obtain ⟨r, hr, rfl⟩ := mem_updatePort hp
  split at hb
  · rename_i ha
    rw [if_pos ha]
    exact ⟨t, List.mem_cons_self, ha.symm⟩
  · rename_i ha
    rw [if_neg ha]
    obtain ⟨x, hx, hport⟩ := h r hr hb
    exact ⟨x, List.mem_cons_of_mem _ hx, hport⟩

/-- The port of a finished transfer is busy no more, and every other busy port has one that is still queued. -/
theorem BusyIn.release {t : Transfer} (h : BusyIn s (.transfer t :: q)) :
    BusyIn (s.updatePort t.port (fun r => r.withBusy false)) q := by
  intro p hp hb
  obtain ⟨r, hr, rfl⟩ := mem_updatePort hp
  split at hb
  · cases hb
  · rename_i ha
    rw [if_neg ha]
    obtain ⟨x, hx, hport⟩ := h r hr hb
    rcases List.mem_cons.mp hx with heq | hx
    · cases heq
      exact absurd hport.symm ha
    · exact ⟨x, hx, hport⟩

theorem programRelinquish_busy (p : Port) : (programRelinquish p).busy = p.busy := by
  unfold programRelinquish
  split <;> rfl

/-! ### The handlers -/

theorem HandlerEffect.busyIn {P : State → Prop} {r : State × Resolution} (he : HandlerEffect s P r) (h : BusyIn s q)
    (hP : ∀ u, P u → BusyIn u q) : BusyIn r.1 (r.2.queued ++ q) := by
  cases he with
  | fault | failed => exact h
  | done u z c hu => exact hP u hu

theorem moveChunk_not_failed {t : Transfer} {p : Port} {m : Mailbox} (hp : s.lookupPort t.port = some p)
    (hm : p.mailbox = some m) (hstore : s.inStore (s.dataAddr t.addr) (chunkSize p m t) = true) :
    (moveChunk t s).2 ≠ .failed := by
  simp only [moveChunk, hp, hm, hstore, Bool.not_true, Bool.false_eq_true, if_false]
  split <;> simp

/-- A chunk inside the data segment is inside the store (R53, R255). -/
theorem chunk_inStore {t : Transfer} (hs : s.segsOk = true)
    (hin : 0 < t.remaining → t.addr.toNat + t.remaining ≤ s.segs.ds.len) (p : Port) (m : Mailbox) :
    s.inStore (s.dataAddr t.addr) (chunkSize p m t) = true := by
  have hle := (chunkSize_le p m t).1
  rcases Nat.eq_zero_or_pos (chunkSize p m t) with h0 | hpos
  · simp [State.inStore, h0]
  · have hstore := data_inStore s t.addr (chunkSize p m t) hs (by have := hin (by omega); omega)
    simp [State.inStore, hstore]

/-- A chunk of a queued transfer either keeps it queued or frees its port. -/
theorem BusyIn.moveChunk {t : Transfer} {p : Port} {m : Mailbox} (h : BusyIn s (.transfer t :: q))
    (hs : s.segsOk = true) (hp : s.lookupPort t.port = some p) (hm : p.mailbox = some m)
    (hin : 0 < t.remaining → t.addr.toNat + t.remaining ≤ s.segs.ds.len) :
    BusyIn (moveChunk t s).1 ((moveChunk t s).2.queued ++ q) := by
  rcases moveChunk_cases t s with hx | ⟨p', m', -, -, -, hx⟩
  · exact absurd (congrArg Prod.snd hx) (moveChunk_not_failed hp hm (chunk_inStore hs hin p m))
  · generalize chunkSize p' m' t = n at hx
    have hmoved : BusyIn ((memAfter s m' t n).updatePort t.port (fun r => r.withBytes (bytesAfter s m' t n)))
        (.transfer t :: q) := by
      rw [memAfter_eq]
      exact (h.of_ports rfl).updatePort (fun _ => rfl) fun _ hb => hb
    rcases hx with ⟨-, hx⟩ | ⟨-, -, hx⟩ <;> rw [hx]
    · exact hmoved.release
    · intro r hr hb
      obtain ⟨x, hx, hport⟩ := hmoved r hr hb
      rcases List.mem_cons.mp hx with heq | hx
      · cases heq
        exact ⟨t.advance n, List.mem_cons_self, hport⟩
      · exact ⟨x, List.mem_cons_of_mem _ hx, hport⟩

theorem BusyIn.startIndirect {t : Transfer} (h : BusyIn s q) (hs : s.segsOk = true) :
    BusyIn (startIndirect t s).1 ((startIndirect t s).2.queued ++ q) := by
  rcases startIndirect_cases s t with ⟨k, hx⟩ | ⟨p, m, regs, f, w, z, c, hadm, hx⟩ <;> rw [hx]
  · exact h
  · obtain ⟨hp, hmail, -, -⟩ := admission_some s t.port t.dir p m hadm
    set s1 : State := { s with regs := regs, fault := f, faultWritten := w }.setFlags z c
    set t1 : Transfer := { t with started := true, remaining := transferTotal s t m }
    have hclaim : BusyIn (s1.updatePort t.port (fun r => r.withBusy true)) (.transfer t1 :: q) :=
      (h.of_ports (u := s1) rfl).claim t1
    have hnew := (portsChangedAt_updatePort s1 _ p (fun r => r.withBusy true) (fun _ => rfl) hp).1
    refine hclaim.moveChunk hs hnew hmail ?_
    change 0 < transferTotal s t m → t.addr.toNat + transferTotal s t m ≤ s.segs.ds.len
    unfold transferTotal validLength
    omega

theorem BusyIn.deviceMove (h : BusyIn s q) (a : Word) (m : DeviceMove) : BusyIn (s.deviceMove a m) q := by
  rcases deviceMove_cases s a m with hm | hm | ⟨p, -, -, -, hm⟩ <;> rw [hm]
  · exact h
  · exact h
  · exact h.updatePort (effect_addr m) fun r hb => by rwa [effect_busy] at hb

theorem BusyIn.applyPlatformMoves (ms : List PlatformMove) (h : BusyIn s q) : BusyIn (applyPlatformMoves ms s) q := by
  induction ms generalizing s with
  | nil => exact h
  | cons m rest ih =>
    refine ih (s := applyPlatformMove m s) ?_
    cases m with
    | device a d => exact h.deviceMove a d
    | storeByte a v =>
      change BusyIn (s.storePlatformByte a v) q
      rcases storePlatformByte_cases s a v with hm | ⟨-, -, hm⟩ <;> rw [hm]
      · exact h
      · exact h

/-- The handler of an action from the new queue. -/
theorem BusyIn.handle_fresh {a : Action} (h : BusyIn s q) (hs : s.segsOk = true) (ha : FreshAction a) :
    BusyIn (handle a s).1 ((handle a s).2.queued ++ q) := by
  cases a with
  | load addr r => exact (handleLoad_effect s addr r).busyIn h (by rintro u ⟨regs, rfl⟩; exact h)
  | store addr w => exact (handleStore_effect s addr w).busyIn h (by rintro u ⟨mem, rfl⟩; exact h)
  | push m => exact (handlePush_effect s m).busyIn h (by rintro u ⟨-, mem, rfl⟩; exact h)
  | pop m => exact (handlePop_effect s m).busyIn h (by rintro u ⟨-, regs, rfl⟩; exact h)
  | query port k => exact (handleQuery_effect s port k).busyIn h (by rintro u rfl; exact h)
  | relinquish port =>
    refine (handleRelinquish_effect s port).busyIn h ?_
    rintro u ⟨p, -, -, rfl⟩
    exact h.updatePort programRelinquish_addr fun r hb => by rwa [programRelinquish_busy] at hb
  | signal c =>
    refine (handleSignal_effect s c).busyIn h ?_
    rintro u rfl
    exact BusyIn.applyPlatformMoves _ (s := s.recordSignal c) h
  | transfer x =>
    change BusyIn (handleTransfer x s).1 ((handleTransfer x s).2.queued ++ q)
    have hx : x.started = false := ha
    unfold handleTransfer
    rw [hx]
    split
    · exact h.startIndirect hs
    · split
      · refine (directRead_effect s x.port).busyIn h ?_
        rintro u ⟨p, m, v, -, rfl⟩
        exact h.updatePort (fun _ => rfl) fun _ hb => hb
      · refine (directWrite_effect s x.port x.word).busyIn h ?_
        rintro u ⟨p, m, -, rfl⟩
        exact h.updatePort (fun _ => rfl) fun _ hb => hb

/-- The handler of an action from the ongoing queue: one more chunk. -/
theorem BusyIn.handle_queued {a : Action} (h : BusyIn s (a :: q)) (hs : s.segsOk = true)
    (hinv : TransfersInv s (a :: q)) : BusyIn (handle a s).1 ((handle a s).2.queued ++ q) := by
  obtain ⟨t, rfl, hi, hstart, -, hin, p, hp, -, -, hsome⟩ := hinv.2.1 a List.mem_cons_self
  obtain ⟨m, hm⟩ := Option.isSome_iff_exists.mp hsome
  have hchunk : handle (.transfer t) s = Machine.moveChunk t s := by simp [handle, handleTransfer, hi, hstart]
  rw [hchunk]
  exact h.moveChunk hs hp hm fun _ => hin

/-! ### The resolution pass, with no answer of `ACTION_FAILS` pending -/

/-- What one resolution after the other keeps: the transfers `q` still queued are in flight, and every busy port has one
among them. -/
structure BusyQueued (s : State) (q : List Action) : Prop where
  transfers : TransfersInv s q
  busy : BusyIn s q
  segsOk : s.segsOk = true
  answers : s.resolverAnswers = []

theorem BusyQueued.perm (h : BusyQueued s q) (hq : q.Perm q') : BusyQueued s q' :=
  ⟨h.transfers.perm hq, h.busy.mono fun _ ha => hq.mem_iff.mp ha, h.segsOk, h.answers⟩

theorem BusyQueued.handle_fresh {a : Action} (h : BusyQueued s q) (ha : FreshAction a) :
    BusyQueued (handle a s).1 ((handle a s).2.queued ++ q) := by
  obtain ⟨hcfg, hsegs, -, -, -, -, hanswers⟩ := handle_keeps a s
  exact ⟨h.transfers.handle_fresh ha, h.busy.handle_fresh h.segsOk ha, segsOk_of_eq hsegs hcfg h.segsOk,
    hanswers.trans h.answers⟩

theorem BusyQueued.handle_queued {a : Action} (h : BusyQueued s (a :: q)) :
    BusyQueued (handle a s).1 ((handle a s).2.queued ++ q) := by
  obtain ⟨hcfg, hsegs, -, -, -, -, hanswers⟩ := handle_keeps a s
  exact ⟨h.transfers.handle_queued, h.busy.handle_queued h.segsOk h.transfers, segsOk_of_eq hsegs hcfg h.segsOk,
    hanswers.trans h.answers⟩

theorem BusyQueued.resolveNew {as : List Action} (h : BusyQueued s q) (has : ∀ a ∈ as, FreshAction a) (k r : Nat) :
    BusyQueued (resolveNew as k r s).1 ((resolveNew as k r s).2.1 ++ q) := by
  induction as generalizing k r s q with
  | nil => exact h
  | cons a rest ih =>
    obtain ⟨ha, hrest⟩ := List.forall_mem_cons.mp has
    have hres := h.handle_fresh ha
    rw [← resolve_default a s h.answers] at hres
    have hstopped : BusyQueued (s.dropAnswer.setFault .spv 0) q := by
      rw [dropAnswer_nil s h.answers]
      exact ⟨h.transfers, h.busy, h.segsOk, h.answers⟩
    cases k with
    | zero => exact ⟨h.transfers, h.busy, h.segsOk, h.answers⟩
    | succ k =>
      rcases hr : resolve a s with ⟨u, _ | a' | _⟩ <;> rw [hr] at hres
      case complete =>
        rw [resolveNew_complete a rest k r s u hr]
        exact ih hres hrest k r
      case failed =>
        rw [resolveNew_failed a rest k r s u hr]
        exact ⟨hres.transfers, hres.busy, hres.segsOk, hres.answers⟩
      case ongoing =>
        cases r with
        | zero =>
          rw [resolveNew_noRoom a a' rest k s u hr]
          exact hstopped
        | succ r =>
          rw [resolveNew_ongoing a a' rest k r s u hr]
          exact (ih hres hrest k r).perm List.perm_middle

/-- The pass over the ongoing queue `as`, behind the transfers `q` already resolved in this cycle. -/
theorem BusyQueued.resolveOngoing {as : List Action} (h : BusyQueued s (q ++ as)) :
    BusyQueued (resolveOngoing as s).1 (q ++ (resolveOngoing as s).2) := by
  induction as generalizing s q with
  | nil => exact h
  | cons a rest ih =>
    have hres := (h.perm List.perm_middle).handle_queued
    rw [← resolve_default a s h.answers] at hres
    rcases hr : resolve a s with ⟨u, _ | a' | _⟩ <;> rw [hr] at hres
    case complete =>
      rw [resolveOngoing_complete a rest s u hr]
      exact ih hres
    case failed =>
      rw [resolveOngoing_failed a rest s u hr]
      exact ⟨hres.transfers, hres.busy, hres.segsOk, hres.answers⟩
    case ongoing =>
      rw [resolveOngoing_ongoing a a' rest s u hr]
      have hdone : BusyQueued u ((a' :: q) ++ rest) := hres
      exact (ih hdone).perm List.perm_middle.symm

theorem resolveCycle_busyInv (h : BusyQueued s s.ongoing) (hnew : ∀ a ∈ s.newQ, FreshAction a) :
    BusyInv (resolveCycle s) := by
  have hblock := h.resolveNew hnew s.cfg.newQDepth (s.ongoingCapacity - s.ongoing.length)
  unfold resolveCycle
  dsimp only
  split
  · exact hblock.busy
  · exact hblock.resolveOngoing.busy

/-! ### The gap and the step -/

theorem applyMove_busyInv {m : EnvMove} (h : BusyInv s) (hm : resetsBlockAlone m = false) : BusyInv (applyMove m s) := by
  cases m with
  | device port d =>
    have hmoved := BusyIn.deviceMove h port d
    change BusyIn (s.deviceMove port d) (s.deviceMove port d).ongoing
    rw [deviceMove_eq] at hmoved ⊢
    exact hmoved
  | hostClearFault | hostWritePc v => exact h
  | hostReset ports =>
    cases ports with
    | false => cases hm
    | true =>
      intro p hp hb
      obtain ⟨r, -, rfl⟩ := List.mem_map.mp hp
      cases hb
  | hostLoad segs image => cases hm

theorem applyMoves_busyInv {ms : List EnvMove} (h : BusyInv s)
    (hms : ∀ m ∈ ms, resetsBlockAlone m = false) : BusyInv (applyMoves ms s) := by
  induction ms generalizing s with
  | nil => exact h
  | cons m rest ih =>
    obtain ⟨hm, hrest⟩ := List.forall_mem_cons.mp hms
    exact ih (s := applyMove m s) (applyMove_busyInv h hm) hrest

/-- Settles O60: a chunk keeps its transfer queued or frees its port, and nothing else makes a port busy or takes a
transfer from the ongoing queue. -/
theorem everyStepKeepsBusyPortsQueued : Obligations.EveryStepKeepsBusyPortsQueued := by
  unfold Obligations.EveryStepKeepsBusyPortsQueued
  intro s t hdev hbusy hanswers henv h
  have hgapBusy : BusyInv (applyGap s) := applyMoves_busyInv (s := s.dropGap) hbusy henv
  have hgapDev : DeviceInv (applyGap s) :=
    applyGap_preserves DeviceInv (fun m _ h => applyMove_deviceInv m h) (fun _ h => h) s hdev
  have hgapAnswers : (applyGap s).resolverAnswers = [] :=
    applyGap_preserves (fun t => t.resolverAnswers = []) (fun m t h => (applyMove_keeps m t).2.2.1.trans h)
      (fun _ h => h) s hanswers
  obtain ⟨hsegs, ⟨-, rfl⟩ | ⟨-, u, hu, rfl⟩⟩ := step_next s t h
  · exact hgapBusy
  · obtain ⟨hempty, hinv⟩ := (deviceInv_iff _).mp hgapDev
    have hphase := fetchExecute_phaseFrame hu
    refine resolveCycle_busyInv ?_ ?_
    · rw [hphase.ongoing]
      rw [fetchExecute_eq hu]
      exact ⟨hinv.congr rfl rfl, hgapBusy, hsegs, hgapAnswers⟩
    · rcases hphase.newQ with hq | ⟨a, ha, hq⟩ <;> rw [hq]
      · simp [hempty]
      · simpa [hempty] using ha

end Sys2Proof.Machine
end

/-! ## A step as a whole (R81, R205 to R212, R291) -/

section

namespace Sys2Proof.Machine

variable {s : State} {w : Word}

/-- Settles O6: under the premises the sequencer starts a cycle, the fetch reads the word at `PC`, and no strap removes
its handler. -/
theorem stepRunsDecodedInstruction : Obligations.StepRunsDecodedInstruction := by
  unfold Obligations.StepRunsDecodedInstruction
  intro s i g pc w hsegs hrun heven hin hdecode hstrap
  have hfetch : fetchExecute g.openFaultLatch = execute w (g.openFaultLatch.setX .pc (g.x .pc + 2)) :=
    fetchExecute_inside (s := g.openFaultLatch) hsegs (isOdd_of_even heven) hin
  have hexec : execute w (g.openFaultLatch.setX .pc (g.x .pc + 2)) =
      exec i ((g.openFaultLatch.setX .pc (g.x .pc + 2)).setIr w) := execute_ok w _ i hstrap hdecode
  rw [step_cycle s hsegs hrun, cycle, hfetch, hexec]
  rfl

/-! ### The stops of a step -/

/-- A phase goes on, or it is refused for a request channel that is not connected (R208). -/
inductive GoesOnUnlessAbsent (s : State) : Result → Prop
  | next (t : State) : GoesOnUnlessAbsent s (.next t)
  | absent (k : Channel) (hk : s.channelPresent k = false) : GoesOnUnlessAbsent s (.refused (.notAttempted k))

theorem GoesOnUnlessAbsent.thenResolve {r : Result} (h : GoesOnUnlessAbsent s r) :
    GoesOnUnlessAbsent s (thenResolve r) := by
  cases h with
  | next t => exact .next _
  | absent k hk => exact .absent k hk

theorem require_goesOn (k : Channel) {body : Result} (h : GoesOnUnlessAbsent s body) :
    GoesOnUnlessAbsent s (require k s body) := by
  cases hk : s.channelPresent k with
  | false =>
    rw [require_absent k s body hk]
    exact .absent k hk
  | true => rwa [require_present k s body hk]

theorem exec_goesOn (i : Instr) (s : State) : GoesOnUnlessAbsent s (exec i s) := by
  by_cases hi : attempted i s
  · obtain ⟨t, ht⟩ := exec_attempted hi
    rw [ht]
    exact .next t
  · simp only [attempted, not_forall, Bool.not_eq_true] at hi
    obtain ⟨k, hi, hk⟩ := hi
    rw [exec_absent hi hk]
    exact .absent k hk

theorem execute_goesOn (w : Word) (s : State) : GoesOnUnlessAbsent (s.setIr w) (execute w s) := by
  unfold execute
  dsimp only
  split
  · exact .next _
  · split
    · exact exec_goesOn _ _
    · rename_i e _
      cases e with
      | noDpoOperation => exact require_goesOn .dpo (.next _)
      | truncated => exact .next _

/-- Inside the segment table of R53 the fetch itself never fails. -/
theorem fetchExecute_goesOn (hs : s.segsOk = true) : GoesOnUnlessAbsent s (fetchExecute s) := by
  rcases fetchExecute_cases s with ⟨-, h⟩ | ⟨-, -, h⟩ | ⟨-, hin, hout, -⟩ | ⟨-, -, -, h⟩
  · rw [h]
    exact .next _
  · rw [h]
    exact .next _
  · have := code_inStore s _ hs hin
    omega
  · rw [h]
    have hgo := execute_goesOn (s.readWord (s.codeAddr (s.x .pc))) (s.setX .pc (s.x .pc + 2))
    generalize execute _ _ = r at hgo
    cases hgo with
    | next t => exact .next t
    | absent k hk => exact .absent k hk

/-- Settles O9: an admitted table makes every fetch succeed, and an execute phase is refused only for its channel. -/
theorem stepStopsOnlyByRefusal : Obligations.StepStopsOnlyByRefusal := by
  unfold Obligations.StepStopsOnlyByRefusal
  intro s
  cases hsegs : (applyGap s).segsOk with
  | false => exact .inr (.inl ⟨by simp [step, runSequencer, hsegs], rfl⟩)
  | true =>
    cases hhalt : (applyGap s).halted with
    | true => exact .inl ⟨_, step_halted hsegs hhalt⟩
    | false =>
      have hgo : GoesOnUnlessAbsent (applyGap s) (step s) := by
        rw [step_cycle s hsegs hhalt]
        have hfetch := (fetchExecute_goesOn (s := (applyGap s).openFaultLatch) hsegs).thenResolve
        unfold cycle
        generalize thenResolve _ = r at hfetch
        cases hfetch with
        | next t => exact .next t
        | absent k hk => exact .absent k hk
      generalize step s = r at hgo
      cases hgo with
      | next t => exact .inl ⟨t, rfl⟩
      | absent k hk => exact .inr (.inr ⟨k, rfl, hk⟩)

/-! ### The one action of a quiet block (R62, R205) -/

theorem lookupPort_ports_length {a : Word} {p : Port} (h : s.lookupPort a = some p) : 0 < s.ports.length :=
  List.length_pos_of_mem (lookupPort_mem s a p h)

/-- An action that stays queued has found a port. -/
theorem ports_length_pos_of_ongoing {a a' : Action} {t : State} (h : handle a s = (t, .ongoing a')) :
    0 < s.ports.length := by
  have chunk {x : Transfer} {u v : State} (hx : moveChunk x u = (v, .ongoing a')) : 0 < u.ports.length := by
    rcases moveChunk_cases x u with hfail | ⟨p, m, hp, -⟩
    · rw [hfail] at hx
      cases hx
    · exact lookupPort_ports_length hp
  obtain ⟨x, n, rfl, hi, -⟩ := handle_ongoing a a' s t h
  have hx : (if x.started then moveChunk x s else startIndirect x s) = (t, .ongoing a') := by
    simpa [handle, handleTransfer, hi] using h
  split at hx
  · exact chunk hx
  · rcases startIndirect_cases s x with ⟨k, hk⟩ | ⟨p, m, regs, f, w, z, c, hadm, hk⟩
    · rw [hk] at hx
      cases hx
    · exact lookupPort_ports_length (admission_some s x.port x.dir p m hadm).1

theorem withQueues_self {q o : List Action} (hq : s.newQ = q) (ho : s.ongoing = o) : s.withQueues q o = s := by
  subst hq ho
  rfl

section Single

variable {a a' : Action} {t : State}

/-- A quiet block with one action in the new queue starts its pass with the handler of that action (R205). -/
theorem newPass_single (hquiet : s.quiet) (hdepth : 0 < s.cfg.newQDepth) :
    resolve a (s.withQueues [a] []) = ((handle a s).1.withQueues [a] [], (handle a s).2) ∧
      ∃ k, newPass (s.withQueues [a] []) = resolveNew [a] (k + 1) s.ongoingCapacity (s.withQueues [a] []) := by
  obtain ⟨-, -, hanswers⟩ := hquiet
  obtain ⟨k, hk⟩ : ∃ k, s.cfg.newQDepth = k + 1 := Nat.exists_eq_add_one.mpr hdepth
  refine ⟨?_, k, ?_⟩
  · rw [resolve_default a (s.withQueues [a] []) hanswers, handle_withQueues]
  · rw [← hk]
    rfl

/-- The handler leaves the queues of a quiet block empty (R205). -/
theorem handle_quiet_queues (hquiet : s.quiet) (h : (handle a s).1 = t) : t.newQ = [] ∧ t.ongoing = [] := by
  obtain ⟨hnewQ, hongoing, -⟩ := hquiet
  obtain ⟨-, -, -, hnew, hon, -⟩ := handle_keeps a s
  subst h
  exact ⟨hnew.trans hnewQ, hon.trans hongoing⟩

theorem resolveCycle_single_complete (hquiet : s.quiet) (hdepth : 0 < s.cfg.newQDepth)
    (h : handle a s = (t, .complete)) : resolveCycle (s.withQueues [a] []) = t := by
  obtain ⟨hres, k, hpass⟩ := newPass_single (a := a) hquiet hdepth
  obtain ⟨hnew, hon⟩ := handle_quiet_queues hquiet (congrArg Prod.fst h)
  rw [h] at hres
  rw [resolveNew_complete a [] k _ _ _ hres, resolveNew_nil] at hpass
  rw [resolveCycle_run _ _ _ hpass]
  exact withQueues_self hnew hon

theorem resolveCycle_single_ongoing (hquiet : s.quiet) (hdepth : 0 < s.cfg.newQDepth)
    (hroom : s.cfg.ongoingQDepth ≠ some 0) (h : handle a s = (t, .ongoing a')) :
    resolveCycle (s.withQueues [a] []) = { t with ongoing := [a'] } := by
  obtain ⟨hres, k, hpass⟩ := newPass_single (a := a) hquiet hdepth
  obtain ⟨hnew, -⟩ := handle_quiet_queues hquiet (congrArg Prod.fst h)
  have hplace : 0 < s.ongoingCapacity := by
    unfold State.ongoingCapacity
    cases hcap : s.cfg.ongoingQDepth with
    | none => exact ports_length_pos_of_ongoing h
    | some n => exact Nat.pos_of_ne_zero fun h0 => hroom (h0 ▸ hcap)
  obtain ⟨r, hr⟩ : ∃ r, s.ongoingCapacity = r + 1 := Nat.exists_eq_add_one.mpr hplace
  rw [h] at hres
  rw [hr, resolveNew_ongoing a a' [] k r _ _ hres, resolveNew_nil] at hpass
  rw [resolveCycle_run _ _ _ hpass]
  exact withQueues_self (s := { t with ongoing := [a'] }) hnew rfl

theorem resolveCycle_single_failed (hquiet : s.quiet) (hdepth : 0 < s.cfg.newQDepth)
    (h : handle a s = (t, .failed)) : resolveCycle (s.withQueues [a] []) = t.setFault .spv 0 := by
  obtain ⟨hres, k, hpass⟩ := newPass_single (a := a) hquiet hdepth
  obtain ⟨hnew, hon⟩ := handle_quiet_queues hquiet (congrArg Prod.fst h)
  rw [h] at hres
  rw [resolveNew_failed a [] k _ _ _ hres] at hpass
  rw [resolveCycle_stopped _ _ _ hpass]
  exact withQueues_self (s := t.setFault .spv 0) hnew hon

end Single

/-- Settles O47: by the handler's three results; an action that stays queued has found a port, so the ongoing queue has a
place for it. -/
theorem queuedActionResolvesInItsCycle : Obligations.QueuedActionResolvesInItsCycle := by
  unfold Obligations.QueuedActionResolvesInItsCycle
  intro i a s hquiet hdepth hroom hexec
  have hqueued : { s with newQ := [a] } = s.withQueues [a] [] := by
    rw [← hquiet.2.1]
    rfl
  rw [hexec, hqueued, thenResolve]
  rcases h : handle a s with ⟨t, _ | a' | _⟩
  · rw [resolveCycle_single_complete hquiet hdepth h]
  · rw [resolveCycle_single_ongoing hquiet hdepth hroom h]
  · rw [resolveCycle_single_failed hquiet hdepth h]

end Sys2Proof.Machine
end

/-! ## Reserved encodings, opcodes without a handler, and `HCF` (R97, R98, R191, R193) -/

section

namespace Sys2Proof

/-! ### The reserved positions of a form (R97) -/

/-- The lowest reserved position of an instruction's form and how many there are, from the table of R97. -/
def reservedSpan : Instr → Nat × Nat
  | .addR _ _ _ | .subR _ _ _ | .asgnR _ _ _ | .shftR _ _ _ => (0, 8)
  | .mulR _ _ | .divR _ _ => (0, 10)
  | .mulL _ _ _ | .divL _ _ _ => (8, 2)
  | .shftL _ _ _ => (5, 3)
  | .andR _ _ _ | .orR _ _ _ | .xorR _ _ _ | .not _ _ _ => (0, 6)
  | .andM _ _ _ _ | .orM _ _ _ _ | .xorM _ _ _ _ => (4, 1)
  | .cbxLr _ _ _ | .ld _ _ | .st _ _ => (0, 9)
  | .cbxRel _ _ _ _ => (8, 1)
  | .dpq _ _ => (3, 9)
  | .dpoRelq _ _ | .dpoRd _ | .dpoWr _ | .dpoRdI _ | .dpoWrI _ => (2, 9)
  | .pop _ _ | .push _ _ => (4, 7)
  | .sig _ => (0, 12)
  | .addL _ _ | .subL _ _ | .asgnL _ _ | .ini0D _ | .ini0E _ | .hcf _ => (0, 0)

theorem reservedMask_eq (i : Instr) :
    Machine.reservedMask i = put (reservedSpan i).1 (BitVec.allOnes (reservedSpan i).2) := by
  cases i <;> rfl

/-- A mask of consecutive positions keeps the field at these positions. -/
theorem field_ne_zero_of_mask {w : Word} {lo n : Nat} (h : w &&& put lo (BitVec.allOnes n) ≠ 0) :
    field w lo n ≠ 0 := by
  intro hzero
  refine h (word_ext _ _ fun k _ => ?_)
  have hbit : bit (0 : Word) k = false := by simp [bit]
  rw [hbit, bit_and, bit_put, BitVec.getLsbD_allOnes]
  by_cases hk : lo ≤ k ∧ k - lo < n
  · have hpos : lo + (k - lo) = k := by omega
    have hclear := bit_eq_field w lo n (k - lo) hk.2
    rw [hzero, hpos] at hclear
    simp [hclear]
  · rcases not_and_or.mp hk with hlow | hhigh
    · simp [hlow]
    · simp [hhigh]

theorem field_one_eq_zero {w : Word} {k : Nat} : field w k 1 = 0#1 ↔ bit w k = false := by
  have hbit := bit_eq_field w k 1 0 (by omega)
  rw [Nat.add_zero] at hbit
  rw [hbit]
  generalize field w k 1 = x
  revert x
  decide

/-- A bit set among the reserved positions of the word is one of the term's reserved operand. -/
theorem reservedBitSet_of_field {i : Instr} (h : field (encode i) (reservedSpan i).1 (reservedSpan i).2 ≠ 0) :
    i.reservedBitSet = true := by
  cases i with
  | andM | orM | xorM | cbxRel => simpa [reservedSpan, encode, Instr.reservedBitSet, field_one_eq_zero] using h
  | addL | subL | asgnL | ini0D | ini0E | hcf => exact absurd BitVec.of_length_zero h
  | _ => simpa [reservedSpan, encode, Instr.reservedBitSet] using h

/-- The reserved-position check of the table of R97 is the one by operands. -/
theorem reservedBitSet_of_mask {w : Word} {i : Instr} (hi : decodeWord w = .ok i)
    (h : w &&& Machine.reservedMask i ≠ 0) : i.reservedBitSet = true := by
  obtain ⟨-, rfl⟩ := writtenAs_of_decodeWord hi
  rw [reservedMask_eq] at h
  exact reservedBitSet_of_field (field_ne_zero_of_mask h)

/-- Every operation of `DPO` needs the one channel and reserves the same positions (R92, R97). -/
theorem decodeDpo_class {w : Word} {i : Instr} (h : decodeDpo w = .ok i) :
    Machine.channelOf i = some .dpo ∧ Machine.reservedMask i = 0x07FC := by
  unfold decodeDpo at h
  dsimp only at h
  split at h <;> cases h <;> exact ⟨rfl, rfl⟩

theorem field_toNat (w : Word) (lo n : Nat) : (field w lo n).toNat = w.toNat / 2 ^ lo % 2 ^ n := by
  rw [field, BitVec.extractLsb'_toNat, Nat.shiftRight_eq_div_pow]

end Sys2Proof

namespace Sys2Proof.Machine

variable {s : State} {w : Word} {i : Instr}

/-! ### Reserved encodings (R97, R98) -/

theorem guardReserved_of_reserved {bad : Bool} (hbad : bad = true) (s : State) (r : Result) :
    guardReserved bad s r = .next (s.setFault .res 0) := by
  rw [hbad, guardReserved_true]

theorem queryKind_eq_none {q : BitVec 3} (hq : 6 ≤ q.toNat) : queryKind q = none := by
  revert q
  decide

/-- `RES(0)` and nothing else where a reserved position is set or a reserved value used, once the execution is
attempted. -/
theorem exec_reserved (hi : i.reserved = true) (ha : attempted i s) : exec i s = .next (s.setFault .res 0) := by
  unfold Instr.reserved at hi
  cases i with
  | addL | subL | ini0D | ini0E | hcf => cases hi
  | ld | st | dpoRelq | dpoRd | dpoWr | dpoRdI | dpoWrI | pop | push | sig =>
    exact request_reserved (ha _ rfl) (by simpa [Instr.reservedBitSet, Instr.reservedValueUsed] using hi)
  | dpq v q =>
    have hi' : v ≠ 0 ∨ 6 ≤ q.toNat := by simpa [Instr.reservedBitSet, Instr.reservedValueUsed] using hi
    have hexec : exec (.dpq v q) s = execDpq v q s := rfl
    rw [hexec, execDpq, require_present .dpq s _ (ha _ rfl)]
    by_cases hv : v = 0
    · subst hv
      rw [queryKind_eq_none (hi'.resolve_left (absurd rfl))]
      rfl
    · exact guardReserved_of_ne hv s _
  | _ => exact guardReserved_of_reserved (by simpa [Instr.reservedBitSet, Instr.reservedValueUsed] using hi) s _

/-- The same for a word, once its opcode has a handler. -/
theorem execute_reserved (hd : decodeWord w = .ok i) (hr : s.handlerRemoved (field w 12 4) = false)
    (hi : i.reserved = true) (ha : attempted i s) :
    execute w s = .next (State.setFault { s with ir := w } .res 0) := by
  have hexec : exec i (s.setIr w) = .next ((s.setIr w).setFault .res 0) := exec_reserved hi ha
  rw [execute_ok w s i hr hd, hexec]
  rfl

/-- A word of no row, once the channel of its opcode is connected (R98). -/
theorem execute_noRow (hop : field w 12 4 = 0xA) (ht : field w 0 2 = 0)
    (hr : s.handlerRemoved (field w 12 4) = false) (hk : s.channelPresent .dpo = true) :
    execute w s = .next (State.setFault { s with ir := w } .res 0) := by
  have hr' : (s.setIr w).handlerRemoved (field w 12 4) = false := hr
  have hreject : rejectDpoType0 (s.setIr w) = .next ((s.setIr w).setFault .res 0) := require_present .dpo (s.setIr w) _ hk
  simp only [execute, hr', decodeWord_noRow hop ht, rejectWord, hreject]
  rfl

theorem attempted_of_channel {k : Channel} (hi : channelOf i = some k) (hk : s.channelPresent k = true) :
    attempted i s := fun j hj => by
  rw [hi] at hj
  cases hj
  exact hk

/-- Settles O11: a word with a bit under its form's mask is the word of a term with its reserved operand not zero, and a
`DPO` word that is no term's is refused an operation all the same. -/
theorem reservedBitRaisesRes : Obligations.ReservedBitRaisesRes := by
  unfold Obligations.ReservedBitRaisesRes
  have hterm (w : Word) (i : Instr) (s : State) (hd : decodeWord w = .ok i) (hmask : w &&& reservedMask i ≠ 0)
      (hr : s.handlerRemoved (field w 12 4) = false) (ha : attempted i s) :
      execute w s = .next (State.setFault { s with ir := w } .res 0) :=
    execute_reserved hd hr (by simp [Instr.reserved, reservedBitSet_of_mask hd hmask]) ha
  refine ⟨hterm, fun w s hop hmask hr hk => ?_⟩
  by_cases ht : field w 0 2 = 0
  · exact execute_noRow hop ht hr hk
  · have hdpo := decodeDpo_typed ht
    obtain ⟨hchannel, hsame⟩ := decodeDpo_class hdpo
    exact hterm w _ s ((decodeWord_dpo hop).trans hdpo) (hsame ▸ hmask) hr (attempted_of_channel hchannel hk)

/-- Settles O12: each of the five classes of words decodes to a term with a reserved value, or to none. -/
theorem reservedValueRaisesRes : Obligations.ReservedValueRaisesRes := by
  unfold Obligations.ReservedValueRaisesRes
  rintro w s hr (⟨hlow, hhigh⟩ | ⟨hop, hq, hk⟩ | ⟨hop, ht, hk⟩ | ⟨hop, ht, hj, hk⟩ | ⟨hop, hm, hk⟩)
  case inl =>
    have hop : field w 12 4 = 0x4 := BitVec.eq_of_toNat_eq (by rw [field_toNat]; simp; omega)
    have ha : field w 10 2 = 3 := BitVec.eq_of_toNat_eq (by rw [field_toNat]; simp; omega)
    have hb : field w 8 2 = 3 := BitVec.eq_of_toNat_eq (by rw [field_toNat]; simp; omega)
    have hd : decodeWord w = .ok (.asgnL .pc (field w 0 8)) := by
      rw [decodeWord_asgn hop, ha, hb, if_pos rfl]
      rfl
    exact execute_reserved hd hr rfl nofun
  case inr.inl =>
    exact execute_reserved (decodeWord_dpq hop) hr (by simp [Instr.reserved, Instr.reservedValueUsed, hq])
      (attempted_of_channel rfl hk)
  case inr.inr.inl => exact execute_noRow hop ht hr hk
  case inr.inr.inr.inl =>
    have hd : decodeWord w = .ok (.dpoRelq true (field w 2 9)) := by
      rw [decodeWord_dpo hop, decodeDpo_typed (by rw [ht]; decide), if_pos ht, hj]
    exact execute_reserved hd hr (by simp [Instr.reserved, Instr.reservedValueUsed]) (attempted_of_channel rfl hk)
  case inr.inr.inr.inr =>
    have hd := decodeWord_stk hop
    cases h11 : bit w 11 <;> rw [h11] at hd hk
    · exact execute_reserved hd hr (by simp [Instr.reserved, Instr.reservedValueUsed, hm])
        (attempted_of_channel rfl hk)
    · exact execute_reserved hd hr (by simp [Instr.reserved, Instr.reservedValueUsed, hm])
        (attempted_of_channel rfl hk)

/-! ### Opcodes without a handler (R193) -/

theorem handlerRemoved_unassigned {op : BitVec 4} (h : op = 0xD ∨ op = 0xE) : s.handlerRemoved op = false := by
  rcases h with rfl | rfl <;> simp [State.handlerRemoved]

theorem opcode_toNat (w : Word) : (field w 12 4).toNat = w.toNat / 4096 := by
  have hw := w.isLt
  rw [field_toNat]
  omega

/-- The argument of `INI` is the opcode (R193). -/
theorem zeroExtend_opcode (w : Word) : (field w 12 4).zeroExtend 12 = BitVec.ofNat 12 (w.toNat / 4096) := by
  rw [← opcode_toNat]
  exact (BitVec.ofNat_toNat 12 _).symm

theorem execute_unassigned (hop : field w 12 4 = 0xD ∨ field w 12 4 = 0xE) :
    execute w s = .next ((s.setIr w).setFault .ini ((field w 12 4).zeroExtend 12)) := by
  have hr : (s.setIr w).handlerRemoved (field w 12 4) = false := handlerRemoved_unassigned hop
  rcases hop with hop | hop
  · rw [execute_ok w s _ hr (decodeWord_ini0D hop), hop]
    rfl
  · rw [execute_ok w s _ hr (decodeWord_ini0E hop), hop]
    rfl

/-- Settles O13: an unassigned opcode raises `INI` in its row's instruction, any other one without its strap in the
engine. -/
theorem opcodeWithoutHandlerRaisesIni : Obligations.OpcodeWithoutHandlerRaisesIni := by
  unfold Obligations.OpcodeWithoutHandlerRaisesIni
  refine ⟨fun w s h => ?_, fun u s => rfl, fun u s => rfl⟩
  rw [← zeroExtend_opcode]
  by_cases hop : field w 12 4 = 0xD ∨ field w 12 4 = 0xE
  · exact execute_unassigned hop
  · have hstrap : s.cfg.decodeTable.getLsbD (w.toNat / 4096) = false := by tauto
    obtain ⟨hD, hE⟩ := not_or.mp hop
    refine execute_removed w s ?_
    have hassigned : (field w 12 4 != 0xD && field w 12 4 != 0xE) = true := by
      rw [bne_iff_ne.mpr hD, bne_iff_ne.mpr hE]
      rfl
    rw [State.handlerRemoved, opcode_toNat, Bool.and_assoc, hassigned, Bool.and_true]
    exact congrArg (!·) hstrap

/-! ### `HCF` (R191) -/

/-- The fault word of `HCF` is its kind over its operand. -/
theorem faultWord_hcf (x : BitVec 12) : faultWord .hcf x = 0x1000 ||| x.setWidth 16 := by
  have hx := x.isLt
  have hjoin : 4096 + x.toNat = 4096 ||| x.toNat := Nat.two_pow_add_eq_or_of_lt hx 1
  have hcode : FaultKind.hcf.code.toNat * 4096 = 4096 := rfl
  have hwide : (x.setWidth 16).toNat = x.toNat := by
    rw [BitVec.toNat_setWidth]
    exact Nat.mod_eq_of_lt (by omega)
  apply BitVec.eq_of_toNat_eq
  rw [faultWord_eq_ofNat, BitVec.toNat_or, hwide, hcode, BitVec.toNat_ofNat, Nat.mod_eq_of_lt (by omega), hjoin]
  rfl

/-- Settles O14: `HCF` is one `SetFault`, after which the resolve phase runs as after any execute phase. -/
theorem haltRule : Obligations.HaltRule := by
  unfold Obligations.HaltRule
  refine ⟨fun w => decodeWord_hcf, fun x s => ?_, fun x s hclear => ?_⟩
  · rw [← faultWord_hcf]
    rfl
  · have hexec : exec (.hcf x) s = .next (s.setFault .hcf x) := rfl
    rw [hexec, setFault_open s .hcf x hclear, faultWord_eq_ofNat]
    rfl

end Sys2Proof.Machine
end

/-! ## `ADD`, `SUB`, `MUL`, `DIV` (R111 to R116, R152) -/

section

namespace Sys2Proof.Machine

variable {s : State}

/-! ### Operands and flags as numbers -/

theorem zext16_toNat (l : BitVec 8) : (zext16 l).toNat = l.toNat := by
  have hl := l.isLt
  rw [zext16, BitVec.zeroExtend, BitVec.toNat_setWidth]
  exact Nat.mod_eq_of_lt (by omega)

/-- The operand of `ADD` and `SUB` as a number, doubled for destination `PC` (R111). -/
def scaledOperand (b : Reg) (n : Nat) : Nat :=
  if b = .pc then n * 2 % 65536 else n

theorem scaleForPc_toNat (b : Reg) (v : Word) : (scaleForPc b v).toNat = scaledOperand b v.toNat := by
  cases b with
  | pc =>
    change (v + v).toNat = v.toNat * 2 % 65536
    rw [BitVec.toNat_add, Nat.mul_two]
  | r0 | r1 | lr => rfl

/-- `SR` as a number: 2 for `C`, 1 for `Z` (R25). -/
theorem flagsWord_eq_ofNat (z c : Prop) [Decidable z] [Decidable c] :
    flagsWord (decide z) (decide c) = BitVec.ofNat 16 ((if c then 2 else 0) + (if z then 1 else 0)) := by
  by_cases hz : z <;> by_cases hc : c <;> simp [flagsWord, hz, hc]

/-! ### `ADD` (R111) -/

section Add

variable (x y : Word)

theorem isZero_add : isZero (x + y) = decide ((x.toNat + y.toNat) % 65536 = 0) := by
  rw [isZero_eq, BitVec.toNat_add]

theorem addCarry_add : addCarry x (x + y) = decide (65536 ≤ x.toNat + y.toNat) := by
  have hx := x.isLt
  have hy := y.isLt
  rw [addCarry, BitVec.toNat_add]
  exact decide_eq_decide.mpr (by omega)

theorem add_eq_ofNat : x + y = BitVec.ofNat 16 (x.toNat + y.toNat) :=
  BitVec.eq_of_toNat_eq (by rw [BitVec.toNat_add, BitVec.toNat_ofNat])

end Add

theorem addTo_eq {v : Word} {n : Nat} (hv : v.toNat = n) (b : Reg) (s : State) :
    addTo b v s =
      { s with
        regs := s.regs.set b (BitVec.ofNat 16 ((s.x b).toNat + scaledOperand b n))
        sr := BitVec.ofNat 16 ((if 65536 ≤ (s.x b).toNat + scaledOperand b n then 2 else 0) +
          (if ((s.x b).toNat + scaledOperand b n) % 65536 = 0 then 1 else 0)) } := by
  subst hv
  rw [← scaleForPc_toNat, ← flagsWord_eq_ofNat, ← addCarry_add, ← isZero_add, ← add_eq_ofNat]
  rfl

/-- Settles O17: both forms are `addTo`, of the source register or of the literal. -/
theorem addRule : Obligations.AddRule := by
  unfold Obligations.AddRule
  intro sum
  refine ⟨fun w => decodeWord_add, fun a b v s hv => guardReserved_of_ne hv s _, fun a b s _ => ?_, fun b l s => ?_⟩
  · exact congrArg Host.Outcome.next (addTo_eq rfl b s)
  · exact congrArg Host.Outcome.next (addTo_eq (zext16_toNat l) b s)

/-! ### `SUB` (R112) -/

section Sub

variable (x y : Word)

theorem sub_eq_ofNat :
    x - y = BitVec.ofNat 16 (if x.toNat < y.toNat then x.toNat + 65536 - y.toNat else x.toNat - y.toNat) := by
  have hx := x.isLt
  have hy := y.isLt
  apply BitVec.eq_of_toNat_eq
  rw [BitVec.toNat_sub, BitVec.toNat_ofNat]
  split <;> omega

theorem isZero_sub : isZero (x - y) = decide (x.toNat = y.toNat) := by
  have hx := x.isLt
  have hy := y.isLt
  rw [isZero_eq, BitVec.toNat_sub]
  exact decide_eq_decide.mpr (by omega)

theorem subBorrow_sub : subBorrow x (x - y) = decide (x.toNat < y.toNat) := by
  have hx := x.isLt
  have hy := y.isLt
  rw [subBorrow, BitVec.toNat_sub]
  exact decide_eq_decide.mpr (by omega)

end Sub

theorem subFrom_eq {v : Word} {n : Nat} (hv : v.toNat = n) (b : Reg) (s : State) :
    subFrom b v s =
      { s with
        regs := s.regs.set b (BitVec.ofNat 16
          (if (s.x b).toNat < scaledOperand b n then (s.x b).toNat + 65536 - scaledOperand b n
            else (s.x b).toNat - scaledOperand b n))
        sr := BitVec.ofNat 16 ((if (s.x b).toNat < scaledOperand b n then 2 else 0) +
          (if (s.x b).toNat = scaledOperand b n then 1 else 0)) } := by
  subst hv
  rw [← scaleForPc_toNat, ← flagsWord_eq_ofNat, ← subBorrow_sub, ← isZero_sub, ← sub_eq_ofNat]
  rfl

/-- Settles O18: both forms are `subFrom`, of the source register or of the literal. -/
theorem subRule : Obligations.SubRule := by
  unfold Obligations.SubRule
  intro diff
  refine ⟨fun w => decodeWord_sub, fun a b v s hv => guardReserved_of_ne hv s _, fun a b s _ => ?_, fun b l s => ?_⟩
  · exact congrArg Host.Outcome.next (subFrom_eq rfl b s)
  · exact congrArg Host.Outcome.next (subFrom_eq (zext16_toNat l) b s)

/-! ### `SUB` then `CBX` (R113, R152) -/

/-- The flags a subtraction leaves are its comparison (R113). -/
theorem subFrom_flags {b : Reg} (hb : b ≠ .pc) (v : Word) (s : State) :
    (subFrom b v s).flagZ = decide ((s.x b).toNat = v.toNat) ∧
      (subFrom b v s).flagC = decide ((s.x b).toNat < v.toNat) := by
  have hscale : scaleForPc b v = v := BitVec.eq_of_toNat_eq (by rw [scaleForPc_toNat, scaledOperand, if_neg hb])
  unfold subFrom
  dsimp only
  rw [flagZ_setFlags, flagC_setFlags, hscale]
  exact ⟨isZero_sub _ _, subBorrow_sub _ _⟩

theorem subFrom_pc {b : Reg} (hb : b ≠ .pc) (v : Word) (s : State) : (subFrom b v s).x .pc = s.x .pc := by
  simp [subFrom, hb]

/-- A relative target with an offset other than 0 is another address. -/
theorem relativeTarget_ne {f : BitVec 8} (hf : f ≠ 0) (pc : Word) : relativeTarget pc f ≠ pc := by
  intro h
  have hl := f.isLt
  have hzero : sext16 f + sext16 f = 0 := by simpa [relativeTarget] using h
  have hnat := congrArg BitVec.toNat hzero
  rw [BitVec.toNat_add, sext16_toNat] at hnat
  change _ = 0 at hnat
  have hpos : f.toNat ≠ 0 := fun h0 => hf (BitVec.eq_of_toNat_eq h0)
  split at hnat <;> omega

theorem branchTo_pc (z c : Bool) (target : Word) (s : State) :
    (branchTo z c target s).x .pc = if branchTaken z c s then target else s.x .pc := by
  rw [branchTo_eq]
  cases branchTaken z c s with
  | false => rfl
  | true => exact (regs_get_set s.regs .pc .pc target).trans (if_pos rfl)

/-- Settles O53: the subtraction leaves the comparison in the flags and `PC` alone, and a taken branch moves `PC`. -/
theorem compareThenBranch : Obligations.CompareThenBranch := by
  unfold Obligations.CompareThenBranch
  intro a b z c f s t _ hb hf hsub
  obtain rfl : subFrom b (s.x a) s = t := Host.Outcome.next.inj hsub
  obtain ⟨hz, hc⟩ := subFrom_flags hb (s.x a) s
  refine ⟨_, rfl, ?_⟩
  have htarget := relativeTarget_ne hf (s.x .pc)
  have htaken : branchTaken z c (subFrom b (s.x a) s) = true ↔
      (z = true ∧ (s.x b).toNat = (s.x a).toNat) ∨ (c = true ∧ (s.x b).toNat < (s.x a).toNat) := by
    simp only [branchTaken, hz, hc, Bool.or_eq_true, Bool.and_eq_true, decide_eq_true_eq]
  rw [← htaken, branchTo_pc, subFrom_pc hb]
  split
  · rename_i ht
    exact iff_of_true htarget ht
  · rename_i ht
    exact iff_of_false (not_not_intro rfl) ht

/-! ### `MUL` (R114) -/

theorem mulBy_eq {v : Word} {m : Nat} (hv : v.toNat = m) (d : Reg) (s : State) :
    mulBy d v s =
      { s with
        regs := (s.regs.set d (BitVec.ofNat 16 ((s.x d).toNat * m))).set .lr
          (BitVec.ofNat 16 ((s.x d).toNat * m / 65536))
        sr := flagsWord (decide ((s.x d).toNat = 0 ∨ m = 0)) (decide ((s.x d).toNat * m / 65536 ≠ 0)) } := by
  subst hv
  have hlow : BitVec.ofNat 16 ((s.x d).toNat * v.toNat % 65536) = BitVec.ofNat 16 ((s.x d).toNat * v.toNat) :=
    BitVec.eq_of_toNat_eq (by simp)
  have hzero : ((s.x d).toNat * v.toNat == 0) = decide ((s.x d).toNat = 0 ∨ v.toNat = 0) := by
    rw [Bool.beq_eq_decide_eq]
    exact decide_eq_decide.mpr Nat.mul_eq_zero
  have hcarry : decide (65536 ≤ (s.x d).toNat * v.toNat) = decide ((s.x d).toNat * v.toNat / 65536 ≠ 0) :=
    decide_eq_decide.mpr (by omega)
  rw [← hlow, ← hzero, ← hcarry]
  rfl

/-- Settles O19: both forms are `mulBy`, of the other general register or of the literal. -/
theorem mulRule : Obligations.MulRule := by
  unfold Obligations.MulRule
  intro product
  refine ⟨fun w => decodeWord_mul, fun d v s hv => guardReserved_of_ne hv s _,
    fun d v l s hv => guardReserved_of_ne hv s _, fun s => ?_, fun s => ?_, fun l s => ?_, fun l s => ?_⟩
  · exact congrArg Host.Outcome.next (mulBy_eq rfl .r0 s)
  · exact congrArg Host.Outcome.next (mulBy_eq rfl .r1 s)
  · exact congrArg Host.Outcome.next (mulBy_eq (zext16_toNat l) .r0 s)
  · exact congrArg Host.Outcome.next (mulBy_eq (zext16_toNat l) .r1 s)

/-! ### `DIV` (R116) -/

theorem divBy_zero {v : Word} (hv : v.toNat = 0) (d : Reg) (s : State) :
    divBy d v s = .next (s.setFault .div 0) := by
  obtain rfl : v = 0 := BitVec.eq_of_toNat_eq hv
  rfl

/-- The quotient and the remainder are the two numbers the division theorem names. -/
theorem divBy_eq {v : Word} {d : Reg} {q m : Nat} (hm : m < v.toNat) (hdiv : (s.x d).toNat = q * v.toNat + m) :
    divBy d v s =
      .next { s with
        regs := (s.regs.set d (BitVec.ofNat 16 q)).set .lr (BitVec.ofNat 16 m)
        sr := flagsWord (decide (q = 0)) (decide (m ≠ 0)) } := by
  have hv : v ≠ 0 := by
    rintro rfl
    exact absurd hm (Nat.not_lt_zero m)
  have hq : (s.x d).toNat / v.toNat = q := by
    rw [hdiv, Nat.mul_comm, Nat.mul_add_div (by omega), Nat.div_eq_of_lt hm, Nat.add_zero]
  have hr : (s.x d).toNat % v.toNat = m := by
    rw [hdiv, Nat.mul_comm, Nat.mul_add_mod, Nat.mod_eq_of_lt hm]
  rw [divBy, if_neg hv, hq, hr, ← Bool.beq_eq_decide_eq, decide_not, ← Bool.beq_eq_decide_eq]
  rfl

/-- Settles O20: both forms are `divBy`, by the other general register or by the literal. -/
theorem divRule : Obligations.DivRule := by
  unfold Obligations.DivRule
  intro quotient
  have hby {d : Reg} {v : Word} {n : Nat} (hv : v.toNat = n) (s : State) : quotient d n s (divBy d v s) := by
    subst hv
    exact ⟨fun h => divBy_zero h d s, fun q m hm hdiv => divBy_eq hm hdiv⟩
  exact ⟨fun w => decodeWord_div, fun d v s hv => guardReserved_of_ne hv s _,
    fun d v l s hv => guardReserved_of_ne hv s _, fun s => hby rfl s, fun s => hby rfl s,
    fun l s => hby (zext16_toNat l) s, fun l s => hby (zext16_toNat l) s⟩

end Sys2Proof.Machine
end

/-! ## `DPQ`, `DPO` and `SIG`, execute phase, and a load after a store (R62, R181, R184, R188) -/

section

namespace Sys2Proof.Machine

variable {s : State}

/-- Settles O28: nothing between the two handlers changes memory or the segment table. -/
theorem loadAfterStoreReturnsWord : Obligations.LoadAfterStoreReturnsWord := by
  unfold Obligations.LoadAfterStoreReturnsWord
  intro addr word sr r regs s t hs heven hin hstore
  have hodd := isOdd_of_even heven
  have hroom := data_inStore s addr 2 hs hin
  rw [handle, handleStore_ok addr word s hodd hin hroom] at hstore
  obtain rfl : (s.writeWord (s.dataAddr addr) word).setFlags (isZero word) false = t := congrArg Prod.fst hstore
  refine ⟨_, handleLoad_ok addr r _ hodd hin hroom, ?_, fun q hq => ?_⟩
  · exact (regs_get_set regs r r _).trans ((if_pos rfl).trans (readWord_writeWord_same s _ word))
  · exact (regs_get_set regs r q _).trans (if_neg hq.symm)

/-! ### `DPQ` (R181) -/

theorem execDpq_accepted (hk : s.channelPresent .dpq = true) {q : BitVec 3} {k : QueryKind}
    (hq : queryKind q = some k) : exec (.dpq 0 q) s = .next { s with newQ := s.newQ ++ [.query s.regs.r0 k] } := by
  have hexec : exec (.dpq 0 q) s = execDpq 0 q s := rfl
  rw [hexec, execDpq, require_present .dpq s _ hk, hq]
  rfl

/-- Settles O33: the six kinds are the values below 6 of the kind field. -/
theorem queryQueueRule : Obligations.QueryQueueRule := by
  unfold Obligations.QueryQueueRule
  refine ⟨fun w => decodeWord_dpq, fun v q s hk => exec_absent rfl hk, fun v q s h hk => ?_, fun s hk => ?_⟩
  · exact exec_reserved (by simpa [Instr.reserved, Instr.reservedBitSet, Instr.reservedValueUsed] using h)
      (attempted_of_channel rfl hk)
  · exact ⟨execDpq_accepted hk rfl, execDpq_accepted hk rfl, execDpq_accepted hk rfl, execDpq_accepted hk rfl,
      execDpq_accepted hk rfl, execDpq_accepted hk rfl⟩

/-! ### `DPO` (R184) -/

/-- Settles O35: every form is a `request`; the words of type 0 are no form's. -/
theorem deviceOpQueueRule : Obligations.DeviceOpQueueRule := by
  unfold Obligations.DeviceOpQueueRule
  intro queued
  refine ⟨?absent, ?reserved, ?indirect, ?type0, ?decode, ?queued⟩
  case absent =>
    intro v j s hk
    exact ⟨exec_absent rfl hk, exec_absent rfl hk, exec_absent rfl hk, exec_absent rfl hk, exec_absent rfl hk⟩
  case reserved =>
    intro v j s hv hk
    have hbad : (v != 0) = true := bne_iff_ne.mpr hv
    have hbad' : (v != 0 || j) = true := by rw [hbad, Bool.true_or]
    exact ⟨request_reserved hk hbad', request_reserved hk hbad, request_reserved hk hbad, request_reserved hk hbad,
      request_reserved hk hbad⟩
  case indirect => exact fun v s hk => request_reserved hk (Bool.or_true _)
  case type0 => exact fun w s hop ht hk hr => execute_noRow hop ht (hop ▸ hr) hk
  case decode => exact fun w hop ht => (decodeWord_dpo hop).trans (decodeDpo_typed ht)
  case queued =>
    intro s hk
    exact ⟨request_accepted hk rfl, request_accepted hk rfl, request_accepted hk rfl, request_accepted hk rfl,
      request_accepted hk rfl⟩

/-! ### `SIG` (R188) -/

/-- Settles O44: the one form is a `request` that carries the four registers. -/
theorem signalQueueRule : Obligations.SignalQueueRule := by
  unfold Obligations.SignalQueueRule
  exact ⟨fun w => decodeWord_sig, fun v s hk => exec_absent rfl hk,
    fun v s hv hk => request_reserved hk (bne_iff_ne.mpr hv), fun s hk => request_accepted hk rfl⟩

end Sys2Proof.Machine
end

/-! ## The mailbox state, admission and the query handler (R182, R183, R233, R252) -/

section

namespace Sys2Proof.Machine

variable {s : State} {p : Port} {m : Mailbox}

/-! ### The mailbox state (R233) -/

theorem mailboxState_no_mailbox (hm : p.mailbox = none) : mailboxState p = .unavailable := by
  simp [mailboxState, hm]

theorem mailboxState_device (hc : p.controller = .device) : mailboxState p = .unavailable := by
  cases hm : p.mailbox with
  | none => exact mailboxState_no_mailbox hm
  | some m => simp [mailboxState, hm, hc]

theorem mailboxState_program (hm : p.mailbox = some m) (hc : p.controller = .program) :
    mailboxState p =
      if p.handoffReadable then (if 0 < m.used then .readable else .exhausted)
      else (if 0 < m.free then .writeable else .exhausted) := by
  simp only [mailboxState, hm, hc]

theorem mailboxState_readable_iff :
    mailboxState p = .readable ↔
      p.controller = .program ∧ p.handoffReadable = true ∧ ∃ m, p.mailbox = some m ∧ 0 < m.bytes.length := by
  cases hc : p.controller with
  | device => simp [mailboxState_device hc]
  | program =>
    cases hm : p.mailbox with
    | none => simp [mailboxState_no_mailbox hm]
    | some m =>
      rw [mailboxState_program hm hc]
      cases p.handoffReadable <;> simp [ite_eq_iff, Mailbox.used, List.length_pos_iff]

theorem mailboxState_writeable_iff :
    mailboxState p = .writeable ↔
      p.controller = .program ∧ p.handoffReadable = false ∧ ∃ m, p.mailbox = some m ∧ m.bytes.length < m.cap := by
  cases hc : p.controller with
  | device => simp [mailboxState_device hc]
  | program =>
    cases hm : p.mailbox with
    | none => simp [mailboxState_no_mailbox hm]
    | some m =>
      rw [mailboxState_program hm hc]
      cases p.handoffReadable <;> simp [ite_eq_iff, Mailbox.free]

theorem mailboxState_exhausted_iff :
    mailboxState p = .exhausted ↔
      p.controller = .program ∧ ∃ m, p.mailbox = some m ∧
        if p.handoffReadable then m.bytes.length = 0 else m.cap ≤ m.bytes.length := by
  cases hc : p.controller with
  | device => simp [mailboxState_device hc]
  | program =>
    cases hm : p.mailbox with
    | none => simp [mailboxState_no_mailbox hm]
    | some m =>
      rw [mailboxState_program hm hc]
      cases p.handoffReadable with
      | false => simp [Mailbox.free]
      | true => cases hb : m.bytes <;> simp [Mailbox.used, hb]

/-! ### Admission (R252) -/

theorem admission_eq_some_iff {d : Direction} {a : Word} :
    admission s a d = some (p, m) ↔ admittedAt d s a p m := by
  constructor
  · intro h
    obtain ⟨hp, hm, hidle, hstate⟩ := admission_some s a d p m h
    cases d with
    | read =>
      obtain ⟨hc, hr, n, hn, hlen⟩ := mailboxState_readable_iff.mp hstate
      obtain rfl : m = n := Option.some.inj (hm.symm.trans hn)
      exact ⟨hp, hm, hidle, hc, hr, List.length_pos_iff.mp hlen⟩
    | write =>
      obtain ⟨hc, hr, n, hn, hlen⟩ := mailboxState_writeable_iff.mp hstate
      obtain rfl : m = n := Option.some.inj (hm.symm.trans hn)
      exact ⟨hp, hm, hidle, hc, hr, hlen⟩
  · intro h
    have hstate : mailboxState p = neededState d := by
      cases d with
      | read =>
        obtain ⟨-, hm, -, hc, hr, hlen⟩ := h
        exact mailboxState_readable_iff.mpr ⟨hc, hr, m, hm, List.length_pos_iff.mpr hlen⟩
      | write =>
        obtain ⟨-, hm, -, hc, hr, hlen⟩ := h
        exact mailboxState_writeable_iff.mpr ⟨hc, hr, m, hm, hlen⟩
    obtain ⟨hp, hm, hidle⟩ : s.lookupPort a = some p ∧ p.mailbox = some m ∧ p.busy = false := by
      cases d <;> exact ⟨h.1, h.2.1, h.2.2.1⟩
    simp [admission, hp, hm, hidle, hstate]

theorem admission_eq_none {d : Direction} {a : Word} (h : ∀ p m, ¬admittedAt d s a p m) : admission s a d = none :=
  Option.eq_none_iff_forall_ne_some.mpr fun ⟨p, m⟩ hsome => h p m (admission_eq_some_iff.mp hsome)

/-! ### The query handler (R182, R183) -/

/-- Settles O34: the answer is that of the port found, and the handler writes the flags alone. -/
theorem queryHandlerRule : Obligations.QueryHandlerRule := by
  unfold Obligations.QueryHandlerRule
  intro port k s
  refine ⟨queryAnswer k (s.lookupPort port), ?_, ?_⟩
  · have hflags : flagsWord (!queryAnswer k (s.lookupPort port)) false =
        if queryAnswer k (s.lookupPort port) then 0x0000 else 0x0001 := by
      cases queryAnswer k (s.lookupPort port) <;> rfl
    rw [← hflags]
    rfl
  · cases hp : s.lookupPort port with
    | none => simp [queryAnswer]
    | some p =>
      have hfound (C : Port → Prop) : (∃ q, some p = some q ∧ C q) ↔ C p := by simp
      rw [hfound]
      cases k with
      | connected => simp [queryAnswer, Option.isSome_iff_ne_none]
      | readable => simp [queryAnswer, mailboxState_readable_iff, and_comm]
      | writeable => simp [queryAnswer, mailboxState_writeable_iff, and_comm]
      | exhausted => simp [queryAnswer, mailboxState_exhausted_iff]
      | busy => simp [queryAnswer]
      | controlledByProgram => simp [queryAnswer]

end Sys2Proof.Machine
end

/-! ## Relinquish and the direct transfers (R247 to R251) -/

section

namespace Sys2Proof.Machine

variable {s : State} {p : Port} {m : Mailbox}

/-! ### A port whose mailbox changes -/

theorem withBytes_eq (hm : p.mailbox = some m) (bytes : List Byte) :
    p.withBytes bytes = { p with mailbox := some ⟨m.cap, bytes⟩ } := by
  simp [Port.withBytes, hm]

/-- The port at an address gets new bytes, and every other port is as before. -/
theorem portsChangedAt_withBytes {a : Word} (hp : s.lookupPort a = some p) (hm : p.mailbox = some m)
    (bytes : List Byte) :
    portsChangedAt s (s.updatePort a (fun q => q.withBytes bytes)) a { p with mailbox := some ⟨m.cap, bytes⟩ } := by
  rw [← withBytes_eq hm bytes]
  exact portsChangedAt_updatePort s a p (fun q => q.withBytes bytes) (fun _ => rfl) hp

/-- The handler's flags by what is left, as the rules of both direct forms write them (R250, R251). -/
theorem setDirectFlags_sr (n : Nat) : (s.setDirectFlags n).sr = flagsWord (decide (n = 0)) (decide (0 < n)) := by
  rw [← Bool.beq_eq_decide_eq]
  rfl

/-! ### Relinquish (R247, R249) -/

theorem programRelinquish_eq (p : Port) :
    programRelinquish p =
      { p with
        mailbox := if p.handoffReadable then p.mailbox.map (fun m => ⟨m.cap, []⟩) else p.mailbox
        handoffReadable := false
        controller := .device } := by
  unfold programRelinquish
  cases p.handoffReadable <;> rfl

theorem handleRelinquish_refused {a : Word}
    (h : ∀ p, s.lookupPort a = some p → p.busy = true ∨ p.controller ≠ .program) :
    handleRelinquish a s = (s.setFault .ido 0, .complete) := by
  unfold handleRelinquish
  cases hp : s.lookupPort a with
  | none => rfl
  | some p =>
    rcases h p hp with hb | hc
    · simp [hb, State.raiseInHandler]
    · simp [hc, State.raiseInHandler]

theorem handleRelinquish_ok {a : Word} (hp : s.lookupPort a = some p) (hb : p.busy = false)
    (hc : p.controller = .program) :
    handleRelinquish a s = ((s.updatePort a programRelinquish).setFlags false false, .complete) := by
  simp [handleRelinquish, hp, hb, hc]

/-- Settles O36: the hand-off is `programRelinquish` on the one port. -/
theorem relinquishHandlerRule : Obligations.RelinquishHandlerRule := by
  unfold Obligations.RelinquishHandlerRule
  intro port s
  refine ⟨handleRelinquish_refused, fun p hp hb hc => ⟨_, handleRelinquish_ok hp hb hc, rfl, ?_⟩⟩
  rw [← programRelinquish_eq p]
  exact portsChangedAt_updatePort s port p programRelinquish programRelinquish_addr hp

/-! ### Direct read (R250) -/

theorem append_bytes_eq_ofNat (high low : Byte) :
    (high ++ low : Word) = BitVec.ofNat 16 (low.toNat + 256 * high.toNat) := by
  have hlow := low.isLt
  have hhigh := high.isLt
  apply BitVec.eq_of_toNat_eq
  rw [BitVec.toNat_append, Nat.shiftLeft_eq, Nat.mul_comm, ← Nat.two_pow_add_eq_or_of_lt hlow, BitVec.toNat_ofNat]
  omega

/-- The word a direct read makes of the oldest bytes, by their numbers (R250). -/
theorem directWord_eq (bytes : List Byte) :
    (bytes.getD 1 0 ++ bytes.getD 0 0 : Word) =
      BitVec.ofNat 16 ((bytes.headD 0).toNat +
        256 * (if 2 ≤ bytes.length then (bytes.tail.headD 0).toNat else 0)) := by
  rw [append_bytes_eq_ofNat]
  rcases bytes with _ | ⟨b0, _ | ⟨b1, rest⟩⟩ <;> simp

theorem drop_min_length (bytes : List Byte) : bytes.drop (min 2 bytes.length) = bytes.drop 2 := by
  rcases Nat.le_total 2 bytes.length with h | h
  · rw [Nat.min_eq_left h]
  · rw [Nat.min_eq_right h, List.drop_length, List.drop_of_length_le h]

theorem handle_direct_read {x : Transfer} (hi : x.indirect = false) (hd : x.dir = .read) :
    handle (.transfer x) s = directRead x.port s := by
  simp [handle, handleTransfer, hi, hd]

/-- Settles O37: admission is the premise, and `directRead` takes up to two bytes. -/
theorem directReadRule : Obligations.DirectReadRule := by
  unfold Obligations.DirectReadRule
  intro x s hi hd
  have hx := handle_direct_read (s := s) hi hd
  refine ⟨fun h => hx.trans (directRead_ido x.port s (admission_eq_none h)), ?_⟩
  intro p m h b0 b1 left
  have hadm : admission s x.port .read = some (p, m) := admission_eq_some_iff.mpr h
  obtain ⟨hp, hm, -⟩ := h
  have hleft : (m.bytes.drop 2).length = left := by
    simp only [List.length_drop, left]
    omega
  refine ⟨_, hx.trans (directRead_ok x.port s p m hadm), ?_, ?_⟩
  · rw [← directWord_eq, ← hleft, ← Bool.beq_eq_decide_eq]
    rfl
  · rw [drop_min_length]
    exact portsChangedAt_withBytes hp hm _

/-! ### Direct write (R251) -/

theorem lowByte_eq_ofNat (w : Word) : w.extractLsb' 0 8 = BitVec.ofNat 8 (w.toNat % 256) := by
  apply BitVec.eq_of_toNat_eq
  rw [BitVec.extractLsb'_toNat, Nat.shiftRight_zero, BitVec.toNat_ofNat]
  omega

theorem highByte_eq_ofNat (w : Word) : w.extractLsb' 8 8 = BitVec.ofNat 8 (w.toNat / 256) := by
  apply BitVec.eq_of_toNat_eq
  rw [BitVec.extractLsb'_toNat, Nat.shiftRight_eq_div_pow, BitVec.toNat_ofNat]

/-- The bytes a direct write adds where there is room for one at least (R251). -/
theorem append_directBytes (hroom : m.bytes.length < m.cap) (w : Word) :
    m.bytes ++ directBytes m w =
      if m.bytes.length + 2 ≤ m.cap then
        m.bytes ++ [BitVec.ofNat 8 (w.toNat % 256), BitVec.ofNat 8 (w.toNat / 256)]
      else m.bytes ++ [BitVec.ofNat 8 (w.toNat % 256)] := by
  rw [directBytes, lowByte_eq_ofNat, highByte_eq_ofNat, Mailbox.free]
  split
  · rw [Nat.min_eq_left (by omega)]
    rfl
  · have hone : min 2 (m.cap - m.bytes.length) = 1 := by omega
    rw [hone]
    rfl

theorem handle_direct_write {x : Transfer} (hi : x.indirect = false) (hd : x.dir = .write) :
    handle (.transfer x) s = directWrite x.port x.word s := by
  simp [handle, handleTransfer, hi, hd]

/-- Settles O38: admission is the premise, and `directWrite` adds as many of the two bytes as there is room for. -/
theorem directWriteRule : Obligations.DirectWriteRule := by
  unfold Obligations.DirectWriteRule
  intro x s hi hd
  have hx := handle_direct_write (s := s) hi hd
  refine ⟨fun h => hx.trans (directWrite_ido x.port x.word s (admission_eq_none h)), ?_⟩
  intro p m h low high bytes left
  have hadm : admission s x.port .write = some (p, m) := admission_eq_some_iff.mpr h
  obtain ⟨hp, hm, -, -, -, hroom⟩ := h
  have hbytes : m.bytes ++ directBytes m x.word = bytes := append_directBytes hroom x.word
  refine ⟨_, hx.trans (directWrite_ok x.port x.word s p m hadm), ?_, ?_⟩
  · rw [hbytes, ← Bool.beq_eq_decide_eq]
    rfl
  · rw [hbytes]
    exact portsChangedAt_withBytes hp hm _

/-! ### A device's hand-off (R231, R243, R257) -/

section Handoff

variable {a : Word} {d : Device} {cap : Nat}

/-- A legal operation of the device leaves the port with its effect at the address. -/
theorem lookupPort_deviceMove {mv : DeviceMove} {q : Port} (hp : s.lookupPort a = some p) (hd : p.device = some d)
    (hl : mv.legal p = true) (hq : mv.effect p = q) : (s.deviceMove a mv).lookupPort a = some q :=
  (deviceMove_becomes hp hd hl hq).2.1

/-- Pushes that fit the mailbox append their bytes in order (R244). -/
theorem lookupPort_pushes {bytes held : List Byte} (hp : s.lookupPort a = some p) (hd : p.device = some d)
    (hc : p.controller = .device) (hm : p.mailbox = some ⟨cap, held⟩) (hfit : held.length + bytes.length ≤ cap) :
    (applyMoves ((bytes.map DeviceMove.push).map (EnvMove.device a)) s).lookupPort a =
      some { p with mailbox := some ⟨cap, held ++ bytes⟩ } := by
  induction bytes generalizing s p held with
  | nil =>
    rw [List.append_nil, ← hm]
    exact hp
  | cons b rest ih =>
    rw [List.length_cons] at hfit
    have hroom : held.length < cap := by omega
    have hpush := lookupPort_deviceMove hp hd (by simp [legal_push hc hm, hroom]) (effect_push hm b)
    have hrest := ih (held := held ++ [b]) hpush hd hc rfl (by simp; omega)
    rw [List.append_assoc] at hrest
    exact hrest

theorem applyMoves_append (ms ns : List EnvMove) (s : State) : applyMoves (ms ++ ns) s = applyMoves ns (applyMoves ms s) :=
  List.foldl_append

/-- Allocation, pushes that fit and hand-over leave the port Readable with exactly the bytes pushed (R257). -/
theorem lookupPort_handoff {bytes : List Byte} (hp : s.lookupPort a = some p) (hd : p.device = some d)
    (hc : p.controller = .device) (hbytes : bytes ≠ []) (hfit : bytes.length ≤ cap) :
    (applyMoves (([DeviceMove.allocate cap] ++ bytes.map DeviceMove.push ++ [DeviceMove.relinquish]).map
        (EnvMove.device a)) s).lookupPort a =
      some { p with mailbox := some ⟨cap, bytes⟩, controller := .program, handoffReadable := true } := by
  have halloc := lookupPort_deviceMove hp hd (legal_allocate hc cap) rfl
  have hpush := lookupPort_pushes (cap := cap) (held := []) (bytes := bytes) halloc hd hc rfl (by simpa using hfit)
  have heffect : DeviceMove.relinquish.effect { p with mailbox := some ⟨cap, bytes⟩ } =
      { p with mailbox := some ⟨cap, bytes⟩, controller := .program, handoffReadable := true } := by
    rw [effect_relinquish rfl]
    simp [hbytes]
  rw [List.map_append, List.map_append, applyMoves_append, applyMoves_append]
  exact lookupPort_deviceMove hpush hd (legal_relinquish hc) heffect

end Handoff

/-- Settles O43: the hand-off leaves the port Readable with the bytes pushed, and the direct read takes the first two. -/
theorem mailboxHandoffDeliversBytes : Obligations.MailboxHandoffDeliversBytes := by
  unfold Obligations.MailboxHandoffDeliversBytes
  intro port p cap b0 b1 rest x s hp hd hc hb hfit hport hi hdir t
  obtain ⟨d, hd⟩ := Option.ne_none_iff_exists'.mp hd
  have hlook := lookupPort_handoff (bytes := b0 :: b1 :: rest) hp hd hc nofun hfit
  have hread : readableAt t port _ ⟨cap, b0 :: b1 :: rest⟩ := ⟨hlook, rfl, hb, rfl, rfl, nofun⟩
  refine ⟨hread, ?_⟩
  subst hport
  obtain ⟨u, hu, hstate, hchanged⟩ := (directReadRule x t hi hdir).2 _ _ hread
  refine ⟨u, hu, ?_, ?_⟩
  · rw [hstate]
    exact (regs_get_set _ .lr .lr _).trans ((if_pos rfl).trans (append_bytes_eq_ofNat b1 b0).symm)
  · constructor
    · intro hrest
      exact ⟨_, ⟨cap, rest⟩, hchanged.1, rfl, hb, rfl, rfl, hrest⟩
    · rintro ⟨q, m, hq, hm, -, -, -, hne⟩
      rw [hchanged.1] at hq
      cases hq
      cases hm
      exact hne

end Sys2Proof.Machine
end

/-! ## The signal handler (R187, R189) -/

section

namespace Sys2Proof.Machine

variable {s : State}

/-- A device has no legal operation on a port the program controls, so a gap or a signal leaves the port alone. -/
theorem deviceMove_lookupPort {a b : Word} {p : Port} (hp : s.lookupPort a = some p) (hc : p.controller = .program)
    (m : DeviceMove) : (s.deviceMove b m).lookupPort a = some p := by
  rcases deviceMove_cases s b m with h | h | ⟨q, hq, -, hl, h⟩ <;> rw [h]
  · exact hp
  · exact hp
  · have hne : b ≠ a := by
      rintro rfl
      rw [hp] at hq
      cases hq
      cases (legal_controller m p hl).symm.trans hc
    simp [lookupPort_updatePort s b a m.effect (effect_addr m), hp, hne]

theorem applyPlatformMoves_lookupPort {a : Word} {p : Port} (hp : s.lookupPort a = some p)
    (hc : p.controller = .program) (ms : List PlatformMove) : (applyPlatformMoves ms s).lookupPort a = some p := by
  induction ms generalizing s with
  | nil => exact hp
  | cons m rest ih =>
    refine ih (s := applyPlatformMove m s) ?_
    cases m with
    | device b d => exact deviceMove_lookupPort hp hc d
    | storeByte b v =>
      change (s.storePlatformByte b v).lookupPort a = some p
      rcases storePlatformByte_cases s b v with h | ⟨-, -, h⟩ <;> rw [h]
      · exact hp
      · exact hp

theorem handleSignal_refused {c : SignalCall} (h : s.signalValid c.arg0 = false) :
    handleSignal c s = (s.setFault .sig (c.arg0.extractLsb' 0 12), .complete) := by
  simp [handleSignal, h, State.raiseInHandler]

/-- With no effect pending the platform only receives the call (R187, entry 5). -/
theorem signalPlatform_quiet (h : s.signalEffects = []) (c : SignalCall) :
    s.signalPlatform c = { s with signals := s.signals ++ [c] } := by
  cases s
  cases h
  rfl

theorem lowBits_eq_ofNat (w : Word) : w.extractLsb' 0 12 = BitVec.ofNat 12 (w.toNat % 4096) := by
  apply BitVec.eq_of_toNat_eq
  rw [BitVec.extractLsb'_toNat, Nat.shiftRight_zero, BitVec.toNat_ofNat]
  omega

theorem signalValid_iff (s : State) (w : Word) : s.signalValid w = true ↔ w ∈ s.cfg.signalValid :=
  List.contains_iff_mem

/-- Settles O45: the platform's moves change ports the device controls, reports, and the store outside the segments. -/
theorem signalHandlerRule : Obligations.SignalHandlerRule := by
  unfold Obligations.SignalHandlerRule
  intro c s
  refine ⟨fun hc => ?refused, fun hc => ?accepted⟩
  case refused =>
    rw [← lowBits_eq_ofNat]
    exact handleSignal_refused (Bool.eq_false_iff.mpr (mt (signalValid_iff s c.arg0).mp hc))
  case accepted =>
    refine ⟨_, handleSignal_accepted c s ((signalValid_iff s c.arg0).mpr hc), ?state, ?bytes, ?ports, ?quiet⟩
    case state =>
      rw [signalPlatform_eq]
      rfl
    case bytes => exact fun a ha => applyPlatformMoves_readByte _ (s.recordSignal c) a ha
    case ports => exact fun a p hp hprog => applyPlatformMoves_lookupPort (s := s.recordSignal c) hp hprog _
    case quiet =>
      intro hnone
      rw [signalPlatform_quiet hnone]
      rfl

end Sys2Proof.Machine
end

/-! ## The indirect transfer (R252 to R256) -/

section

namespace Sys2Proof.Machine

variable {s : State} {x : Transfer} {p : Port} {m : Mailbox}

/-! ### The first resolution (R252 to R254) -/

theorem startIndirect_ido (h : admission s x.port x.dir = none) : startIndirect x s = (s.setFault .ido 0, .complete) := by
  simp only [startIndirect, h, State.raiseInHandler]

theorem startIndirect_odd (h : admission s x.port x.dir = some (p, m)) (hodd : isOdd x.addr = true) :
    startIndirect x s = (s.setFault .algn 0, .complete) := by
  simp only [startIndirect, h, hodd, if_true, State.raiseInHandler]

/-- The state after the clamp's fault (R254). -/
def clampFault (s : State) (x : Transfer) : State :=
  if validLength s x.addr < x.len.toNat then s.setFault .seg 0 else s

/-- The state in which a started transfer moves its first chunk: the clamp's fault, the total in `R1`, the flags, the
port busy (R254). -/
def startedState (s : State) (x : Transfer) (m : Mailbox) : State :=
  (((clampFault s x).setX .r1 (BitVec.ofNat 16 (transferTotal s x m))).setIndirectFlags (transferTotal s x m)
    (available x.dir m)).updatePort x.port (fun q => q.withBusy true)

theorem startIndirect_ok (h : admission s x.port x.dir = some (p, m)) (heven : isOdd x.addr = false) :
    startIndirect x s =
      moveChunk { x with started := true, remaining := transferTotal s x m } (startedState s x m) := by
  simp only [startIndirect, h, heven]
  rfl

theorem clampFault_ports (s : State) (x : Transfer) : (clampFault s x).ports = s.ports := by
  unfold clampFault
  split <;> rfl

theorem clampFault_regs (s : State) (x : Transfer) : (clampFault s x).regs = s.regs := by
  unfold clampFault
  split <;> rfl

theorem startedState_eq (s : State) (x : Transfer) (m : Mailbox) :
    startedState s x m =
      { clampFault s x with
        regs := s.regs.set .r1 (BitVec.ofNat 16 (transferTotal s x m))
        sr := flagsWord (decide (transferTotal s x m = available x.dir m))
          (decide (transferTotal s x m < available x.dir m))
        ports := (startedState s x m).ports } := by
  rw [← clampFault_regs s x, ← Bool.beq_eq_decide_eq]
  rfl

theorem startedState_port (hp : s.lookupPort x.port = some p) :
    portsChangedAt s (startedState s x m) x.port { p with busy := true } := by
  have hchanged := portsChangedAt_updatePort s x.port p (fun q => q.withBusy true) (fun _ => rfl) hp
  have hports : (startedState s x m).ports = (s.updatePort x.port (fun q => q.withBusy true)).ports := by
    rw [State.updatePort_ports, ← clampFault_ports s x]
    rfl
  unfold portsChangedAt State.lookupPort at *
  rw [hports]
  exact hchanged

theorem validLength_eq (s : State) (a : Word) :
    (if s.segs.ds.len ≤ a.toNat then 0 else s.segs.ds.len - a.toNat) = validLength s a := by
  unfold validLength
  split <;> omega

theorem transferTotal_eq {valid req avail : Nat} (hvalid : valid = validLength s x.addr)
    (hreq : req = if valid < x.len.toNat then valid else x.len.toNat) (havail : avail = available x.dir m) :
    (if req ≤ avail then req else avail) = transferTotal s x m := by
  subst hvalid hreq havail
  unfold transferTotal
  split <;> split at * <;> omega

theorem handle_started (hi : x.indirect = true) (hs : x.started = true) : handle (.transfer x) s = moveChunk x s := by
  simp [handle, handleTransfer, hi, hs]

theorem handle_unstarted (hi : x.indirect = true) (hs : x.started = false) :
    handle (.transfer x) s = startIndirect x s := by
  simp [handle, handleTransfer, hi, hs]

/-- Settles O39: the state the first chunk moves in is `startedState`. -/
theorem indirectStartRule : Obligations.IndirectStartRule := by
  unfold Obligations.IndirectStartRule
  intro x s hi hs
  have hx := handle_unstarted (s := s) hi hs
  refine ⟨fun h => hx.trans (startIndirect_ido (admission_eq_none h)), fun p m h hodd => ?_, ?_⟩
  · exact hx.trans (startIndirect_odd (admission_eq_some_iff.mpr h) (isOdd_of_odd hodd))
  · intro p m h heven avail valid req total clamped
    have hadm : admission s x.port x.dir = some (p, m) := admission_eq_some_iff.mpr h
    have havail : avail = available x.dir m := by
      unfold avail
      cases x.dir <;> rfl
    have hvalid : valid = validLength s x.addr := validLength_eq s x.addr
    have htotal : total = transferTotal s x m := transferTotal_eq hvalid rfl havail
    have hclamped : clamped = clampFault s x := by
      unfold clamped clampFault
      rw [hvalid]
    have hp : s.lookupPort x.port = some p := (admission_some s x.port x.dir p m hadm).1
    refine ⟨startedState s x m, ?_, startedState_port hp, ?_⟩
    · rw [htotal, havail, hclamped]
      exact startedState_eq s x m
    · rw [hx, startIndirect_ok hadm (isOdd_of_even heven), htotal]
      exact (handle_started (x := { x with started := true, remaining := transferTotal s x m }) hi rfl).symm

end Sys2Proof.Machine
end

/-! ## One chunk of an indirect transfer (R255, R256) -/

section

namespace Sys2Proof.Machine

variable {s t u : State} {x : Transfer} {p : Port} {m : Mailbox}

/-! ### What a chunk makes of its port and of memory -/

theorem portsChangedAt.trans {a : Word} {q r : Port} (h : portsChangedAt s t a q) (h' : portsChangedAt t u a r) :
    portsChangedAt s u a r := by
  obtain ⟨-, hother, haddrs⟩ := h
  obtain ⟨hsame', hother', haddrs'⟩ := h'
  exact ⟨hsame', fun b hb => (hother' b hb).trans (hother b hb), haddrs'.trans haddrs⟩

theorem readBytes_eq_map (mem : List Host.Cell) (a n : Nat) :
    Memory.readBytes mem a n = (List.range n).map (fun j => Memory.read mem (a + j)) := by
  induction n generalizing a with
  | zero => rfl
  | succ n ih =>
    rw [Memory.readBytes, ih, List.range_succ_eq_map, List.map_cons, List.map_map]
    have hnext : ∀ j, a + 1 + j = a + (j + 1) := fun j => by omega
    simp only [Nat.add_zero, Function.comp_def, hnext, Nat.succ_eq_add_one]

/-- The bytes of a read stand at ascending addresses, and every other byte is as before. -/
theorem memAfter_read {n : Nat} (hn : n ≤ available x.dir m) (a : Nat) :
    (memAfter s m x n).readByte a =
      if x.dir = .read ∧ s.dataAddr x.addr ≤ a ∧ a < s.dataAddr x.addr + n then
        m.bytes.getD (a - s.dataAddr x.addr) 0
      else s.readByte a := by
  cases hd : x.dir with
  | write => simp [memAfter, hd]
  | read =>
    rw [hd] at hn
    have hlen : (m.bytes.take n).length = n := by
      rw [List.length_take]
      exact Nat.min_eq_left hn
    have hread : memAfter s m x n = s.writeBytes (s.dataAddr x.addr) (m.bytes.take n) := by
      simp only [memAfter, hd]
    rw [hread, readByte_eq, State.writeBytes_mem, Memory.read_writeBytes, hlen]
    by_cases ha : s.dataAddr x.addr ≤ a ∧ a < s.dataAddr x.addr + n
    · have hin : a - s.dataAddr x.addr < n := by omega
      rw [if_pos ha, if_pos ⟨rfl, ha⟩, List.getD_eq_getElem?_getD, List.getElem?_take_of_lt hin,
        ← List.getD_eq_getElem?_getD]
      rfl
    · rw [if_neg ha, if_neg (mt And.right ha), readByte_eq]

theorem advance_eq (x : Transfer) (n : Nat) :
    x.advance n = { x with addr := BitVec.ofNat 16 (x.addr.toNat + n), remaining := x.remaining - n } := by
  rw [BitVec.ofNat_add, BitVec.ofNat_toNat, BitVec.setWidth_eq]
  rfl

/-- The outcome of a chunk the store answers for: the bytes moved, and the transfer finished or kept queued. -/
theorem moveChunk_outcome {n : Nat} {done : Bool} (hp : s.lookupPort x.port = some p) (hm : p.mailbox = some m)
    (hn : n = chunkSize p m x) (hstore : s.inStore (s.dataAddr x.addr) n = true)
    (hdone : done = (decide (x.remaining = n) || decide (available x.dir m = n))) :
    ∃ t, moveChunk x s = (t, if done then .complete else .ongoing (.transfer (x.advance n))) ∧
      t = { s with mem := t.mem, ports := t.ports } ∧ t.mem = (memAfter s m x n).mem ∧
      portsChangedAt s t x.port
        { p with mailbox := some ⟨m.cap, bytesAfter s m x n⟩, busy := if done then false else p.busy } := by
  subst hn
  obtain ⟨hle, hav⟩ := chunkSize_le p m x
  rcases moveChunk_cases x s with hfail | ⟨p', m', hp', hm', -, hx⟩
  · exact absurd (congrArg Prod.snd hfail) (moveChunk_not_failed hp hm hstore)
  · obtain rfl : p = p' := Option.some.inj (hp.symm.trans hp')
    obtain rfl : m = m' := Option.some.inj (hm.symm.trans hm')
    have hoffer := available_bytesAfter s m x (chunkSize p m x)
    generalize chunkSize p m x = n at *
    have hlook : (memAfter s m x n).lookupPort x.port = some p := by
      rw [memAfter_eq]
      exact hp
    have hmoved : portsChangedAt s ((memAfter s m x n).updatePort x.port (fun q => q.withBytes (bytesAfter s m x n)))
        x.port { p with mailbox := some ⟨m.cap, bytesAfter s m x n⟩ } := by
      have hchanged := portsChangedAt_withBytes hlook hm (bytesAfter s m x n)
      rw [memAfter_eq] at hchanged ⊢
      exact hchanged
    dsimp only at hx
    rw [hoffer] at hx
    rcases hx with ⟨hend, hx⟩ | ⟨hrem, hmore, hx⟩
    · have htrue : done = true := by
        rw [hdone, Bool.or_eq_true, decide_eq_true_eq, decide_eq_true_eq]
        omega
      subst htrue
      refine ⟨_, hx, ?_, rfl, hmoved.trans ?_⟩
      · rw [memAfter_eq]
        rfl
      · exact portsChangedAt_updatePort _ _ _ (fun q => q.withBusy false) (fun _ => rfl) hmoved.1
    · have hfalse : done = false := by
        rw [hdone, Bool.or_eq_false_iff, decide_eq_false_iff_not, decide_eq_false_iff_not]
        omega
      subst hfalse
      refine ⟨_, hx, ?_, rfl, hmoved⟩
      rw [memAfter_eq]
      rfl

/-- Settles O40: the premises place the chunk inside the store, and its size is that of R255. -/
theorem indirectChunkRule : Obligations.IndirectChunkRule := by
  unfold Obligations.IndirectChunkRule
  intro x p m s hi hs hsegs hp hm hin speed avail wanted n at0 bytes done
  have hspeed : speed = deviceSpeed p := by
    unfold speed deviceSpeed
    cases p.device <;> rfl
  have havail : avail = available x.dir m := by
    unfold avail
    cases x.dir <;> rfl
  have hn : n = chunkSize p m x := by
    unfold n wanted chunkSize
    rw [hspeed, havail]
  have hbytes : bytes = bytesAfter s m x n := by
    unfold bytes bytesAfter
    cases x.dir with
    | read => rfl
    | write => rw [readBytes_eq_map]; rfl
  have hstore : s.inStore (s.dataAddr x.addr) n = true := by
    rw [hn]
    exact chunk_inStore hsegs (fun hpos => hin.resolve_left hpos.ne') p m
  have hle : n ≤ available x.dir m := hn ▸ (chunkSize_le p m x).2
  obtain ⟨t, hmove, ht, hmem, hports⟩ := moveChunk_outcome (done := done) hp hm hn hstore (by rw [← havail])
  rw [handle_started hi hs, hmove, hbytes, ← advance_eq]
  refine ⟨t, rfl, ht, fun a => ?_, hports, rfl⟩
  have hread : t.readByte a = (memAfter s m x n).readByte a := by rw [readByte_eq, hmem, readByte_eq]
  rw [hread]
  exact memAfter_read hle a

end Sys2Proof.Machine
end
